-- ==== Sys2Proof/Word.lean ====
section
/-! DEFINITION. The word types of LZWQ: the 32-bit register and bus word (10_state.md R20), the buffer byte (R56) and the
LZW code word, which has at most 12 bits (30_encoding.md R100, 00_scope.md R6 `MAX_WIDTH`). -/

namespace Sys2Proof

/-- A 32-bit register or bus word (R20, R111). -/
abbrev Word := BitVec 32

/-- A byte of a buffer, and a pixel index (R10, R56). -/
abbrev Byte := BitVec 8

/-- An LZW code: its value fits in `MAX_WIDTH` = 12 bits whatever width it was read at (R6, R100). -/
abbrev Code := BitVec 12

end Sys2Proof
end

