-- ==== Sys2Proof/Config.lean ====
section
/-! DEFINITION. What an implementation of LZWQ fixes (the five named parameters of 00_scope.md R7) and the free values the spec
leaves open (the power-on contents of the buffers, 70_reset_and_hazards.md R282). -/

namespace Sys2Proof

/-- The named parameters of R7. They are read back through CAP0 to CAP2 (R22 to R24), so State holds them
(`State.params`) and every statement about a state is a statement about every value of them. -/
structure Params where
  inBytes  : Nat
  pixBytes : Nat
  tgtW     : Nat
  tgtH     : Nat
  maxb     : Nat
deriving DecidableEq, Repr

/-- The legal ranges of R7, the further constraint `TGT_W * TGT_H <= 61440` among them. -/
abbrev Params.Legal (p : Params) : Prop :=
  (1 ≤ p.inBytes ∧ p.inBytes ≤ 2 ^ 20) ∧ (1 ≤ p.pixBytes ∧ p.pixBytes ≤ 2 ^ 24) ∧
  (1 ≤ p.tgtW ∧ p.tgtW ≤ 255) ∧ (1 ≤ p.tgtH ∧ p.tgtH ≤ 255) ∧ (1 ≤ p.maxb ∧ p.maxb ≤ 255) ∧
  p.tgtW * p.tgtH ≤ 61440

/-- The defaults of R7 (DESIGN CHOICE, log 1: the reset state is given for these; nothing else rests on them). -/
def Params.default : Params :=
  { inBytes := 65536, pixBytes := 65536, tgtW := 5, tgtH := 5, maxb := 100 }

/-- FREE VALUE (log 3). The byte at an aperture offset of a buffer after power-on number `draw`, until something writes it:
R282 says it holds "some value 0..255 that no rule fixes". Uninterpreted: nothing can evaluate it. -/
opaque Config.powerOnByte (draw : Nat) (off : Nat) : Byte

end Sys2Proof
end

