-- ==== Sys2Proof/Machine/Layout.lean ====
section
/-! DEFINITION. The aperture of LZWQ: the register offsets (10_state.md R20), the regions and their windows (20_memory.md R71), and
the shape an access must have (40_host_interface.md R138). -/

namespace Sys2Proof.Machine

/-- `MAX_WIDTH` (R6): the largest code width in bits. -/
def maxWidth : Nat := 12
/-- `DICT_CODES` (R6): the size of the code space and of the dictionary. -/
def dictCodes : Nat := 4096
/-- `MCS_MIN` (R6). -/
def mcsMin : Nat := 2
/-- `MCS_MAX` (R6). -/
def mcsMax : Nat := 8

/-- The constant of the ID register (R21). -/
def idWord : Word := 0x31575A4C#32

/-- CTRL's offset (R20, R25). -/
def ctrlOff : Word := 0x10#32

/-- The configuration registers LZW_MCS, LZW_IN_LEN, LZW_EXPECT, DS_SRC_W and DS_SRC_H (R20, R135), by offset. -/
def isConfigOff (off : Nat) : Bool :=
  off == 0x20 || off == 0x24 || off == 0x28 || off == 0x50 || off == 0x54

/-- The three byte buffers (R56). -/
inductive Buf where
  | out
  | inp
  | pix
deriving DecidableEq, Repr

/-- The four regions of the aperture (R71). -/
inductive Region where
  | reg
  | buf (b : Buf)
deriving DecidableEq, Repr

/-- `base(B)` (R71). -/
def Buf.base : Buf → Nat
  | .out => 0x1000
  | .inp => 0x100000
  | .pix => 0x1000000

/-- The buffer's size in bytes (R56, R71). -/
def Buf.size (p : Params) : Buf → Nat
  | .out => p.tgtW * p.tgtH
  | .inp => p.inBytes
  | .pix => p.pixBytes

/-- The first offset past a region (R71). -/
def Region.stop (p : Params) : Region → Nat
  | .reg => 0x100
  | .buf b => b.base + b.size p

/-- The offset lies in the buffer (R71). -/
def Buf.holds (p : Params) (b : Buf) (off : Nat) : Bool :=
  decide (b.base ≤ off) && decide (off < b.base + b.size p)

/-- `region_of(off)` (R71, R130): every offset outside the four regions is unmapped. -/
def regionOf (p : Params) (off : Nat) : Option Region :=
  if off < 0x100 then some .reg
  else if Buf.out.holds p off then some (.buf .out)
  else if Buf.inp.holds p off then some (.buf .inp)
  else if Buf.pix.holds p off then some (.buf .pix)
  else none

/-- The shape check of R138: (a) the size, (b) the alignment, (c) all bytes inside one region, (d) size 4 in REG. It answers
the region where the shape is legal, and nothing where the access gets BUSERR. -/
def target (p : Params) (off size : Nat) : Option Region :=
  if (size == 1 || size == 2 || size == 4) && off % size == 0 then
    match regionOf p off with
    | some .reg => if size = 4 then some .reg else none
    | some (.buf b) => if off + size ≤ (Region.buf b).stop p then some (.buf b) else none
    | none => none
  else none

/-- `legal_shape(off, size)` (R138). -/
def legalShape (p : Params) (off size : Nat) : Bool :=
  (target p off size).isSome

end Sys2Proof.Machine
end

