-- ==== Sys2Proof/Syntax.lean ====
section
/-! DEFINITION. The instructions of LZWQ: one constructor per row of spec/opcode_table.json, in the table's order. What the
spec calls a command, a code word, a bus transaction or an engine step is one "instruction" of the agent that takes it. -/

namespace Sys2Proof

/-- A host bus transaction `(dir, off, size, wdata)` (30_encoding.md R111); `wdata` is present for a WR only. `size` is the number
of bytes, any number: 1, 2 and 4 are the legal ones (20_memory.md R76). -/
inductive Txn where
  | rd (off : Word) (size : Nat)
  | wr (off : Word) (size : Nat) (wdata : Word)
deriving DecidableEq, Repr

/-- One constructor per row of the opcode table. -/
inductive Instr where
  -- ctrl_cmd: a word written to CTRL (R108 to R110)
  | nop
  | lzwStart
  | dsStart
  | abort
  | ack
  | softReset
  | illegalCmd (w : Word)
  -- lzw_code: a code word the LZW engine has read (R100, R104)
  | clear (c : Code)
  | endCode (c : Code)
  | dict (c : Code)
  | kwkwk (c : Code)
  | invalid (c : Code)
  -- bus: a host transaction (R111, R130)
  | rd32Reg (off : Word)
  | rd8 (off : Word)
  | rd16 (off : Word)
  | rd32 (off : Word)
  | rdBusy (off : Word) (size : Nat)
  | wr32Reg (off wdata : Word)
  | wr32CfgBusy (off wdata : Word)
  | wr8 (off wdata : Word)
  | wr16 (off wdata : Word)
  | wr32 (off wdata : Word)
  | wrBusy (off : Word) (size : Nat) (wdata : Word)
  | busIllegal (t : Txn)
  -- engine_step: the engines' own steps, which have no encoding (R180, R226)
  | lzwStep
  | dsCellStep
deriving DecidableEq, Repr

end Sys2Proof
end

