-- ==== Sys2Proof/WellFormed.lean ====
section
/-! DEFINITION. Which instructions are well-formed: the operands fit the row's encoding and the part of its condition that does
not depend on the engines' state (spec/opcode_table.json, column "condition"). The part that does (an engine is busy, the
code's class) is `Instr.applies` in Decode.lean. -/

namespace Sys2Proof

/-- A CTRL word no legal command has: reserved bits set, or OP in 5..E (30_encoding.md R110). -/
def illegalWord (w : Word) : Bool :=
  decide (w.toNat / 16 ≠ 0) || (decide (5 ≤ w.toNat % 16) && decide (w.toNat % 16 ≤ 14))

/-- The code is `CLEAR = 1 << MCS` for an MCS that LZW_START accepts (R12, R141). -/
def isSomeClear (c : Nat) : Bool :=
  [4, 8, 16, 32, 64, 128, 256].contains c

/-- The access has a legal shape and its region is a buffer. -/
def toBuffer (p : Params) (off : Word) (size : Nat) : Bool :=
  match Machine.target p off.toNat size with
  | some (.buf _) => true
  | _ => false

/-- The access has a legal shape and its region is REG. -/
def toReg (p : Params) (off : Word) : Bool :=
  match Machine.target p off.toNat 4 with
  | some .reg => true
  | _ => false

/-- Well-formedness, against the parameters of the block. -/
def Instr.wf (p : Params) : Instr → Bool
  | .nop => true
  | .lzwStart => true
  | .dsStart => true
  | .abort => true
  | .ack => true
  | .softReset => true
  | .illegalCmd w => illegalWord w
  | .clear c => isSomeClear c.toNat
  | .endCode c => isSomeClear (c.toNat - 1)
  | .dict _ => true
  | .kwkwk c => decide (6 ≤ c.toNat)
  | .invalid c => decide (6 ≤ c.toNat)
  | .rd32Reg off => toReg p off
  | .rd8 off => toBuffer p off 1
  | .rd16 off => toBuffer p off 2
  | .rd32 off => toBuffer p off 4
  | .rdBusy off size => toBuffer p off size
  -- a write to CTRL is its command's row (R109, R134)
  | .wr32Reg off _ => toReg p off && decide (off ≠ Machine.ctrlOff)
  | .wr32CfgBusy off _ => Machine.isConfigOff off.toNat
  | .wr8 off _ => toBuffer p off 1
  | .wr16 off _ => toBuffer p off 2
  | .wr32 off _ => toBuffer p off 4
  | .wrBusy off size _ => toBuffer p off size
  | .busIllegal (.rd off size) => !Machine.legalShape p off.toNat size
  | .busIllegal (.wr off size _) => !Machine.legalShape p off.toNat size
  | .lzwStep => true
  | .dsCellStep => true

end Sys2Proof
end

