-- ==== Sys2Proof/Decode.lean ====
section
/-! DEFINITION. The decoder of LZWQ's three encodings (30_encoding.md): CTRL command words (R108 to R110), LZW code words in a byte
stream (R100 to R107) and bus transactions (R111, R130), with the encoder after it. What a code word or a transaction decodes to
depends on the registers R104 and R130 name, so decoding takes them as `DecodeCtx`. -/

namespace Sys2Proof

/-! ## Byte order and bit packing -/

/-- `n` bytes of a value, the least significant first (20_memory.md R73). -/
def leBytes : Nat → Nat → List Byte
  | 0, _ => []
  | n + 1, v => BitVec.ofNat 8 v :: leBytes n (v / 256)

/-- The value of bytes, the least significant first (R73). -/
def ofLeBytes : List Byte → Nat
  | [] => 0
  | b :: bs => b.toNat + 256 * ofLeBytes bs

/-- Bit `p` of a code stream: bit `p % 8` of byte `p // 8` (R101). -/
def streamBit (byteAt : Nat → Byte) (p : Nat) : Nat :=
  ((byteAt (p / 8)).toNat >>> (p % 8)) &&& 1

/-- The code of width `W` that starts at stream bit `P`, bit by bit as R101 writes it. -/
def codeAt (byteAt : Nat → Byte) (P : Nat) : Nat → Nat
  | 0 => 0
  | W + 1 => codeAt byteAt P W ||| (streamBit byteAt (P + W) <<< W)

/-- The document's 3-byte window form of the same read (R102). -/
def windowCode (byteAt : Nat → Byte) (P W : Nat) : Nat :=
  let j := P / 8
  let win := (byteAt j).toNat ||| ((byteAt (j + 1)).toNat <<< 8) ||| ((byteAt (j + 2)).toNat <<< 16)
  (win >>> (P % 8)) &&& (2 ^ W - 1)

/-! ## Code classes -/

/-- `CLEAR = 1 << MCS` (00_scope.md R12, §4.3 "clear code = 2^minCodeSize"). -/
def clearCode (mcs : BitVec 8) : Nat := 2 ^ mcs.toNat

/-- `END = CLEAR + 1` (R12). -/
def endCode (mcs : BitVec 8) : Nat := clearCode mcs + 1

/-- `cap(w) = 1 << w` (R12). -/
def cap (w : Nat) : Nat := 2 ^ w

/-- `in_dict(c)` (10_state.md R52): a seeded literal or an added entry. -/
abbrev inDict (mcs : BitVec 8) (next c : Nat) : Prop :=
  c < clearCode mcs ∨ (clearCode mcs + 2 ≤ c ∧ c < next)

/-- The five classes of R104. -/
inductive CodeClass where
  | clear
  | endCode
  | dict
  | kwkwk
  | invalid
deriving DecidableEq, Repr

/-- The first class whose condition holds, in the order of R104. -/
def classify (mcs : BitVec 8) (next : Nat) (prevv : Bool) (c : Nat) : CodeClass :=
  if c = clearCode mcs then .clear
  else if c = endCode mcs then .endCode
  else if inDict mcs next c then .dict
  else if c = next ∧ prevv = true then .kwkwk
  else .invalid

/-! ## Command words -/

/-- The commands of R109, and the illegal words of R110. -/
inductive Cmd where
  | nop
  | lzwStart
  | dsStart
  | abort
  | ack
  | softReset
  | illegal
deriving DecidableEq, Repr

/-- A command word is exactly the OP value of R109's table; every other word is illegal (R110). -/
def classifyCommand (w : Word) : Cmd :=
  if w.toNat = 0x0 then .nop
  else if w.toNat = 0x1 then .lzwStart
  else if w.toNat = 0x2 then .dsStart
  else if w.toNat = 0x3 then .abort
  else if w.toNat = 0x4 then .ack
  else if w.toNat = 0xF then .softReset
  else .illegal

/-- The instruction a CTRL word is. -/
def decodeCommand (w : Word) : Instr :=
  match classifyCommand w with
  | .nop => .nop
  | .lzwStart => .lzwStart
  | .dsStart => .dsStart
  | .abort => .abort
  | .ack => .ack
  | .softReset => .softReset
  | .illegal => .illegalCmd w

/-! ## The decoder -/

/-- What decoding reads of the machine's state: the parameters and BUSY (R130), MCS, WIDTH, NEXT and PREVV (R103, R104). -/
structure DecodeCtx where
  params : Params
  busy   : Bool
  mcs    : BitVec 8
  width  : BitVec 4
  next   : BitVec 13
  prevv  : Bool
deriving DecidableEq, Repr

/-- What an agent takes up: a transaction on the bus, a code in a stream of bytes from a bit position, or an engine's turn. -/
inductive Fetched where
  | bus (t : Txn)
  | stream (bytes : List Byte) (pos : Nat)
  | lzwTurn
  | dsTurn
deriving DecidableEq, Repr

/-- Why bytes decode to nothing. -/
inductive DecodeError where
  /-- Fewer than the four bytes of a command word (R108). -/
  | shortCommand
  /-- More than the four bytes of a command word (R108). -/
  | longCommand
  /-- Fewer bits left than one code word: the engine stops with EXHAUSTED and reads no code (41_lzw_decode.md R182). -/
  | partialCode
deriving DecidableEq, Repr

/-- A command word given as bytes, in the order the aperture stores them (R73). -/
def decodeCommandBytes : List Byte → Except DecodeError Instr
  | [b0, b1, b2, b3] => .ok (decodeCommand (BitVec.ofNat 32 (ofLeBytes [b0, b1, b2, b3])))
  | _ :: _ :: _ :: _ :: _ => .error .longCommand
  | _ => .error .shortCommand

/-- The instruction a code is, by its class (R104). -/
def decodeCode (ctx : DecodeCtx) (c : Code) : Instr :=
  match classify ctx.mcs ctx.next.toNat ctx.prevv c.toNat with
  | .clear => .clear c
  | .endCode => .endCode c
  | .dict => .dict c
  | .kwkwk => .kwkwk c
  | .invalid => .invalid c

/-- The row a transaction is: by shape, by region, by the register offset, and by BUSY (R111, R130). -/
def decodeTxn (ctx : DecodeCtx) : Txn → Instr
  | .rd off size =>
    match Machine.target ctx.params off.toNat size with
    | none => .busIllegal (.rd off size)
    | some .reg => .rd32Reg off
    | some (.buf _) =>
      if ctx.busy then .rdBusy off size
      else if size = 1 then .rd8 off
      else if size = 2 then .rd16 off
      else .rd32 off
  | .wr off size v =>
    match Machine.target ctx.params off.toNat size with
    | none => .busIllegal (.wr off size v)
    | some .reg =>
      if off = Machine.ctrlOff then decodeCommand v
      else if Machine.isConfigOff off.toNat && ctx.busy then .wr32CfgBusy off v
      else .wr32Reg off v
    | some (.buf _) =>
      if ctx.busy then .wrBusy off size v
      else if size = 1 then .wr8 off v
      else if size = 2 then .wr16 off v
      else .wr32 off v

/-- Decoding of whatever an agent takes up. -/
def decode (ctx : DecodeCtx) : Fetched → Except DecodeError Instr
  | .bus t => .ok (decodeTxn ctx t)
  | .stream bytes pos =>
    if pos + ctx.width.toNat > 8 * bytes.length then .error .partialCode
    else .ok (decodeCode ctx (BitVec.ofNat 12 (codeAt (fun k => bytes.getD k 0) pos ctx.width.toNat)))
  | .lzwTurn => .ok .lzwStep
  | .dsTurn => .ok .dsCellStep

/-! ## The encoder -/

/-- A code packed from stream bit 0, the last byte's unused high bits 0 (R101, R115). -/
def packCode (W : Nat) (c : Code) : Fetched :=
  .stream (leBytes ((W + 7) / 8) c.toNat) 0

/-- `WR32 REG.CTRL, <word>`: how a command word reaches the block (R108, R114 `CMD`). -/
def ctrlWrite (w : Word) : Txn := .wr Machine.ctrlOff 4 w

/-- The encoding of an instruction: the words of R109, the code at the current width (R100), the tuple of R111, the turn. -/
def encode (ctx : DecodeCtx) : Instr → Fetched
  | .nop => .bus (ctrlWrite 0x00000000#32)
  | .lzwStart => .bus (ctrlWrite 0x00000001#32)
  | .dsStart => .bus (ctrlWrite 0x00000002#32)
  | .abort => .bus (ctrlWrite 0x00000003#32)
  | .ack => .bus (ctrlWrite 0x00000004#32)
  | .softReset => .bus (ctrlWrite 0x0000000F#32)
  | .illegalCmd w => .bus (ctrlWrite w)
  | .clear c => packCode ctx.width.toNat c
  | .endCode c => packCode ctx.width.toNat c
  | .dict c => packCode ctx.width.toNat c
  | .kwkwk c => packCode ctx.width.toNat c
  | .invalid c => packCode ctx.width.toNat c
  | .rd32Reg off => .bus (.rd off 4)
  | .rd8 off => .bus (.rd off 1)
  | .rd16 off => .bus (.rd off 2)
  | .rd32 off => .bus (.rd off 4)
  | .rdBusy off size => .bus (.rd off size)
  | .wr32Reg off v => .bus (.wr off 4 v)
  | .wr32CfgBusy off v => .bus (.wr off 4 v)
  | .wr8 off v => .bus (.wr off 1 v)
  | .wr16 off v => .bus (.wr off 2 v)
  | .wr32 off v => .bus (.wr off 4 v)
  | .wrBusy off size v => .bus (.wr off size v)
  | .busIllegal t => .bus t
  | .lzwStep => .lzwTurn
  | .dsCellStep => .dsTurn

/-- The code fits the current width and has the class: the state-dependent condition of a code row (R100, R104). -/
def codeApplies (ctx : DecodeCtx) (k : CodeClass) (c : Code) : Bool :=
  decide (c.toNat < 2 ^ ctx.width.toNat) && decide (classify ctx.mcs ctx.next.toNat ctx.prevv c.toNat = k)

/-- The part of a row's condition that depends on the state (spec/opcode_table.json, column "condition"). -/
def Instr.applies (ctx : DecodeCtx) : Instr → Bool
  | .nop => true
  | .lzwStart => true
  | .dsStart => true
  | .abort => true
  | .ack => true
  | .softReset => true
  | .illegalCmd _ => true
  | .clear c => codeApplies ctx .clear c
  | .endCode c => codeApplies ctx .endCode c
  | .dict c => codeApplies ctx .dict c
  | .kwkwk c => codeApplies ctx .kwkwk c
  | .invalid c => codeApplies ctx .invalid c
  | .rd32Reg _ => true
  | .rd8 _ => !ctx.busy
  | .rd16 _ => !ctx.busy
  | .rd32 _ => !ctx.busy
  | .rdBusy _ _ => ctx.busy
  | .wr32Reg off _ => !(Machine.isConfigOff off.toNat && ctx.busy)
  | .wr32CfgBusy _ _ => ctx.busy
  | .wr8 _ _ => !ctx.busy
  | .wr16 _ _ => !ctx.busy
  | .wr32 _ _ => !ctx.busy
  | .wrBusy _ _ _ => ctx.busy
  | .busIllegal _ => true
  | .lzwStep => true
  | .dsCellStep => true

/-! ## The host's question about table words -/

/-- The instruction the decoder reads from a word numbered as spec/opcode_table.json numbers it. Only the rows of format
ctrl_cmd have words, all of 32 bits; a code's class depends on the state (R105), and a transaction is a tuple (R111). -/
def decodeTableWord (nbits w : Nat) : Option Instr :=
  if nbits = 32 then
    match decodeCommandBytes (leBytes 4 w) with
    | .ok i => some i
    | .error _ => none
  else none

end Sys2Proof
end

