-- ==== Sys2Proof/Machine/Memory.lean ====
section
/-! DEFINITION. Sparse memory: a list of (address, value) pairs with strictly rising addresses. What is not listed has not been
written since power-on; Ops.lean says what reading it gives (70_reset_and_hazards.md R282). The dictionary is kept the same way. -/

namespace Sys2Proof.Machine

/-- The value listed at an address, if any. -/
def Memory.get? {α : Type} (a : Nat) : List (Nat × α) → Option α
  | [] => none
  | (k, v) :: m => if k = a then some v else Memory.get? a m

/-- List a value at an address, in its place or instead of what is listed there. -/
def Memory.set {α : Type} (a : Nat) (v : α) : List (Nat × α) → List (Nat × α)
  | [] => [(a, v)]
  | (k, w) :: m =>
    if a < k then (a, v) :: (k, w) :: m
    else if a = k then (a, v) :: m
    else (k, w) :: Memory.set a v m

/-- The canonical form: addresses strictly rising. (An unlisted address reads as no value, so no listed entry can equal it.) -/
abbrev Memory.wf {α : Type} (m : List (Nat × α)) : Prop :=
  (m.map Prod.fst).Pairwise (· < ·)

end Sys2Proof.Machine
end

