-- ==== Sys2Proof/Machine/State.lean ====
section
/-! DEFINITION. The state of LZWQ (10_state.md): the register block, the dictionary, the three buffers, and the model's own fields
that say which agent moves next and what the last read returned. Plain data. -/

namespace Sys2Proof.Machine

/-- Why the machine stops for good. The block has no trap (60_exceptions.md R250): no event the spec describes is one of these. -/
inductive Fault where
  /-- Raised by DICT and KWKWK (Machine/Codes.lean) when the dictionary gives a code no sequence: R52 defines `seq` for members
  only. Safe: the model stops where the spec says nothing. No state a run reaches raises it (R52, R190, derived). Log 6. -/
  | noSequence
deriving DecidableEq, Repr

/-- Why an instruction has no meaning in the model. -/
inductive Refusal where
  /-- Raised by an arm of `exec` whose instruction has no meaning yet; safe. No arm raises it now. -/
  | notModelled (mnemonic : String)
deriving DecidableEq, Repr

/-- STATUS.LZW_STOP (R31, R252). Values 8 to 15 are never written, so they have no constructor. -/
inductive LzwStop where
  | none
  | endCode
  | exhausted
  | countReached
  | invalidCode
  | badMcs
  | badLength
  | aborted
deriving DecidableEq, Repr

/-- STATUS.DS_RESULT (R32, R253). Values 4 to 15 are never written. -/
inductive DsResult where
  | none
  | ok
  | badDims
  | aborted
deriving DecidableEq, Repr

/-- The fields of STATUS (R26). The host cannot write it (R26), so its reserved bits hold nothing; Flags.lean gives its word. -/
structure Status where
  lzwBusy  : Bool
  dsBusy   : Bool
  lzwDone  : Bool
  dsDone   : Bool
  lzwStop  : LzwStop
  dsResult : DsResult
  short    : Bool
  cmderr   : Bool
  accerr   : Bool
  buserr   : Bool
deriving DecidableEq, Repr

/-- The LZW registers (R37 to R45), each field at its own width. -/
structure LzwRegs where
  mcs       : BitVec 8
  inLen     : Word
  expect    : Word
  outCount  : Word
  bitpos    : Word
  width     : BitVec 4
  prevv     : Bool
  next      : BitVec 13
  prev      : Code
  errCode   : Code
  errBitpos : Word
deriving DecidableEq, Repr

/-- The DS registers (R46 to R48). -/
structure DsRegs where
  srcW : BitVec 16
  srcH : BitVec 16
  cell : Word
deriving DecidableEq, Repr

/-- The stored fields of a dictionary entry: PREFIX, SUFFIX, FIRST and LEN (R51). -/
structure DictEntry where
  prefixCode : Code
  suffix     : Byte
  first      : Byte
  len        : BitVec 12
deriving DecidableEq, Repr

/-- The agents that may move between two reads of a POLL: all but the host, which is in its loop (00_scope.md R13, R280). -/
inductive Agent where
  | lzw
  | ds
  | resetInput
  | powerOn
deriving DecidableEq, Repr

/-- The host's loop `POLL <off>, <mask>, <value>` (30_encoding.md R114). `between` is the model's own (log 13): who moves after each
read that does not end the loop, one list for each such read, since neither the order (93 U8) nor the number of reads (93 U9) is
fixed. -/
structure Poll where
  off     : Word
  mask    : Word
  value   : Word
  between : List (List Agent)
deriving DecidableEq, Repr

/-- Which agent moves next (00_scope.md R13, 70_reset_and_hazards.md R280). -/
inductive Turn where
  /-- the host performs one transaction -/
  | host (t : Txn)
  /-- the host performs the next read of a POLL (R114) -/
  | poll (p : Poll)
  /-- the LZW engine takes a step, if it is busy -/
  | lzw
  /-- the DS engine takes a step, if it is busy -/
  | ds
  /-- the platform asserts the reset input and releases it. DESIGN CHOICE (log 12): one step, with no state in which the input is
  held; the spec is silent on host transactions while it is -/
  | resetInput
  /-- the block is powered on anew -/
  | powerOn
deriving DecidableEq, Repr

/-- The machine. -/
structure State where
  /-- the parameters, which CAP0 to CAP2 show (R22 to R24) -/
  params   : Params
  /-- STATUS (R26) -/
  status   : Status
  /-- LZW_MCS to LZW_ERR_BITPOS (R37 to R45) -/
  lzw      : LzwRegs
  /-- DS_SRC_W, DS_SRC_H and DS_CELL (R46 to R48) -/
  ds       : DsRegs
  /-- the dictionary's stored entries by code (R51); what is not listed is unspecified -/
  dict     : List (Nat × DictEntry)
  /-- IN, PIX and OUT (R56) by aperture offset (R71); what is not listed has not been written since power-on -/
  mem      : List Host.Cell
  /-- the model's own: how many power-ons came before; it numbers the free draws of R282 (log 3) -/
  powerOns : Nat
  /-- the model's own: what the last RD returned to the host (R111); none before the first (log 4) -/
  rdata    : Option Word
  /-- the model's own: the order of the agents' steps, which no rule fixes (R13, R81; log 2) -/
  turns    : List Turn
deriving DecidableEq, Repr

/-- STATUS at reset (R26 to R36, R281). -/
def Status.reset : Status :=
  { lzwBusy := false, dsBusy := false, lzwDone := false, dsDone := false, lzwStop := .none,
    dsResult := .none, short := false, cmderr := false, accerr := false, buserr := false }

/-- The LZW registers at reset (R37 to R45, R281). -/
def LzwRegs.reset : LzwRegs :=
  { mcs := 0#8, inLen := 0#32, expect := 0#32, outCount := 0#32, bitpos := 0#32, width := 0#4,
    prevv := false, next := 0#13, prev := 0#12, errCode := 0#12, errBitpos := 0#32 }

/-- The DS registers at reset (R46 to R48, R281). -/
def DsRegs.reset : DsRegs :=
  { srcW := 0#16, srcH := 0#16, cell := 0#32 }

/-- The machine right after power-on, for a block with parameters `p` (R281, R282, R284). -/
def State.resetWith (p : Params) : State :=
  { params := p, status := .reset, lzw := .reset, ds := .reset, dict := [], mem := [],
    powerOns := 0, rdata := none, turns := [] }

/-- The machine right after power-on, for the spec's default parameters (R7; log 1). -/
def State.reset : State := State.resetWith Params.default

end Sys2Proof.Machine
end

