-- ==== Sys2Proof/Machine/Flags.lean ====
section
/-! DEFINITION. STATUS, the block's only flags (10_state.md R57): the codes of its fields (R31, R32), the word a read returns (R26),
and the computation of SHORT (R33). -/

namespace Sys2Proof.Machine

/-- The value of LZW_STOP (R31). -/
def LzwStop.code : LzwStop → BitVec 4
  | .none => 0#4
  | .endCode => 1#4
  | .exhausted => 2#4
  | .countReached => 3#4
  | .invalidCode => 4#4
  | .badMcs => 5#4
  | .badLength => 6#4
  | .aborted => 7#4

/-- The value of DS_RESULT (R32). -/
def DsResult.code : DsResult → BitVec 4
  | .none => 0#4
  | .ok => 1#4
  | .badDims => 2#4
  | .aborted => 3#4

/-- The STATUS word, each field at its bit (R26); its reserved bits read 0 (R50). -/
def Status.word (t : Status) : Word :=
  BitVec.ofNat 32
    (t.lzwBusy.toNat + 2 ^ 1 * t.dsBusy.toNat + 2 ^ 2 * t.lzwDone.toNat + 2 ^ 3 * t.dsDone.toNat +
      2 ^ 4 * t.lzwStop.code.toNat + 2 ^ 8 * t.dsResult.code.toNat + 2 ^ 12 * t.short.toNat +
      2 ^ 16 * t.cmderr.toNat + 2 ^ 17 * t.accerr.toNat + 2 ^ 18 * t.buserr.toNat)

/-- SHORT at a stop (R33, R251): a normal early end with fewer indices than expected. -/
def shortAt (reason : LzwStop) (outCount expect : Word) : Bool :=
  (decide (reason = .endCode) || decide (reason = .exhausted)) && decide (outCount.toNat < expect.toNat)

end Sys2Proof.Machine
end

