-- ==== Sys2Proof/Machine/Operands.lean ====
section
/-! DEFINITION. What the rules compute from their operands before anything is written: buffer bytes and multi-byte reads
(20_memory.md R73), register words (10_state.md R20 to R50), the code at a bit position (41_lzw_decode.md R183), a code's sequence
(10_state.md R52), and the DS engine's sampling and rescale (42_downscale_quantize.md R222 to R225). -/

namespace Sys2Proof.Machine

/-! ## Bytes -/

/-- The byte at an aperture offset of a buffer: what was last written there since power-on, else the free draw of R282. -/
def State.byteAt (s : State) (a : Nat) : Byte :=
  match Memory.get? a s.mem with
  | some b => b
  | none => Config.powerOnByte s.powerOns a

/-- `B[k]` (R11). -/
def State.bufByte (s : State) (b : Buf) (k : Nat) : Byte :=
  s.byteAt (b.base + k)

/-- `MemRead`: `n` bytes from an aperture offset, the first in bits 7:0 (R11, R73). -/
def State.memRead (s : State) (a : Nat) : Nat → Nat
  | 0 => 0
  | n + 1 => (s.byteAt a).toNat + 256 * State.memRead s (a + 1) n

/-- Either engine is busy (R130). -/
def State.busy (s : State) : Bool :=
  s.status.lzwBusy || s.status.dsBusy

/-- What decoding reads of the state. -/
def State.ctx (s : State) : DecodeCtx :=
  { params := s.params, busy := s.busy, mcs := s.lzw.mcs, width := s.lzw.width, next := s.lzw.next,
    prevv := s.lzw.prevv }

/-! ## Register words -/

/-- CAP0 (R22): TGT_W, TGT_H, MAXB and MAX_WIDTH, bits 31:28 zero. -/
def cap0Word (p : Params) : Word :=
  BitVec.ofNat 32 (p.tgtW + 2 ^ 8 * p.tgtH + 2 ^ 16 * p.maxb + 2 ^ 24 * maxWidth)

/-- LZW_CODESTATE (R42): WIDTH in 3:0, PREVV in 4, NEXT in 28:16. -/
def LzwRegs.codeState (r : LzwRegs) : Word :=
  BitVec.ofNat 32 (r.width.toNat + 2 ^ 4 * r.prevv.toNat + 2 ^ 16 * r.next.toNat)

/-- The value of the register at an offset of REG (R20, R131): reserved bits 0 (R50), holes 0 (R49), CTRL 0 (R25). -/
def State.regRead (s : State) (off : Nat) : Word :=
  match off with
  | 0x00 => idWord
  | 0x04 => cap0Word s.params
  | 0x08 => BitVec.ofNat 32 s.params.inBytes
  | 0x0C => BitVec.ofNat 32 s.params.pixBytes
  | 0x14 => s.status.word
  | 0x20 => s.lzw.mcs.setWidth 32
  | 0x24 => s.lzw.inLen
  | 0x28 => s.lzw.expect
  | 0x2C => s.lzw.outCount
  | 0x30 => s.lzw.bitpos
  | 0x34 => s.lzw.codeState
  | 0x38 => s.lzw.prev.setWidth 32
  | 0x3C => s.lzw.errCode.setWidth 32
  | 0x40 => s.lzw.errBitpos
  | 0x50 => s.ds.srcW.setWidth 32
  | 0x54 => s.ds.srcH.setWidth 32
  | 0x58 => s.ds.cell
  | _ => 0#32

/-! ## Code words and the dictionary -/

/-- The code the engine fetches: `read_code(LZW_BITPOS, WIDTH)` from IN (R101, R183). -/
def State.fetchCode (s : State) : Code :=
  BitVec.ofNat 12 (codeAt (s.bufByte .inp) s.lzw.bitpos.toNat s.lzw.width.toNat)

/-- The class of a code in this state (R104). -/
def State.classOf (s : State) (c : Code) : CodeClass :=
  classify s.lzw.mcs s.lzw.next.toNat s.lzw.prevv c.toNat

/-- `seq(c)` (R52), following at most as many prefixes as are given; none where the chain leaves the dictionary. -/
def seqFrom (mcs : BitVec 8) (next : Nat) (dict : List (Nat × DictEntry)) : Nat → Nat → Option (List Byte)
  | 0, _ => none
  | fuel + 1, c =>
    if c < clearCode mcs then some [BitVec.ofNat 8 c]
    else if clearCode mcs + 2 ≤ c ∧ c < next then
      match Memory.get? c dict with
      | some e =>
        match seqFrom mcs next dict fuel e.prefixCode.toNat with
        | some q => some (q ++ [e.suffix])
        | none => none
      | none => none
    else none

/-- `seq(c)` (R52). Prefixes fall strictly, so DICT_CODES of them are always enough. -/
def State.seq (s : State) (c : Code) : Option (List Byte) :=
  seqFrom s.lzw.mcs s.lzw.next.toNat s.dict dictCodes c.toNat

/-- `first(c)` (R52): c itself if seeded, else the stored FIRST. -/
def State.firstOf (s : State) (c : Code) : Option Byte :=
  if c.toNat < clearCode s.lzw.mcs then some (BitVec.ofNat 8 c.toNat)
  else match Memory.get? c.toNat s.dict with
    | some e => some e.first
    | none => none

/-- `len(c)` (R52): 1 if seeded, else the stored LEN. -/
def State.lenOf (s : State) (c : Code) : Option Nat :=
  if c.toNat < clearCode s.lzw.mcs then some 1
  else match Memory.get? c.toNat s.dict with
    | some e => some e.len.toNat
    | none => none

/-! ## Sampling and rescale -/

/-- The sampled index of R222 and R223: `min(((2t + 1) S) // (2T), S - 1)`. -/
def sample (S T t : Nat) : Nat :=
  min (((2 * t + 1) * S) / (2 * T)) (S - 1)

/-- `q(g) = min(MAXB, (2 g MAXB + 255) // 510)` (R225). -/
def quantize (maxb g : Nat) : Nat :=
  min maxb ((2 * g * maxb + 255) / 510)

/-- The PIX offset cell k samples: `sy(ty) * SW + sx(tx)` with `tx = k % TGT_W`, `ty = k // TGT_W` (R222, R223, R226). -/
def State.cellSource (s : State) (k : Nat) : Nat :=
  sample s.ds.srcH.toNat s.params.tgtH (k / s.params.tgtW) * s.ds.srcW.toNat +
    sample s.ds.srcW.toNat s.params.tgtW (k % s.params.tgtW)

/-- The brightness of cell k: `q(PIX[sy(ty) * SW + sx(tx)])` (R226, R228). -/
def State.cellValue (s : State) (k : Nat) : Byte :=
  BitVec.ofNat 8 (quantize s.params.maxb (s.bufByte .pix (s.cellSource k)).toNat)

end Sys2Proof.Machine
end

