-- ==== Sys2Proof/Machine/Ops.lean ====
section
/-! DEFINITION. The operations the instructions share: error flags and read replies (40_host_interface.md R130), stores to buffers
(20_memory.md R73), configuration writes (R134), the stop primitives, which play the role of taking an exception
(60_exceptions.md R251; there is no return, R260), resets (70_reset_and_hazards.md R280 to R286), and the LZW engine's init_dict,
emit, add_entry and grow (41_lzw_decode.md R171, R189 to R193). -/

namespace Sys2Proof.Machine

/-! ## Flags and replies -/

/-- The value a RD returns to the host (R111, R112). -/
def State.reply (v : Word) (s : State) : State := { s with rdata := some v }

/-- `STATUS.CMDERR <- 1` (R34). -/
def State.setCmderr (s : State) : State := { s with status := { s.status with cmderr := true } }

/-- `STATUS.ACCERR <- 1` (R35). -/
def State.setAccerr (s : State) : State := { s with status := { s.status with accerr := true } }

/-- `STATUS.BUSERR <- 1` (R36). -/
def State.setBuserr (s : State) : State := { s with status := { s.status with buserr := true } }

/-! ## Buffer stores -/

/-- Store one byte at an aperture offset. -/
def State.setByte (a : Nat) (b : Byte) (s : State) : State := { s with mem := Memory.set a b s.mem }

/-- `MemWrite`: the low `n` bytes of a value from an aperture offset up, bits 7:0 first (R11, R73). -/
def State.memWrite : Nat → Nat → Nat → State → State
  | _, 0, _, s => s
  | a, n + 1, v, s => State.memWrite (a + 1) n (v / 256) (s.setByte a (BitVec.ofNat 8 v))

/-! ## Configuration registers -/

/-- A configuration register takes the written word's field, reserved bits dropped (R37 to R39, R46, R47, R50, R134). -/
def State.configWrite (off : Nat) (v : Word) (s : State) : State :=
  match off with
  | 0x20 => { s with lzw := { s.lzw with mcs := v.setWidth 8 } }
  | 0x24 => { s with lzw := { s.lzw with inLen := v } }
  | 0x28 => { s with lzw := { s.lzw with expect := v } }
  | 0x50 => { s with ds := { s.ds with srcW := v.setWidth 16 } }
  | 0x54 => { s with ds := { s.ds with srcH := v.setWidth 16 } }
  | _ => s

/-! ## Stops -/

/-- `stop LZW(reason)` (R251): BUSY 0, DONE 1, the reason, SHORT. Nothing else changes. -/
def State.stopLzw (reason : LzwStop) (s : State) : State :=
  { s with status := { s.status with
      lzwBusy := false, lzwDone := true, lzwStop := reason,
      short := shortAt reason s.lzw.outCount s.lzw.expect } }

/-- `stop DS(result)` (R251). -/
def State.stopDs (result : DsResult) (s : State) : State :=
  { s with status := { s.status with dsBusy := false, dsDone := true, dsResult := result } }

/-! ## Resets -/

/-- `reset_registers()` (R280): every register takes its reset value (R281), the constants ID and CAP0 to CAP2 among them; the
dictionary's stored fields become unspecified (R284); the buffers keep their bytes (R283). -/
def State.resetRegisters (s : State) : State :=
  { s with status := .reset, lzw := .reset, ds := .reset, dict := [] }

/-- The platform's reset input (R280 (b)), asserted and released in one step: DESIGN CHOICE, log 12. -/
def State.resetInput (s : State) : State := s.resetRegisters

/-- Power-on (R280 (a)): the registers reset, and every buffer byte a new free draw (R282). -/
def State.powerOn (s : State) : State :=
  { s.resetRegisters with mem := [], powerOns := s.powerOns + 1 }

/-! ## The LZW engine's operations -/

/-- `init_dict()` (R171): WIDTH, NEXT and PREVV; the entries are forgotten without being erased. -/
def State.initDict (s : State) : State :=
  { s with lzw := { s.lzw with
      width := BitVec.ofNat 4 (s.lzw.mcs.toNat + 1),
      next := BitVec.ofNat 13 (clearCode s.lzw.mcs + 2),
      prevv := false } }

/-- `REG.LZW_BITPOS <- P + W` (R180, R183). -/
def State.advance (s : State) : State :=
  { s with lzw := { s.lzw with bitpos := BitVec.ofNat 32 (s.lzw.bitpos.toNat + s.lzw.width.toNat) } }

/-- One index of `emit`: stored at PIX offset OUT_COUNT, and counted, while OUT_COUNT < EXPECT; else dropped (R189). -/
def State.emitByte (b : Byte) (s : State) : State :=
  if s.lzw.outCount.toNat < s.lzw.expect.toNat then
    let t := s.setByte (Buf.pix.base + s.lzw.outCount.toNat) b
    { t with lzw := { t.lzw with outCount := BitVec.ofNat 32 (t.lzw.outCount.toNat + 1) } }
  else s

/-- `emit(s)` (R189). -/
def State.emit : List Byte → State → State
  | [], s => s
  | b :: bs, s => State.emit bs (s.emitByte b)

/-- `grow()` (R192). -/
def State.grow (s : State) : State :=
  if s.lzw.next.toNat ≥ cap s.lzw.width.toNat ∧ s.lzw.width.toNat < maxWidth then
    { s with lzw := { s.lzw with width := BitVec.ofNat 4 (s.lzw.width.toNat + 1) } }
  else s

/-- The entry `add_entry` stores at NEXT, then `NEXT <- NEXT + 1` (R190). -/
def State.storeEntry (e : DictEntry) (s : State) : State :=
  { s with dict := Memory.set s.lzw.next.toNat e s.dict,
           lzw := { s.lzw with next := BitVec.ofNat 13 (s.lzw.next.toNat + 1) } }

/-- `add_entry(p, x)` (R190): nothing with a full dictionary (R191). None where p has no first index or length, that is, where p
is no member of the dictionary. -/
def State.addEntry (p : Code) (x : Byte) (s : State) : Option State :=
  if s.lzw.next.toNat < dictCodes then
    match s.firstOf p, s.lenOf p with
    | some f, some l =>
      some (s.storeEntry { prefixCode := p, suffix := x, first := f, len := BitVec.ofNat 12 (l + 1) }).grow
    | _, _ => none
  else some s

/-- `REG.LZW_PREV <- c; REG.LZW_CODESTATE.PREVV <- 1` (R193). -/
def State.setPrev (c : Code) (s : State) : State :=
  { s with lzw := { s.lzw with prev := c, prevv := true } }

/-- What DICT and KWKWK share (R180): emit the sequence, add an entry if a previous sequence existed, update the previous code. -/
def State.takeSequence (c : Code) (q : List Byte) (s : State) : Host.Outcome State Fault Refusal :=
  match q with
  | [] => .fault .noSequence
  | x :: _ =>
    if s.lzw.prevv then
      match (s.emit q).addEntry s.lzw.prev x with
      | some t => .next (t.setPrev c)
      | none => .fault .noSequence
    else .next ((s.emit q).setPrev c)

end Sys2Proof.Machine
end

