-- ==== Sys2Proof/Machine/Commands.lean ====
section
/-! DEFINITION. The commands, rows of format ctrl_cmd (40_host_interface.md R140 to R146). -/

namespace Sys2Proof.Machine

/-- R140: nothing. -/
def execNop (s : State) : Host.Outcome State Fault Refusal :=
  .next s

/-- R141, before the checks: the LZW result fields and progress registers are cleared. -/
def State.clearLzwRun (s : State) : State :=
  { s with
    status := { s.status with lzwDone := false, lzwStop := .none, short := false },
    lzw := { s.lzw with
      outCount := 0#32, bitpos := 0#32, width := 0#4, prevv := false, next := 0#13,
      prev := 0#12, errCode := 0#12, errBitpos := 0#32 } }

/-- R141: LZW_START, its checks in the order of R256. -/
def execLzwStart (s : State) : Host.Outcome State Fault Refusal :=
  if s.busy then .next s.setCmderr
  else
    let t := s.clearLzwRun
    if t.lzw.mcs.toNat < mcsMin ∨ t.lzw.mcs.toNat > mcsMax then .next (t.stopLzw .badMcs)
    else if t.lzw.inLen.toNat > t.params.inBytes ∨ t.lzw.expect.toNat > t.params.pixBytes then
      .next (t.stopLzw .badLength)
    else
      let u := t.initDict
      .next { u with status := { u.status with lzwBusy := true } }

/-- R142, before the check: the DS result fields and DS_CELL are cleared. -/
def State.clearDsRun (s : State) : State :=
  { s with status := { s.status with dsDone := false, dsResult := .none }, ds := { s.ds with cell := 0#32 } }

/-- R142: DS_START; SW * SH is computed exactly. -/
def execDsStart (s : State) : Host.Outcome State Fault Refusal :=
  if s.busy then .next s.setCmderr
  else
    let t := s.clearDsRun
    if t.ds.srcW.toNat = 0 ∨ t.ds.srcH.toNat = 0 ∨ t.ds.srcW.toNat * t.ds.srcH.toNat > t.params.pixBytes then
      .next (t.stopDs .badDims)
    else .next { t with status := { t.status with dsBusy := true } }

/-- R143: ABORT stops whichever engine is busy; with none busy it does nothing. -/
def execAbort (s : State) : Host.Outcome State Fault Refusal :=
  let t := if s.status.lzwBusy then s.stopLzw .aborted else s
  .next (if t.status.dsBusy then t.stopDs .aborted else t)

/-- R144: ACK clears the eight sticky fields. -/
def execAck (s : State) : Host.Outcome State Fault Refusal :=
  .next { s with status := { s.status with
    lzwDone := false, dsDone := false, lzwStop := .none, dsResult := .none, short := false,
    cmderr := false, accerr := false, buserr := false } }

/-- R145: SOFT_RESET performs `reset_registers()`. -/
def execSoftReset (s : State) : Host.Outcome State Fault Refusal :=
  .next s.resetRegisters

/-- R146: an illegal word sets CMDERR and does nothing else. -/
def execIllegalCmd (_w : Word) (s : State) : Host.Outcome State Fault Refusal :=
  .next s.setCmderr

/-- `command(v)` (R134): the command a CTRL word encodes (R109, R110). -/
def command (v : Word) (s : State) : Host.Outcome State Fault Refusal :=
  match classifyCommand v with
  | .nop => execNop s
  | .lzwStart => execLzwStart s
  | .dsStart => execDsStart s
  | .abort => execAbort s
  | .ack => execAck s
  | .softReset => execSoftReset s
  | .illegal => execIllegalCmd v s

end Sys2Proof.Machine
end

