-- ==== Sys2Proof/Machine/Bus.lean ====
section
/-! DEFINITION. The bus transactions, rows of format bus (40_host_interface.md R130 to R138). The rows of one tuple (RD32 and RD_BUSY,
say) differ in the state they meet, not in the tuple: every meaning is the procedure of R130 on its own tuple, so it is right in
every state, whichever row's condition holds there. -/

namespace Sys2Proof.Machine

/-- R134 and R135: `reg_write(off, v)`. -/
def regWrite (off v : Word) (s : State) : Host.Outcome State Fault Refusal :=
  if off = ctrlOff then command v s
  else if isConfigOff off.toNat then
    if s.busy then .next s.setAccerr else .next (s.configWrite off.toNat v)
  else .next s

/-- R130 for a RD: BUSERR and 0 (R138), the register (R131), ACCERR and 0 (R133), or the bytes zero-extended (R112, R132). -/
def hostRead (off : Word) (size : Nat) (s : State) : Host.Outcome State Fault Refusal :=
  match target s.params off.toNat size with
  | none => .next (s.setBuserr.reply 0#32)
  | some .reg => .next (s.reply (s.regRead off.toNat))
  | some (.buf _) =>
    if s.busy then .next (s.setAccerr.reply 0#32)
    else .next (s.reply (BitVec.ofNat 32 (s.memRead off.toNat size)))

/-- R130 for a WR: BUSERR (R138), `reg_write` (R134), ACCERR (R137), or the low `8 * size` bits stored (R112, R136). -/
def hostWrite (off : Word) (size : Nat) (v : Word) (s : State) : Host.Outcome State Fault Refusal :=
  match target s.params off.toNat size with
  | none => .next s.setBuserr
  | some .reg => regWrite off v s
  | some (.buf _) =>
    if s.busy then .next s.setAccerr
    else .next (s.memWrite off.toNat size v.toNat)

/-- R131: `(RD, off, 4, -)`, off in REG. -/
def execRd32Reg (off : Word) (s : State) : Host.Outcome State Fault Refusal := hostRead off 4 s

/-- R132: `(RD, off, 1, -)`, off in a buffer. -/
def execRd8 (off : Word) (s : State) : Host.Outcome State Fault Refusal := hostRead off 1 s

/-- R132: `(RD, off, 2, -)`, off in a buffer. -/
def execRd16 (off : Word) (s : State) : Host.Outcome State Fault Refusal := hostRead off 2 s

/-- R132: `(RD, off, 4, -)`, off in a buffer. -/
def execRd32 (off : Word) (s : State) : Host.Outcome State Fault Refusal := hostRead off 4 s

/-- R133: `(RD, off, size, -)`, off in a buffer, while an engine is busy. -/
def execRdBusy (off : Word) (size : Nat) (s : State) : Host.Outcome State Fault Refusal := hostRead off size s

/-- R134: `(WR, off, 4, v)`, off in REG. -/
def execWr32Reg (off v : Word) (s : State) : Host.Outcome State Fault Refusal := hostWrite off 4 v s

/-- R135: `(WR, off, 4, v)`, off a configuration register, while an engine is busy. -/
def execWr32CfgBusy (off v : Word) (s : State) : Host.Outcome State Fault Refusal := hostWrite off 4 v s

/-- R136: `(WR, off, 1, v)`, off in a buffer. -/
def execWr8 (off v : Word) (s : State) : Host.Outcome State Fault Refusal := hostWrite off 1 v s

/-- R136: `(WR, off, 2, v)`, off in a buffer. -/
def execWr16 (off v : Word) (s : State) : Host.Outcome State Fault Refusal := hostWrite off 2 v s

/-- R136: `(WR, off, 4, v)`, off in a buffer. -/
def execWr32 (off v : Word) (s : State) : Host.Outcome State Fault Refusal := hostWrite off 4 v s

/-- R137: `(WR, off, size, v)`, off in a buffer, while an engine is busy. -/
def execWrBusy (off : Word) (size : Nat) (v : Word) (s : State) : Host.Outcome State Fault Refusal :=
  hostWrite off size v s

/-- R138: a transaction of bad shape. -/
def execBusIllegal (t : Txn) (s : State) : Host.Outcome State Fault Refusal :=
  match t with
  | .rd off size => hostRead off size s
  | .wr off size v => hostWrite off size v s

end Sys2Proof.Machine
end

