-- ==== Sys2Proof/Machine/Codes.lean ====
section
/-! DEFINITION. The code classes, rows of format lzw_code (41_lzw_decode.md R184 to R188): what the LZW engine does with a code it
has just read at LZW_BITPOS. The class is the decoder's (R104); each meaning starts by moving LZW_BITPOS past the code (R183). -/

namespace Sys2Proof.Machine

/-- R184: CLEAR reseeds the dictionary. -/
def execClear (_c : Code) (s : State) : Host.Outcome State Fault Refusal :=
  .next s.advance.initDict

/-- R185: END stops the run. -/
def execEndCode (_c : Code) (s : State) : Host.Outcome State Fault Refusal :=
  .next (s.advance.stopLzw .endCode)

/-- R186: DICT emits `seq(c)`. -/
def execDict (c : Code) (s : State) : Host.Outcome State Fault Refusal :=
  match s.seq c with
  | some q => s.advance.takeSequence c q
  | none => .fault .noSequence

/-- R187: KWKWK emits `seq(PREV) ++ [first(PREV)]`. -/
def execKwkwk (c : Code) (s : State) : Host.Outcome State Fault Refusal :=
  match s.seq s.lzw.prev, s.firstOf s.lzw.prev with
  | some q, some f => s.advance.takeSequence c (q ++ [f])
  | _, _ => .fault .noSequence

/-- R188: INVALID records the code and where it began, and stops the run. -/
def execInvalid (c : Code) (s : State) : Host.Outcome State Fault Refusal :=
  let t := s.advance
  .next ({ t with lzw := { t.lzw with errCode := c, errBitpos := s.lzw.bitpos } }.stopLzw .invalidCode)

/-- The case of R180: a code that has been read is taken by its class. -/
def runCode (c : Code) (s : State) : Host.Outcome State Fault Refusal :=
  match s.classOf c with
  | .clear => execClear c s
  | .endCode => execEndCode c s
  | .dict => execDict c s
  | .kwkwk => execKwkwk c s
  | .invalid => execInvalid c s

end Sys2Proof.Machine
end

