-- ==== Sys2Proof/Machine/Engines.lean ====
section
/-! DEFINITION. The engine steps, rows of format engine_step (41_lzw_decode.md R180, 42_downscale_quantize.md R226). A step is enabled
exactly when its engine is busy; an idle engine takes no step and everything keeps its value (60_exceptions.md R268). -/

namespace Sys2Proof.Machine

/-- R180: one LZW step, its tests in the order of R257: the count (R181), exhaustion (R182), the code's class (R183 to R188). -/
def execLzwStep (s : State) : Host.Outcome State Fault Refusal :=
  if s.status.lzwBusy then
    if s.lzw.outCount.toNat ≥ s.lzw.expect.toNat then .next (s.stopLzw .countReached)
    else if s.lzw.bitpos.toNat + s.lzw.width.toNat > 8 * s.lzw.inLen.toNat then .next (s.stopLzw .exhausted)
    else runCode s.fetchCode s
  else .next s

/-- R226: one DS step: OUT[k] and DS_CELL; after the last cell, `stop DS(OK)` (R228). -/
def execDsCellStep (s : State) : Host.Outcome State Fault Refusal :=
  if s.status.dsBusy then
    let k := s.ds.cell.toNat
    let t := s.setByte (Buf.out.base + k) (s.cellValue k)
    let u := { t with ds := { t.ds with cell := BitVec.ofNat 32 (k + 1) } }
    .next (if k + 1 = s.params.tgtW * s.params.tgtH then u.stopDs .ok else u)
  else .next s

end Sys2Proof.Machine
end

