-- ==== Sys2Proof/Machine/Dispatch.lean ====
section
/-! DEFINITION. One arm per instruction: its meaning, by one direct call. -/

namespace Sys2Proof.Machine

def exec (i : Instr) (s : State) : Host.Outcome State Fault Refusal :=
  match i with
  -- ctrl_cmd
  | .nop => Sys2Proof.Machine.execNop s
  | .lzwStart => Sys2Proof.Machine.execLzwStart s
  | .dsStart => Sys2Proof.Machine.execDsStart s
  | .abort => Sys2Proof.Machine.execAbort s
  | .ack => Sys2Proof.Machine.execAck s
  | .softReset => Sys2Proof.Machine.execSoftReset s
  | .illegalCmd w => Sys2Proof.Machine.execIllegalCmd w s
  -- lzw_code
  | .clear c => Sys2Proof.Machine.execClear c s
  | .endCode c => Sys2Proof.Machine.execEndCode c s
  | .dict c => Sys2Proof.Machine.execDict c s
  | .kwkwk c => Sys2Proof.Machine.execKwkwk c s
  | .invalid c => Sys2Proof.Machine.execInvalid c s
  -- bus
  | .rd32Reg off => Sys2Proof.Machine.execRd32Reg off s
  | .rd8 off => Sys2Proof.Machine.execRd8 off s
  | .rd16 off => Sys2Proof.Machine.execRd16 off s
  | .rd32 off => Sys2Proof.Machine.execRd32 off s
  | .rdBusy off size => Sys2Proof.Machine.execRdBusy off size s
  | .wr32Reg off wdata => Sys2Proof.Machine.execWr32Reg off wdata s
  | .wr32CfgBusy off wdata => Sys2Proof.Machine.execWr32CfgBusy off wdata s
  | .wr8 off wdata => Sys2Proof.Machine.execWr8 off wdata s
  | .wr16 off wdata => Sys2Proof.Machine.execWr16 off wdata s
  | .wr32 off wdata => Sys2Proof.Machine.execWr32 off wdata s
  | .wrBusy off size wdata => Sys2Proof.Machine.execWrBusy off size wdata s
  | .busIllegal t => Sys2Proof.Machine.execBusIllegal t s
  -- engine_step
  | .lzwStep => Sys2Proof.Machine.execLzwStep s
  | .dsCellStep => Sys2Proof.Machine.execDsCellStep s

end Sys2Proof.Machine
end

