-- ==== Sys2Proof/Machine/Schedule.lean ====
section
/-! DEFINITION. Who moves next (00_scope.md R13, 20_memory.md R81, 70_reset_and_hazards.md R297): the next turn and the instruction it
decodes to, and the host's pseudo-instructions (30_encoding.md R114). -/

namespace Sys2Proof.Machine

/-- What the next step is. -/
inductive Event where
  | run (i : Instr)
  /-- the next read of the host's loop -/
  | poll (p : Poll)
  | resetInput
  | powerOn
  /-- no turn is left and no engine is busy: the block waits for host transactions (R281) -/
  | wait
deriving DecidableEq, Repr

/-- What a turn is in a state: the host's transaction decoded (R130), a POLL's next read, an engine's step, or a reset. -/
def eventOf (s : State) : Turn → Event
  | .host t => .run (decodeTxn s.ctx t)
  | .poll p => .poll p
  | .lzw => .run .lzwStep
  | .ds => .run .dsCellStep
  | .resetInput => .resetInput
  | .powerOn => .powerOn

/-- With no turn left the busy engine goes on, so a busy engine always takes its next step in the end (R297). -/
def idleEvent (s : State) : Event :=
  if s.status.lzwBusy then .run .lzwStep
  else if s.status.dsBusy then .run .dsCellStep
  else .wait

/-- The next event, and the state in which its turn is used up. -/
def nextEvent (s : State) : Event × State :=
  match s.turns with
  | [] => (idleEvent s, s)
  | t :: ts => (eventOf s t, { s with turns := ts })

/-- A CTRL word laid out as the 32-bit little-endian aperture carries it, as the host's next transaction. -/
def State.withCommand (w : Nat) (s : State) : State :=
  { s with turns := .host (ctrlWrite (BitVec.ofNat 32 w)) :: s.turns }

/-! ## Host pseudo-instructions -/

/-- `CMD <mnemonic>` (R114). -/
def cmdTxns (w : Word) : List Txn := [ctrlWrite w]

/-- `FILL <region>+<k>, b0, b1, ...` (R114). -/
def fillTxns (b : Buf) : Nat → List Byte → List Txn
  | _, [] => []
  | k, x :: xs => .wr (BitVec.ofNat 32 (b.base + k)) 1 (x.setWidth 32) :: fillTxns b (k + 1) xs

/-- `DUMP <region>+<k>, <n>` (R114). -/
def dumpTxns (b : Buf) : Nat → Nat → List Txn
  | _, 0 => []
  | k, n + 1 => .rd (BitVec.ofNat 32 (b.base + k)) 1 :: dumpTxns b (k + 1) n

/-- What `POLL <off>, <mask>, <value>` repeats: `RD32 <off>` (R114). -/
def pollTxn (off : Word) : Txn := .rd off 4

/-- Whether a POLL ends on a value read: `(rdata & mask) == value` (R114). -/
def pollDone (mask value rdata : Word) : Bool := rdata &&& mask == value

/-- The turn an agent takes. -/
def Agent.turn : Agent → Turn
  | .lzw => .lzw
  | .ds => .ds
  | .resetInput => .resetInput
  | .powerOn => .powerOn

/-- A read did not end the loop: the other agents' turns of this round, then the next read, before whatever else the host does.
With no round left in `between` a busy engine takes one step, so the loop starves no engine (R297); with no engine busy the host
reads again (log 13). -/
def State.repeatPoll (p : Poll) (s : State) : State :=
  { s with turns :=
      match p.between with
      | agents :: more => agents.map Agent.turn ++ .poll { p with between := more } :: s.turns
      | [] =>
        if s.status.lzwBusy then .lzw :: .poll p :: s.turns
        else if s.status.dsBusy then .ds :: .poll p :: s.turns
        else .poll p :: s.turns }

/-- `repeat RD32 <off> until (rdata & mask) == value` (R114), after one read: the loop ends on the value read, or goes on. -/
def pollOn (p : Poll) : Host.Outcome State Fault Refusal → Host.Outcome State Fault Refusal
  | .next t => if t.rdata.any (pollDone p.mask p.value) then .next t else .next (t.repeatPoll p)
  | .fault f => .fault f
  | .refused r => .refused r

/-- `WAITIDLE`: `POLL REG.STATUS, 0x3, 0x0` (R114). -/
def waitIdle (between : List (List Agent)) : Poll :=
  { off := 0x14#32, mask := 0x3#32, value := 0x0#32, between := between }

/-- `WAITIDLE` ends on a value read of STATUS (R114). -/
def waitIdleDone (rdata : Word) : Bool := pollDone (waitIdle []).mask (waitIdle []).value rdata

/-- The pseudo-instructions of R114; the two loops come with who moves between their reads (log 13). -/
inductive Pseudo where
  | cmd (w : Word)
  | poll (off mask value : Word) (between : List (List Agent))
  | waitIdle (between : List (List Agent))
  | fill (b : Buf) (k : Nat) (xs : List Byte)
  | dump (b : Buf) (k n : Nat)
deriving DecidableEq, Repr

/-- The host turns a pseudo-instruction stands for (R114). -/
def Pseudo.turns : Pseudo → List Turn
  | .cmd w => (cmdTxns w).map .host
  | .poll off mask value between => [.poll { off := off, mask := mask, value := value, between := between }]
  | .waitIdle between => [.poll (Machine.waitIdle between)]
  | .fill b k xs => (fillTxns b k xs).map .host
  | .dump b k n => (dumpTxns b k n).map .host

end Sys2Proof.Machine
end

