-- ==== Sys2Proof/Machine/Step.lean ====
section
/-! DEFINITION. One step of the machine: one atomic step of one agent (20_memory.md R78, R81). -/

namespace Sys2Proof.Machine

/-- The next event takes place. -/
def step (s : State) : Host.Outcome State Fault Refusal :=
  match nextEvent s with
  | (.run i, t) => exec i t
  | (.poll p, t) => pollOn p (exec (decodeTxn t.ctx (pollTxn p.off)) t)
  | (.resetInput, t) => .next t.resetInput
  | (.powerOn, t) => .next t.powerOn
  | (.wait, t) => .next t

/-- `s` with the instruction whose bits are `w` as what the next step takes up: a command word reaches the block by a write to
CTRL, so that write is the host's next transaction. Only 32-bit words are instructions by themselves (log 8). -/
def State.withFetchWord (s : State) (nbits w : Nat) : State :=
  s.withCommand (w % 2 ^ nbits)

end Sys2Proof.Machine
end

