-- ==== Sys2Proof/Safety.lean ====
section
/-! DEFINITION. What holds in every state a run reaches: the derived facts the spec states beside its rules, as one invariant.
They rule out states no run reaches (an LZW engine busy with a dictionary chain that does not end, say). -/

namespace Sys2Proof.Machine

/-- The offset lies in one of the three buffers (20_memory.md R71). -/
def inBuffer (p : Params) (off : Nat) : Bool :=
  Buf.out.holds p off || Buf.inp.holds p off || Buf.pix.holds p off

/-- An added entry is well founded and its stored FIRST and LEN are those of its sequence (R52, R53, R190): the prefix is an
earlier member, FIRST is the prefix's first index, LEN is the prefix's length and one more, and LEN is at most `c - CLEAR`. -/
def State.entryOk (s : State) (c : Nat) : Bool :=
  match Memory.get? c s.dict with
  | none => false
  | some e =>
    decide (e.prefixCode.toNat < c) && decide (inDict s.lzw.mcs c e.prefixCode.toNat) &&
    decide (s.firstOf e.prefixCode = some e.first) &&
    decide (s.lenOf e.prefixCode = some (e.len.toNat - 1)) && decide (2 ≤ e.len.toNat) &&
    decide (e.len.toNat ≤ c - clearCode s.lzw.mcs)

/-- What holds while the LZW engine is busy. -/
structure State.LzwRun (s : State) : Prop where
  /-- LZW_START accepted MCS (R141), and nothing changed it since (R37) -/
  mcs_range : mcsMin ≤ s.lzw.mcs.toNat ∧ s.lzw.mcs.toNat ≤ mcsMax
  /-- R141 -/
  inLen_le : s.lzw.inLen.toNat ≤ s.params.inBytes
  /-- R141 -/
  expect_le : s.lzw.expect.toNat ≤ s.params.pixBytes
  /-- R40, R189 -/
  outCount_le : s.lzw.outCount.toNat ≤ s.lzw.expect.toNat
  /-- R41, R182 -/
  bitpos_le : s.lzw.bitpos.toNat ≤ 8 * s.lzw.inLen.toNat
  /-- R42, R100 -/
  width_range : s.lzw.mcs.toNat + 1 ≤ s.lzw.width.toNat ∧ s.lzw.width.toNat ≤ maxWidth
  /-- R42 -/
  next_range : clearCode s.lzw.mcs + 2 ≤ s.lzw.next.toNat ∧ s.lzw.next.toNat ≤ dictCodes
  /-- R192: `NEXT <= cap(WIDTH)`, with equality only at WIDTH = 12, NEXT = 4096 -/
  next_cap : s.lzw.next.toNat < cap s.lzw.width.toNat ∨
    (s.lzw.next.toNat = dictCodes ∧ s.lzw.width.toNat = maxWidth)
  /-- the previous code is a member (R43, R190) -/
  prev_mem : s.lzw.prevv = true → inDict s.lzw.mcs s.lzw.next.toNat s.lzw.prev.toNat
  /-- R52, R190 -/
  entries : ∀ c < s.lzw.next.toNat, clearCode s.lzw.mcs + 2 ≤ c → s.entryOk c = true

/-- What holds while the DS engine is busy (R142, R226). -/
structure State.DsRun (s : State) : Prop where
  srcW_pos : 1 ≤ s.ds.srcW.toNat
  srcH_pos : 1 ≤ s.ds.srcH.toNat
  src_le : s.ds.srcW.toNat * s.ds.srcH.toNat ≤ s.params.pixBytes
  cell_lt : s.ds.cell.toNat < s.params.tgtW * s.params.tgtH

/-- The invariant of the machine. -/
structure State.Inv (s : State) : Prop where
  /-- R7 -/
  params_legal : s.params.Legal
  /-- the memory keeps its canonical form -/
  mem_wf : Memory.wf s.mem
  /-- only buffer bytes are ever stored to (R71, R72) -/
  mem_mapped : ∀ c ∈ s.mem, inBuffer s.params c.1 = true
  /-- the dictionary keeps its canonical form -/
  dict_wf : Memory.wf s.dict
  /-- the dictionary has DICT_CODES entries (R51, R195) -/
  dict_codes : ∀ e ∈ s.dict, e.1 < dictCodes
  /-- R28 -/
  not_both : ¬ (s.status.lzwBusy = true ∧ s.status.dsBusy = true)
  /-- R29, R31: DONE is set exactly with a reason -/
  lzw_done : s.status.lzwDone = decide (s.status.lzwStop ≠ .none)
  /-- R30, R32 -/
  ds_done : s.status.dsDone = decide (s.status.dsResult ≠ .none)
  /-- R33, R181: an early normal end always has fewer indices than expected (95_test_vectors.md §2.3.6) -/
  short_iff : s.status.short = decide (s.status.lzwStop = .endCode ∨ s.status.lzwStop = .exhausted)
  /-- R144: a busy engine's DONE and result fields are 0 -/
  lzw_clean : s.status.lzwBusy = true → s.status.lzwDone = false
  ds_clean : s.status.dsBusy = true → s.status.dsDone = false
  lzw_run : s.status.lzwBusy = true → s.LzwRun
  ds_run : s.status.dsBusy = true → s.DsRun

end Sys2Proof.Machine
end

