-- ==== Sys2Proof/Certificates/Slice0/Obligations.lean ====
section
/-! DEFINITION. The statements for the provers, from the numbered rules of spec/. OBLIGATIONS.json lists them with the rules they
formalise; each docstring says which. Statements hold for every value of the parameters (R7) and of the free values. -/

open Sys2Proof Sys2Proof.Machine

/-! ## Words the statements use -/

namespace Sys2Proof.Claims

/-- What a step or an instruction answers. -/
abbrev Answer := Host.Outcome State Fault Refusal

/-- An access of `n` bytes at `off` lies in buffer `b` and is aligned (R71, R77). -/
def InsideBuffer (p : Params) (b : Buf) (off n : Nat) : Prop :=
  b.base ≤ off ∧ off + n ≤ b.base + b.size p ∧ off % n = 0

/-- The four conditions of R138, written out: a legal size, alignment, all bytes in one region, size 4 in REG. -/
def ShapeOk (p : Params) (off n : Nat) : Prop :=
  (n = 1 ∨ n = 2 ∨ n = 4) ∧ off % n = 0 ∧
    ((off + n ≤ 0x100 ∧ n = 4) ∨ ∃ b : Buf, b.base ≤ off ∧ off + n ≤ b.base + b.size p)

/-- The procedure of R130, transcribed step by step: shape, region, busy, then the bytes. -/
def accessProcedure (t : Txn) (s : State) : Answer :=
  match t with
  | .rd off n =>
    if legalShape s.params off.toNat n = false then
      .next { s with status := { s.status with buserr := true }, rdata := some 0#32 }
    else if regionOf s.params off.toNat = some .reg then .next { s with rdata := some (s.regRead off.toNat) }
    else if s.status.lzwBusy = true ∨ s.status.dsBusy = true then
      .next { s with status := { s.status with accerr := true }, rdata := some 0#32 }
    else .next { s with rdata := some (BitVec.ofNat 32 (s.memRead off.toNat n)) }
  | .wr off n v =>
    if legalShape s.params off.toNat n = false then .next { s with status := { s.status with buserr := true } }
    else if regionOf s.params off.toNat = some .reg then regWrite off v s
    else if s.status.lzwBusy = true ∨ s.status.dsBusy = true then
      .next { s with status := { s.status with accerr := true } }
    else .next (s.memWrite off.toNat n v.toNat)

/-- What a WR of `n` bytes to a buffer does (R73, R136): bytes `off .. off+n-1` hold the low bytes of `v`, the least significant
first; every other byte and everything else is unchanged. -/
def StoredBytes (s t : State) (off n : Nat) (v : Word) : Prop :=
  t = { s with mem := t.mem } ∧
    ∀ x, t.byteAt x = if off ≤ x ∧ x < off + n then BitVec.ofNat 8 (v.toNat / 256 ^ (x - off)) else s.byteAt x

/-- `emit(q)` (R189): the first `min(len(q), EXPECT - OUT_COUNT)` indices at consecutive PIX offsets from OUT_COUNT up, OUT_COUNT
moved past them, every other byte as before. -/
def Emitted (s t : State) (q : List Byte) : Prop :=
  let n := min q.length (s.lzw.expect.toNat - s.lzw.outCount.toNat)
  let a := Buf.pix.base + s.lzw.outCount.toNat
  t.lzw.outCount.toNat = s.lzw.outCount.toNat + n ∧
    (∀ i < n, t.byteAt (a + i) = q.getD i 0#8) ∧
    ∀ x, x < a ∨ a + n ≤ x → t.byteAt x = s.byteAt x

/-- `add_entry(PREV, x)` if a previous sequence exists (R186, R190 to R192): with room, NEXT goes up by one, WIDTH grows when NEXT
reaches its capacity, the new code denotes `seq(PREV) ++ [x]` and every other entry is as before; else nothing. -/
def EntryAdded (s t : State) (x : Byte) : Prop :=
  if s.lzw.prevv = true ∧ s.lzw.next.toNat < dictCodes then
    t.lzw.next.toNat = s.lzw.next.toNat + 1 ∧
    t.lzw.width.toNat =
      (if s.lzw.next.toNat + 1 ≥ 2 ^ s.lzw.width.toNat ∧ s.lzw.width.toNat < 12 then s.lzw.width.toNat + 1
       else s.lzw.width.toNat) ∧
    (∃ p, s.seq s.lzw.prev = some p ∧ t.seq (BitVec.ofNat 12 s.lzw.next.toNat) = some (p ++ [x])) ∧
    ∀ d, d ≠ s.lzw.next.toNat → Memory.get? d t.dict = Memory.get? d s.dict
  else t.lzw.next = s.lzw.next ∧ t.lzw.width = s.lzw.width ∧ t.dict = s.dict

/-- What DICT and KWKWK do with the sequence `q` they emit (R180, R186, R187, R193), with the frame: of the LZW registers only
OUT_COUNT, BITPOS, CODESTATE and PREV change; of the rest only the dictionary and the stored PIX bytes. -/
def TookSequence (s t : State) (c : Code) (q : List Byte) : Prop :=
  t = { s with lzw := t.lzw, dict := t.dict, mem := t.mem } ∧
    t.lzw = { s.lzw with outCount := t.lzw.outCount, bitpos := t.lzw.bitpos, width := t.lzw.width,
                         next := t.lzw.next, prev := c, prevv := true } ∧
    t.lzw.bitpos.toNat = s.lzw.bitpos.toNat + s.lzw.width.toNat ∧
    Emitted s t q ∧ EntryAdded s t (q.headD 0#8) ∧
    ∀ d : Code, inDict s.lzw.mcs s.lzw.next.toNat d.toNat → t.seq d = s.seq d

/-- A whole code is left in the stream at LZW_BITPOS (R182). -/
abbrev CodeLeft (s : State) : Prop :=
  s.lzw.bitpos.toNat + s.lzw.width.toNat ≤ 8 * s.lzw.inLen.toNat

/-- The valid bytes of the IN stream (R38). -/
def inStream (s : State) : List Byte :=
  (List.range s.lzw.inLen.toNat).map (s.bufByte .inp)

/-- `((2t + 1) S) // (2T)`, the real-valued `floor((t + 0.5) S / T)` in exact arithmetic, and the rescale of R225 without its
clamp, applied to the pixel R226 names: what cell `k` of a DS run must hold. -/
def cellFormula (s : State) (k : Nat) : Nat :=
  let tx := k % s.params.tgtW
  let ty := k / s.params.tgtW
  let sx := ((2 * tx + 1) * s.ds.srcW.toNat) / (2 * s.params.tgtW)
  let sy := ((2 * ty + 1) * s.ds.srcH.toNat) / (2 * s.params.tgtH)
  (2 * (s.byteAt (Buf.pix.base + (sy * s.ds.srcW.toNat + sx))).toNat * s.params.maxb + 255) / 510

/-! ### §4.3 as the document writes it -/

/-- The state of the document's decoder (§4.3, quoted in 41_lzw_decode.md): the code width, the added sequences in code order (the
first is that of CLEAR + 2), the previous sequence, the output so far, and the bit position. It is bounded by nothing. -/
structure Doc where
  width : Nat
  table : List (List Byte)
  prev  : Option (List Byte)
  out   : List Byte
  pos   : Nat

/-- The decoder when it starts (R171, R172). -/
def Doc.start (mcs : Nat) : Doc :=
  { width := mcs + 1, table := [], prev := none, out := [], pos := 0 }

/-- The sequence of a code "in the dictionary": a single index below CLEAR, else an added sequence. -/
def Doc.lookup (mcs : Nat) (table : List (List Byte)) (c : Nat) : Option (List Byte) :=
  if c < 2 ^ mcs then some [BitVec.ofNat 8 c]
  else if c < 2 ^ mcs + 2 then none
  else table[c - (2 ^ mcs + 2)]?

/-- "register a new dictionary entry = previous+[emitted sequence's first index]", if a previous sequence existed. -/
def Doc.tableWith (d : Doc) (q : List Byte) : List (List Byte) :=
  match d.prev with
  | none => d.table
  | some p => d.table ++ [p ++ [q.headD 0#8]]

/-- A sequence is emitted, an entry registered, "and grow the code width by one bit whenever the next code reaches the current
width's capacity, capped at the maximum width". -/
def Doc.take (mcs : Nat) (d : Doc) (q : List Byte) : Doc :=
  { width := if d.prev.isSome = true ∧ 2 ^ mcs + 2 + (d.tableWith q).length ≥ 2 ^ d.width ∧ d.width < 12
      then d.width + 1 else d.width
    table := d.tableWith q
    prev := some q
    out := d.out ++ q
    pos := d.pos }

/-- One code of §4.3: read through the 3-byte window (R102), or the reason to stop. -/
def Doc.step (mcs expect : Nat) (bytes : List Byte) (d : Doc) : Except LzwStop Doc :=
  if expect ≤ d.out.length then .error .countReached
  else if 8 * bytes.length < d.pos + d.width then .error .exhausted
  else
    let c := windowCode (fun k => bytes.getD k 0#8) d.pos d.width
    let e : Doc := { d with pos := d.pos + d.width }
    if c = 2 ^ mcs then .ok { Doc.start mcs with out := e.out, pos := e.pos }
    else if c = 2 ^ mcs + 1 then .error .endCode
    else
      match Doc.lookup mcs e.table c, e.prev with
      | some q, _ => .ok (e.take mcs q)
      | none, some p =>
        if c = 2 ^ mcs + 2 + e.table.length then .ok (e.take mcs (p ++ [p.headD 0#8])) else .error .invalidCode
      | none, none => .error .invalidCode

/-- The decoder run for at most the given number of codes: why it stopped, and what it had put out. -/
def Doc.run (mcs expect : Nat) (bytes : List Byte) : Nat → Doc → Option (LzwStop × List Byte)
  | 0, _ => none
  | n + 1, d =>
    match Doc.step mcs expect bytes d with
    | .error r => some (r, d.out)
    | .ok e => Doc.run mcs expect bytes n e

/-! ### An LZW encoder of the same conventions (R196) -/

/-- The codes, each with the width it is written at, that some encoder may write for the indices `x` and close with END: at every
point a CLEAR, or any code whose sequence begins what is left of `x`, the entry just registered among them. -/
def Encodes (mcs : Nat) : Doc → List Byte → List (Nat × Nat) → Prop
  | _, _, [] => False
  | d, x, (c, w) :: cs =>
    w = d.width ∧ c < 2 ^ w ∧
      ((c = 2 ^ mcs + 1 ∧ x = [] ∧ cs = []) ∨
       (c = 2 ^ mcs ∧ Encodes mcs (Doc.start mcs) x cs) ∨
       ∃ q y, x = q ++ y ∧ q ≠ [] ∧ Doc.lookup mcs (d.tableWith q) c = some q ∧ Encodes mcs (d.take mcs q) y cs)

/-- The codes packed from stream bit 0 up (R101), as one number whose bit p is stream bit p. -/
def packed : List (Nat × Nat) → Nat
  | [] => 0
  | (c, w) :: cs => c + 2 ^ w * packed cs

/-- The whole bytes that hold them. -/
def packedLen (cs : List (Nat × Nat)) : Nat := ((cs.map Prod.snd).sum + 7) / 8

/-- The block is idle, no turn is left, and LZW_START would accept its configuration (R141). -/
def ReadyForLzw (s : State) : Prop :=
  s.busy = false ∧ s.turns = [] ∧ 2 ≤ s.lzw.mcs.toNat ∧ s.lzw.mcs.toNat ≤ 8 ∧
    s.lzw.inLen.toNat ≤ s.params.inBytes ∧ s.lzw.expect.toNat ≤ s.params.pixBytes

/-- How many steps an LZW run may take (R194). -/
def runBound (s : State) : Nat := (8 * s.lzw.inLen.toNat) / 3 + 1

end Sys2Proof.Claims

open Sys2Proof.Claims

/-! ## Reset, the invariant, the step -/

/-- R281, R282: every register holds its reset value; nothing is stored in a buffer, so each byte is a free draw. -/
def Obligations.ResetHoldsResetValues : Prop :=
  ∀ p : Params, p.Legal →
    (State.resetWith p).regRead 0x00 = 0x31575A4C#32 ∧
    ((State.resetWith p).regRead 0x04).toNat = p.tgtW + 2 ^ 8 * p.tgtH + 2 ^ 16 * p.maxb + 2 ^ 24 * 12 ∧
    ((State.resetWith p).regRead 0x08).toNat = p.inBytes ∧
    ((State.resetWith p).regRead 0x0C).toNat = p.pixBytes ∧
    (∀ off, 0x10 ≤ off → (State.resetWith p).regRead off = 0#32) ∧
    (State.resetWith p).busy = false ∧
    ∀ a, (State.resetWith p).byteAt a = Config.powerOnByte (State.resetWith p).powerOns a

/-- The invariant of Safety.lean holds after power-on, for every legal block. -/
def Obligations.InvariantHoldsAtReset : Prop :=
  (∀ p : Params, p.Legal → (State.resetWith p).Inv) ∧ State.reset.Inv

/-- Every step keeps the invariant of Safety.lean, from every state that has it. -/
def Obligations.StepKeepsInvariant : Prop :=
  ∀ s t : State, s.Inv → step s = .next t → t.Inv

/-- R250: the block has no trap. From every state with the invariant, a step has a next state. -/
def Obligations.StepNeverStops : Prop :=
  ∀ s : State, s.Inv → ∃ t, step s = .next t

/-- R21 to R24: no event changes ID and CAP0 to CAP2. That the parameters stand in State, and stay as they are there, is the
model's own way of holding them (log 1). -/
def Obligations.ConstantsNeverChange : Prop :=
  ∀ s t : State, step s = .next t →
    t.params = s.params ∧ t.regRead 0x00 = 0x31575A4C#32 ∧ t.regRead 0x04 = s.regRead 0x04 ∧
    t.regRead 0x08 = s.regRead 0x08 ∧ t.regRead 0x0C = s.regRead 0x0C

/-- R28: LZW_BUSY and DS_BUSY are never both 1: no step of any state sets the second. -/
def Obligations.EnginesNeverRunTogether : Prop :=
  ∀ s t : State, ¬ (s.status.lzwBusy = true ∧ s.status.dsBusy = true) → step s = .next t →
    ¬ (t.status.lzwBusy = true ∧ t.status.dsBusy = true)

/-- A step runs the instruction that the next turn decodes to, with the turn used up; a POLL's turn runs its RD32, and then ends the
loop or goes on with it (`pollOn`, which PollRepeatsUntilItMatches spells out); with no turn left the busy engine goes on
(R297), and an idle block waits (R281). How turns are ordered is the model's own convention (log 2). -/
def Obligations.StepRunsDecodedInstruction : Prop :=
  (∀ (s : State) (x : Txn) (ts : List Turn) (i : Instr), s.turns = .host x :: ts →
    decode s.ctx (.bus x) = .ok i → step s = exec i { s with turns := ts }) ∧
  (∀ (s : State) (ts : List Turn), s.turns = .lzw :: ts → step s = exec .lzwStep { s with turns := ts }) ∧
  (∀ (s : State) (ts : List Turn), s.turns = .ds :: ts → step s = exec .dsCellStep { s with turns := ts }) ∧
  (∀ (s : State) (p : Poll) (ts : List Turn) (i : Instr), s.turns = .poll p :: ts →
    decode s.ctx (.bus (.rd p.off 4)) = .ok i → step s = pollOn p (exec i { s with turns := ts })) ∧
  (∀ s : State, s.turns = [] → s.status.lzwBusy = true → step s = exec .lzwStep s) ∧
  (∀ s : State, s.turns = [] → s.status.lzwBusy = false → s.status.dsBusy = true → step s = exec .dsCellStep s) ∧
  (∀ s : State, s.turns = [] → s.busy = false → step s = .next s)

/-- R180, R183: where the IN stream's bytes at LZW_BITPOS decode to an instruction, the LZW step is that instruction; where less
than a code is left, it stops with EXHAUSTED. -/
def Obligations.LzwStepRunsDecodedCode : Prop :=
  ∀ s : State, s.status.lzwBusy = true → s.lzw.outCount.toNat < s.lzw.expect.toNat →
    (∀ i, decode s.ctx (.stream (inStream s) s.lzw.bitpos.toNat) = .ok i → exec .lzwStep s = exec i s) ∧
    (∀ e, decode s.ctx (.stream (inStream s) s.lzw.bitpos.toNat) = .error e →
      exec .lzwStep s = .next (s.stopLzw .exhausted))

/-! ## Encoding -/

/-- Decode and encode agree, for every instruction in every state whose row conditions it meets: no bit of a command word, a code
or a tuple is dropped (R100, R101, R109, R111). -/
def Obligations.DecodeInvertsEncode : Prop :=
  ∀ (ctx : DecodeCtx) (i : Instr), i.wf ctx.params = true → i.applies ctx = true →
    decode ctx (encode ctx i) = .ok i

/-- Every transaction is the encoding of the one row it decodes to (R130). -/
def Obligations.EncodeInvertsDecodeOfTransactions : Prop :=
  ∀ (ctx : DecodeCtx) (t : Txn), encode ctx (decodeTxn ctx t) = .bus t

/-- Words, codes and tuples written out from R109, R110, R105 and R111 decode to the rows they stand for. -/
def Obligations.SpecWordsDecode : Prop :=
  decodeTableWord 32 0x00000000 = some .nop ∧ decodeTableWord 32 0x00000001 = some .lzwStart ∧
  decodeTableWord 32 0x00000002 = some .dsStart ∧ decodeTableWord 32 0x00000003 = some .abort ∧
  decodeTableWord 32 0x00000004 = some .ack ∧ decodeTableWord 32 0x0000000F = some .softReset ∧
  decodeTableWord 32 0x00000011 = some (.illegalCmd 0x00000011#32) ∧
  decode ⟨Params.default, true, 2#8, 3#4, 6#13, false⟩ (.stream [0x8C#8, 0x0B#8] 0) = .ok (.clear 4#12) ∧
  decode ⟨Params.default, true, 2#8, 3#4, 6#13, true⟩ (.stream [0x8C#8, 0x0B#8] 6) = .ok (.kwkwk 6#12) ∧
  decode ⟨Params.default, false, 0#8, 0#4, 0#13, false⟩ (.bus (.rd 0x01000002#32 2)) = .ok (.rd16 0x01000002#32)

/-- R109, R110: a CTRL word is illegal exactly when RSVD is not 0 or OP is in 5..E; a legal word is exactly its OP. -/
def Obligations.CommandWordsDecode : Prop :=
  ∀ w : Word,
    (decodeCommand w = .illegalCmd w ↔
      (w.extractLsb' 4 28 ≠ 0#28 ∨ (5#4 ≤ w.extractLsb' 0 4 ∧ w.extractLsb' 0 4 ≤ 0xE#4))) ∧
    (decodeCommand w = .nop ↔ w = 0#32) ∧ (decodeCommand w = .lzwStart ↔ w = 1#32) ∧
    (decodeCommand w = .dsStart ↔ w = 2#32) ∧ (decodeCommand w = .abort ↔ w = 3#32) ∧
    (decodeCommand w = .ack ↔ w = 4#32) ∧ (decodeCommand w = .softReset ↔ w = 0xF#32)

/-- R104 (and R188's reading of its last row): which codes are in which class, for every MCS, NEXT and PREVV. -/
def Obligations.CodeClassesAreTheirConditions : Prop :=
  ∀ (mcs : BitVec 8) (next : Nat) (prevv : Bool) (c : Nat),
    (classify mcs next prevv c = .clear ↔ c = 2 ^ mcs.toNat) ∧
    (classify mcs next prevv c = .endCode ↔ c = 2 ^ mcs.toNat + 1) ∧
    (classify mcs next prevv c = .dict ↔ (c < 2 ^ mcs.toNat ∨ (2 ^ mcs.toNat + 2 ≤ c ∧ c < next))) ∧
    (classify mcs next prevv c = .kwkwk ↔ (2 ^ mcs.toNat + 2 ≤ c ∧ c = next ∧ prevv = true)) ∧
    (classify mcs next prevv c = .invalid ↔
      (2 ^ mcs.toNat + 2 ≤ c ∧ (next < c ∨ (c = next ∧ prevv = false))))

/-- R101: bit i of a code is stream bit P + i, which is bit (P + i) % 8 of byte (P + i) // 8; a code has no other bits. -/
def Obligations.CodeBitsAreStreamBits : Prop :=
  ∀ (byteAt : Nat → Byte) (P W : Nat),
    codeAt byteAt P W < 2 ^ W ∧
    ∀ i < W, (codeAt byteAt P W).testBit i = (byteAt ((P + i) / 8)).getLsbD ((P + i) % 8)

/-- R102: the bit-by-bit read gives the value of the document's 3-byte window, whose bytes past the stream are 0. -/
def Obligations.CodeReadEqualsWindow : Prop :=
  ∀ (byteAt : Nat → Byte) (len P W : Nat), W ≤ maxWidth → P + W ≤ 8 * len →
    codeAt byteAt P W = windowCode (fun k => if k < len then byteAt k else 0#8) P W

/-! ## Register words -/

/-- R26, R31, R32: the STATUS word's fields, the codes of LZW_STOP and DS_RESULT, and its reserved bits. -/
def Obligations.StatusWordShowsItsFields : Prop :=
  (∀ t : Status,
    t.word.getLsbD 0 = t.lzwBusy ∧ t.word.getLsbD 1 = t.dsBusy ∧ t.word.getLsbD 2 = t.lzwDone ∧
    t.word.getLsbD 3 = t.dsDone ∧ t.word.extractLsb' 4 4 = t.lzwStop.code ∧
    t.word.extractLsb' 8 4 = t.dsResult.code ∧ t.word.getLsbD 12 = t.short ∧ t.word.extractLsb' 13 3 = 0#3 ∧
    t.word.getLsbD 16 = t.cmderr ∧ t.word.getLsbD 17 = t.accerr ∧ t.word.getLsbD 18 = t.buserr ∧
    t.word.extractLsb' 19 13 = 0#13) ∧
  LzwStop.none.code = 0#4 ∧ LzwStop.endCode.code = 1#4 ∧ LzwStop.exhausted.code = 2#4 ∧
  LzwStop.countReached.code = 3#4 ∧ LzwStop.invalidCode.code = 4#4 ∧ LzwStop.badMcs.code = 5#4 ∧
  LzwStop.badLength.code = 6#4 ∧ LzwStop.aborted.code = 7#4 ∧
  DsResult.none.code = 0#4 ∧ DsResult.ok.code = 1#4 ∧ DsResult.badDims.code = 2#4 ∧ DsResult.aborted.code = 3#4

/-- R22 and R42: the fields and the zero bits of CAP0 and of LZW_CODESTATE. -/
def Obligations.Cap0AndCodestateShowTheirFields : Prop :=
  (∀ p : Params, p.Legal →
    ((cap0Word p).extractLsb' 0 8).toNat = p.tgtW ∧ ((cap0Word p).extractLsb' 8 8).toNat = p.tgtH ∧
    ((cap0Word p).extractLsb' 16 8).toNat = p.maxb ∧ (cap0Word p).extractLsb' 24 4 = 12#4 ∧
    (cap0Word p).extractLsb' 28 4 = 0#4) ∧
  ∀ r : LzwRegs,
    r.codeState.extractLsb' 0 4 = r.width ∧ r.codeState.getLsbD 4 = r.prevv ∧
    r.codeState.extractLsb' 5 11 = 0#11 ∧ r.codeState.extractLsb' 16 13 = r.next ∧
    r.codeState.extractLsb' 29 3 = 0#3

/-! ## Bus transactions -/

/-- R131 (with R20, R25, R49 and R50): an aligned RD32 in REG answers the register's word, busy or not, and changes nothing
else. -/
def Obligations.RegisterReadAnswersItsWord : Prop :=
  (∀ (s : State) (off : Word), off.toNat < 0x100 → off.toNat % 4 = 0 →
    exec (.rd32Reg off) s = .next { s with rdata := some (s.regRead off.toNat) }) ∧
  ∀ s : State,
    s.regRead 0x00 = 0x31575A4C#32 ∧ s.regRead 0x04 = cap0Word s.params ∧
    s.regRead 0x08 = BitVec.ofNat 32 s.params.inBytes ∧ s.regRead 0x0C = BitVec.ofNat 32 s.params.pixBytes ∧
    s.regRead 0x10 = 0#32 ∧ s.regRead 0x14 = s.status.word ∧ (s.regRead 0x20).toNat = s.lzw.mcs.toNat ∧
    s.regRead 0x24 = s.lzw.inLen ∧ s.regRead 0x28 = s.lzw.expect ∧ s.regRead 0x2C = s.lzw.outCount ∧
    s.regRead 0x30 = s.lzw.bitpos ∧ s.regRead 0x34 = s.lzw.codeState ∧
    (s.regRead 0x38).toNat = s.lzw.prev.toNat ∧ (s.regRead 0x3C).toNat = s.lzw.errCode.toNat ∧
    s.regRead 0x40 = s.lzw.errBitpos ∧ (s.regRead 0x50).toNat = s.ds.srcW.toNat ∧
    (s.regRead 0x54).toNat = s.ds.srcH.toNat ∧ s.regRead 0x58 = s.ds.cell ∧
    s.regRead 0x18 = 0#32 ∧ s.regRead 0x1C = 0#32 ∧
    (∀ off, 0x44 ≤ off → off ≤ 0x4C → s.regRead off = 0#32) ∧ ∀ off, 0x5C ≤ off → s.regRead off = 0#32

/-- R132 (with R73 and R112): a read of a buffer with no engine busy answers its bytes, the first in bits 7:0, zero-extended, and
changes nothing else; a byte not written since power-on is the free draw of R282. -/
def Obligations.BufferReadAnswersItsBytes : Prop :=
  ∀ (s : State) (b : Buf) (off : Word), s.params.Legal → s.busy = false →
    (InsideBuffer s.params b off.toNat 1 →
      exec (.rd8 off) s = .next { s with rdata := some (BitVec.ofNat 32 (s.byteAt off.toNat).toNat) }) ∧
    (InsideBuffer s.params b off.toNat 2 →
      exec (.rd16 off) s = .next { s with rdata := some (BitVec.ofNat 32
        ((s.byteAt off.toNat).toNat + 2 ^ 8 * (s.byteAt (off.toNat + 1)).toNat)) }) ∧
    (InsideBuffer s.params b off.toNat 4 →
      exec (.rd32 off) s = .next { s with rdata := some (BitVec.ofNat 32
        ((s.byteAt off.toNat).toNat + 2 ^ 8 * (s.byteAt (off.toNat + 1)).toNat +
          2 ^ 16 * (s.byteAt (off.toNat + 2)).toNat + 2 ^ 24 * (s.byteAt (off.toNat + 3)).toNat)) }) ∧
    ∀ a, Memory.get? a s.mem = none → s.byteAt a = Config.powerOnByte s.powerOns a

/-- R133, R135, R137: while either engine is busy a buffer access and a configuration write are refused with ACCERR; a read answers
0; nothing else changes. -/
def Obligations.BusyAccessIsRefused : Prop :=
  ∀ (s : State) (off v : Word), s.params.Legal → s.busy = true →
    (∀ (b : Buf) (n : Nat), (n = 1 ∨ n = 2 ∨ n = 4) → InsideBuffer s.params b off.toNat n →
      exec (.rdBusy off n) s =
        .next { s with status := { s.status with accerr := true }, rdata := some 0#32 } ∧
      exec (.wrBusy off n v) s = .next { s with status := { s.status with accerr := true } }) ∧
    (off.toNat ∈ [0x20, 0x24, 0x28, 0x50, 0x54] →
      exec (.wr32CfgBusy off v) s = .next { s with status := { s.status with accerr := true } })

/-- R134 (with R37 to R39, R46, R47, R50): a register write. A configuration register takes its field, or is refused while an
engine is busy (R135); CTRL performs the command; RO registers and holes ignore it. -/
def Obligations.RegisterWriteFollowsItsRule : Prop :=
  ∀ (s : State) (v : Word),
    (s.busy = false →
      exec (.wr32Reg 0x20#32 v) s = .next { s with lzw := { s.lzw with mcs := v.extractLsb' 0 8 } } ∧
      exec (.wr32Reg 0x24#32 v) s = .next { s with lzw := { s.lzw with inLen := v } } ∧
      exec (.wr32Reg 0x28#32 v) s = .next { s with lzw := { s.lzw with expect := v } } ∧
      exec (.wr32Reg 0x50#32 v) s = .next { s with ds := { s.ds with srcW := v.extractLsb' 0 16 } } ∧
      exec (.wr32Reg 0x54#32 v) s = .next { s with ds := { s.ds with srcH := v.extractLsb' 0 16 } }) ∧
    (s.busy = true → ∀ off : Word, off.toNat ∈ [0x20, 0x24, 0x28, 0x50, 0x54] →
      exec (.wr32Reg off v) s = .next { s with status := { s.status with accerr := true } }) ∧
    exec (.wr32Reg 0x10#32 v) s = exec (decodeCommand v) s ∧
    ∀ off : Word, off.toNat < 0x100 → off.toNat % 4 = 0 → off.toNat ∉ [0x10, 0x20, 0x24, 0x28, 0x50, 0x54] →
      exec (.wr32Reg off v) s = .next s

/-- R136 (with R73 and R112): a write to a buffer with no engine busy stores the low bytes of the value at the offset and changes
no other byte and nothing else. -/
def Obligations.BufferWriteStoresItsBytes : Prop :=
  ∀ (s : State) (b : Buf) (off v : Word), s.params.Legal → s.busy = false →
    (InsideBuffer s.params b off.toNat 1 → ∃ t, exec (.wr8 off v) s = .next t ∧ StoredBytes s t off.toNat 1 v) ∧
    (InsideBuffer s.params b off.toNat 2 → ∃ t, exec (.wr16 off v) s = .next t ∧ StoredBytes s t off.toNat 2 v) ∧
    (InsideBuffer s.params b off.toNat 4 → ∃ t, exec (.wr32 off v) s = .next t ∧ StoredBytes s t off.toNat 4 v)

/-- R138 (with R72, R76, R77): a transaction whose shape is not legal sets BUSERR, busy or not; a RD answers 0; nothing else
changes. -/
def Obligations.BadShapeSetsBuserr : Prop :=
  ∀ (s : State) (off : Word) (n : Nat), s.params.Legal → ¬ ShapeOk s.params off.toNat n →
    exec (.busIllegal (.rd off n)) s =
      .next { s with status := { s.status with buserr := true }, rdata := some 0#32 } ∧
    ∀ v, exec (.busIllegal (.wr off n v)) s = .next { s with status := { s.status with buserr := true } }

/-- R130: decoding a transaction to its row and running the row is the procedure of R130, in every state. -/
def Obligations.TransactionFollowsProcedure : Prop :=
  ∀ (s : State) (x : Txn), exec (decodeTxn s.ctx x) s = accessProcedure x s

/-- R75 (with R73, R132, R136): what is written with any of the three widths is read with any of the three, byte by byte: with no
engine busy, byte i of the value read is the written value's byte where the write reached, and the byte that stood there before
elsewhere. The value read stands in rdata (log 4). -/
def Obligations.MixedWidthReadSeesWrittenBytes : Prop :=
  ∀ (s : State) (b : Buf) (off v : Word), s.params.Legal → s.busy = false →
    ∀ (n : Nat) (w : Instr), (n, w) ∈ [(1, Instr.wr8 off v), (2, Instr.wr16 off v), (4, Instr.wr32 off v)] →
    InsideBuffer s.params b off.toNat n →
    ∃ t, exec w s = .next t ∧
      ∀ (b' : Buf) (a : Word) (m : Nat) (r : Instr), (m, r) ∈ [(1, Instr.rd8 a), (2, Instr.rd16 a), (4, Instr.rd32 a)] →
        InsideBuffer s.params b' a.toNat m →
        ∃ x : Word, exec r t = .next { t with rdata := some x } ∧ x.toNat < 2 ^ (8 * m) ∧
          ∀ i < m, x.extractLsb' (8 * i) 8 =
            if off.toNat ≤ a.toNat + i ∧ a.toNat + i < off.toNat + n then
              v.extractLsb' (8 * (a.toNat + i - off.toNat)) 8
            else s.byteAt (a.toNat + i)

/-- R80: a host read changes nothing but the value it returns; a refused one also sets ACCERR or BUSERR, never both (R259). -/
def Obligations.ReadsHaveNoSideEffect : Prop :=
  ∀ (s : State) (off : Word) (n : Nat), ∃ (v : Word) (a b : Bool),
    exec (decodeTxn s.ctx (.rd off n)) s =
      .next { s with rdata := some v,
                     status := { s.status with accerr := s.status.accerr || a, buserr := s.status.buserr || b } } ∧
    ¬ (a = true ∧ b = true) ∧
    (a = true ↔ legalShape s.params off.toNat n = true ∧ regionOf s.params off.toNat ≠ some .reg ∧ s.busy = true) ∧
    (b = true ↔ legalShape s.params off.toNat n = false) ∧ (a = true ∨ b = true → v = 0#32)

/-! ## Commands -/

/-- R140. -/
def Obligations.NopChangesNothing : Prop :=
  ∀ s : State, exec .nop s = .next s

/-- R146: an illegal word decodes to ILLEGAL_CMD, which sets CMDERR and changes nothing else. -/
def Obligations.IllegalCommandSetsCmderr : Prop :=
  ∀ (s : State) (w : Word), (2 ^ 4 ≤ w.toNat ∨ (5 ≤ w.toNat % 16 ∧ w.toNat % 16 ≤ 0xE)) →
    decodeCommand w = .illegalCmd w ∧
    exec (.illegalCmd w) s = .next { s with status := { s.status with cmderr := true } }

/-- R141 (with R171 and R256): LZW_START. Refused while busy; else the result and progress fields are cleared, then BAD_MCS, then
BAD_LENGTH, else the dictionary is seeded and the run begins. -/
def Obligations.LzwStartFollowsItsRule : Prop :=
  ∀ s : State,
    (s.busy = true → exec .lzwStart s = .next { s with status := { s.status with cmderr := true } }) ∧
    (s.busy = false → ¬ (2 ≤ s.lzw.mcs.toNat ∧ s.lzw.mcs.toNat ≤ 8) →
      exec .lzwStart s = .next { s with
        status := { s.status with lzwBusy := false, lzwDone := true, lzwStop := .badMcs, short := false }
        lzw := { s.lzw with outCount := 0#32, bitpos := 0#32, width := 0#4, prevv := false, next := 0#13,
                            prev := 0#12, errCode := 0#12, errBitpos := 0#32 } }) ∧
    (s.busy = false → 2 ≤ s.lzw.mcs.toNat → s.lzw.mcs.toNat ≤ 8 →
      (s.params.inBytes < s.lzw.inLen.toNat ∨ s.params.pixBytes < s.lzw.expect.toNat) →
      exec .lzwStart s = .next { s with
        status := { s.status with lzwBusy := false, lzwDone := true, lzwStop := .badLength, short := false }
        lzw := { s.lzw with outCount := 0#32, bitpos := 0#32, width := 0#4, prevv := false, next := 0#13,
                            prev := 0#12, errCode := 0#12, errBitpos := 0#32 } }) ∧
    (s.busy = false → 2 ≤ s.lzw.mcs.toNat → s.lzw.mcs.toNat ≤ 8 →
      s.lzw.inLen.toNat ≤ s.params.inBytes → s.lzw.expect.toNat ≤ s.params.pixBytes →
      ∃ t, exec .lzwStart s = .next t ∧ t = { s with
        status := { s.status with lzwBusy := true, lzwDone := false, lzwStop := .none, short := false }
        lzw := { s.lzw with outCount := 0#32, bitpos := 0#32, width := t.lzw.width, prevv := false,
                            next := t.lzw.next, prev := 0#12, errCode := 0#12, errBitpos := 0#32 } } ∧
        t.lzw.width.toNat = s.lzw.mcs.toNat + 1 ∧ t.lzw.next.toNat = 2 ^ s.lzw.mcs.toNat + 2)

/-- R142 (with R258): DS_START. Refused while busy; else the result fields and DS_CELL are cleared, then BAD_DIMS, else the run
begins. SW * SH is exact. -/
def Obligations.DsStartFollowsItsRule : Prop :=
  ∀ s : State,
    (s.busy = true → exec .dsStart s = .next { s with status := { s.status with cmderr := true } }) ∧
    (s.busy = false →
      (s.ds.srcW = 0#16 ∨ s.ds.srcH = 0#16 ∨ s.params.pixBytes < s.ds.srcW.toNat * s.ds.srcH.toNat) →
      exec .dsStart s = .next { s with
        status := { s.status with dsBusy := false, dsDone := true, dsResult := .badDims }
        ds := { s.ds with cell := 0#32 } }) ∧
    (s.busy = false → s.ds.srcW ≠ 0#16 → s.ds.srcH ≠ 0#16 →
      s.ds.srcW.toNat * s.ds.srcH.toNat ≤ s.params.pixBytes →
      exec .dsStart s = .next { s with
        status := { s.status with dsBusy := true, dsDone := false, dsResult := .none }
        ds := { s.ds with cell := 0#32 } })

/-- R143: ABORT. -/
def Obligations.AbortStopsTheBusyEngine : Prop :=
  ∀ s : State,
    (s.busy = false → exec .abort s = .next s) ∧
    (s.status.lzwBusy = true → s.status.dsBusy = false →
      exec .abort s = .next { s with
        status := { s.status with lzwBusy := false, lzwDone := true, lzwStop := .aborted, short := false } }) ∧
    (s.status.lzwBusy = false → s.status.dsBusy = true →
      exec .abort s = .next { s with
        status := { s.status with dsBusy := false, dsDone := true, dsResult := .aborted } }) ∧
    (s.status.lzwBusy = true → s.status.dsBusy = true →
      exec .abort s = .next { s with
        status := { s.status with lzwBusy := false, lzwDone := true, lzwStop := .aborted, short := false,
                                  dsBusy := false, dsDone := true, dsResult := .aborted } })

/-- R144: ACK clears the eight sticky fields; the BUSY bits, every register and the buffers keep their values. -/
def Obligations.AckClearsStickyFields : Prop :=
  ∀ s : State, exec .ack s = .next { s with
    status := { lzwBusy := s.status.lzwBusy, dsBusy := s.status.dsBusy, lzwDone := false, dsDone := false,
                lzwStop := .none, dsResult := .none, short := false, cmderr := false, accerr := false,
                buserr := false } }

/-- R145, R283, R285, R286: SOFT_RESET leaves the block as after power-on, but for the buffers, which keep their bytes (and the
model's own fields, logs 2 to 4). -/
def Obligations.SoftResetIsPowerOnButBuffers : Prop :=
  ∀ s : State, ∃ t, exec .softReset s = .next t ∧
    t = { State.resetWith s.params with mem := s.mem, powerOns := s.powerOns, rdata := s.rdata, turns := s.turns } ∧
    (∀ off, t.regRead off = (State.resetWith s.params).regRead off) ∧ ∀ a, t.byteAt a = s.byteAt a

/-- R280, R282, R283: the reset input resets the registers and keeps the buffers; power-on resets the registers and leaves every
buffer byte unspecified: a new free draw. That asserting and releasing the reset input is one step, with no state in which it is
held, is the model's choice (log 12). -/
def Obligations.ResetTurnsFollowTheirRule : Prop :=
  ∀ (s : State) (ts : List Turn),
    (s.turns = .resetInput :: ts → ∃ t, step s = .next t ∧ t.busy = false ∧
      (∀ off, t.regRead off = (State.resetWith s.params).regRead off) ∧ ∀ a, t.byteAt a = s.byteAt a) ∧
    (s.turns = .powerOn :: ts → ∃ t, step s = .next t ∧ t.busy = false ∧ t.powerOns = s.powerOns + 1 ∧
      (∀ off, t.regRead off = (State.resetWith s.params).regRead off) ∧
      ∀ a, t.byteAt a = Config.powerOnByte t.powerOns a)

/-! ## Code words -/

/-- R184 (with R171): CLEAR sets WIDTH, NEXT and PREVV and moves LZW_BITPOS past the code; STATUS, OUT_COUNT, PREV, the entries and
the buffers are unchanged. -/
def Obligations.ClearReseedsTheDictionary : Prop :=
  ∀ (s : State) (c : Code), (s.classOf c = .clear ↔ c.toNat = 2 ^ s.lzw.mcs.toNat) ∧
    (s.Inv → s.status.lzwBusy = true → CodeLeft s → s.classOf c = .clear →
      ∃ t, exec (.clear c) s = .next t ∧
        t = { s with lzw := { s.lzw with bitpos := t.lzw.bitpos, width := t.lzw.width, next := t.lzw.next,
                                         prevv := false } } ∧
        t.lzw.bitpos.toNat = s.lzw.bitpos.toNat + s.lzw.width.toNat ∧
        t.lzw.width.toNat = s.lzw.mcs.toNat + 1 ∧ t.lzw.next.toNat = 2 ^ s.lzw.mcs.toNat + 2)

/-- R185: END stops the run with END_CODE; SHORT says whether fewer indices than expected were written. -/
def Obligations.EndStopsTheRun : Prop :=
  ∀ (s : State) (c : Code), (s.classOf c = .endCode ↔ c.toNat = 2 ^ s.lzw.mcs.toNat + 1) ∧
    (s.Inv → s.status.lzwBusy = true → CodeLeft s → s.classOf c = .endCode →
      ∃ t, exec (.endCode c) s = .next t ∧
        t = { s with
          status := { s.status with lzwBusy := false, lzwDone := true, lzwStop := .endCode,
                                    short := decide (s.lzw.outCount.toNat < s.lzw.expect.toNat) }
          lzw := { s.lzw with bitpos := t.lzw.bitpos } } ∧
        t.lzw.bitpos.toNat = s.lzw.bitpos.toNat + s.lzw.width.toNat)

/-- R186 (with R189 to R193): DICT emits the code's sequence, adds an entry if a previous sequence existed, and becomes the
previous code. -/
def Obligations.DictEmitsItsSequence : Prop :=
  ∀ (s : State) (c : Code),
    (s.classOf c = .dict ↔
      (c.toNat < 2 ^ s.lzw.mcs.toNat ∨ (2 ^ s.lzw.mcs.toNat + 2 ≤ c.toNat ∧ c.toNat < s.lzw.next.toNat))) ∧
    (s.Inv → s.status.lzwBusy = true → CodeLeft s → s.classOf c = .dict →
      ∃ q t, s.seq c = some q ∧ q ≠ [] ∧ exec (.dict c) s = .next t ∧ TookSequence s t c q)

/-- R187: KWKWK emits the previous sequence and its first index, and its code then denotes exactly what it emitted. -/
def Obligations.KwkwkRepeatsThePreviousSequence : Prop :=
  ∀ (s : State) (c : Code),
    (s.classOf c = .kwkwk ↔
      (2 ^ s.lzw.mcs.toNat + 2 ≤ c.toNat ∧ c.toNat = s.lzw.next.toNat ∧ s.lzw.prevv = true)) ∧
    (s.Inv → s.status.lzwBusy = true → CodeLeft s → s.classOf c = .kwkwk →
      ∃ p t, s.seq s.lzw.prev = some p ∧ p ≠ [] ∧ exec (.kwkwk c) s = .next t ∧
        TookSequence s t c (p ++ [p.headD 0#8]) ∧ t.seq c = some (p ++ [p.headD 0#8]) ∧
        t.lzw.next.toNat = s.lzw.next.toNat + 1)

/-- R188: INVALID stops the run with INVALID_CODE and records the code and where it began. -/
def Obligations.InvalidStopsTheRun : Prop :=
  ∀ (s : State) (c : Code),
    (s.classOf c = .invalid ↔
      (2 ^ s.lzw.mcs.toNat + 2 ≤ c.toNat ∧
        (s.lzw.next.toNat < c.toNat ∨ (c.toNat = s.lzw.next.toNat ∧ s.lzw.prevv = false)))) ∧
    (s.Inv → s.status.lzwBusy = true → CodeLeft s → s.classOf c = .invalid →
      ∃ t, exec (.invalid c) s = .next t ∧
        t = { s with
          status := { s.status with lzwBusy := false, lzwDone := true, lzwStop := .invalidCode, short := false }
          lzw := { s.lzw with bitpos := t.lzw.bitpos, errCode := c, errBitpos := s.lzw.bitpos } } ∧
        t.lzw.bitpos.toNat = s.lzw.bitpos.toNat + s.lzw.width.toNat)

/-! ## The LZW engine -/

/-- R189: `emit` writes the sequence to PIX, cut at the expected count, and touches nothing but PIX bytes and OUT_COUNT. -/
def Obligations.EmitIsCutAtTheExpectedCount : Prop :=
  ∀ (q : List Byte) (s : State), s.lzw.outCount.toNat ≤ s.lzw.expect.toNat →
    Emitted s (s.emit q) q ∧
    s.emit q = { s with lzw := { s.lzw with outCount := (s.emit q).lzw.outCount }, mem := (s.emit q).mem }

/-- R190 to R192 (with R43 and R52): what `add_entry` stores and makes the new code denote, that the entries and the sequences of
the members stay, and that nothing is added to a full dictionary. -/
def Obligations.AddedEntryDenotesItsSequence : Prop :=
  ∀ (s : State) (p : Code) (x : Byte), s.LzwRun → inDict s.lzw.mcs s.lzw.next.toNat p.toNat →
    (s.lzw.next.toNat < dictCodes →
      ∃ q t e, s.seq p = some q ∧ s.addEntry p x = some t ∧
        t.seq (BitVec.ofNat 12 s.lzw.next.toNat) = some (q ++ [x]) ∧
        Memory.get? s.lzw.next.toNat t.dict = some e ∧ e.prefixCode = p ∧ e.suffix = x ∧
        e.first = q.headD 0#8 ∧ e.len.toNat = q.length + 1 ∧
        (∀ d, d ≠ s.lzw.next.toNat → Memory.get? d t.dict = Memory.get? d s.dict) ∧
        (∀ d : Code, inDict s.lzw.mcs s.lzw.next.toNat d.toNat → t.seq d = s.seq d) ∧
        t.lzw.next.toNat = s.lzw.next.toNat + 1 ∧
        t.lzw.width.toNat =
          (if s.lzw.next.toNat + 1 ≥ 2 ^ s.lzw.width.toNat ∧ s.lzw.width.toNat < 12 then s.lzw.width.toNat + 1
           else s.lzw.width.toNat) ∧
        t = { s with dict := t.dict, lzw := { s.lzw with next := t.lzw.next, width := t.lzw.width } }) ∧
    (s.lzw.next.toNat = dictCodes → s.addEntry p x = some s)

/-- R52, R53: during a run every member denotes a sequence; FIRST and LEN are its first index and its length; an added entry is at
most `c - CLEAR` long, and no sequence is longer than 4091. -/
def Obligations.MembersDenoteBoundedSequences : Prop :=
  ∀ (s : State) (c : Code), s.LzwRun → inDict s.lzw.mcs s.lzw.next.toNat c.toNat →
    ∃ q, s.seq c = some q ∧ s.firstOf c = some (q.headD 0#8) ∧ s.lenOf c = some q.length ∧ 1 ≤ q.length ∧
      (clearCode s.lzw.mcs + 2 ≤ c.toNat → q.length ≤ c.toNat - clearCode s.lzw.mcs) ∧ q.length ≤ 4091

/-- R181, R182, R257: the count test comes first, then exhaustion; both read no code. An idle engine takes no step (R268). -/
def Obligations.LzwStepStopsInOrder : Prop :=
  ∀ s : State,
    (s.status.lzwBusy = true → s.lzw.expect.toNat ≤ s.lzw.outCount.toNat →
      exec .lzwStep s = .next { s with
        status := { s.status with lzwBusy := false, lzwDone := true, lzwStop := .countReached, short := false } }) ∧
    (s.status.lzwBusy = true → s.lzw.outCount.toNat < s.lzw.expect.toNat → ¬ CodeLeft s →
      exec .lzwStep s = .next { s with
        status := { s.status with lzwBusy := false, lzwDone := true, lzwStop := .exhausted, short := true } }) ∧
    (s.status.lzwBusy = false → exec .lzwStep s = .next s)

/-- R180, R183: an enabled step with a code left reads exactly one code: it completes, LZW_BITPOS moves past the code, and the
engine goes on unless the code is END or INVALID. -/
def Obligations.LzwStepReadsOneCode : Prop :=
  ∀ s : State, s.Inv → s.status.lzwBusy = true → s.lzw.outCount.toNat < s.lzw.expect.toNat → CodeLeft s →
    ∃ t, exec .lzwStep s = .next t ∧
      t.lzw.bitpos.toNat = s.lzw.bitpos.toNat + s.lzw.width.toNat ∧ 3 ≤ s.lzw.width.toNat ∧
      (t.status.lzwBusy = false ↔ (s.classOf s.fetchCode = .endCode ∨ s.classOf s.fetchCode = .invalid)) ∧
      t = { s with status := t.status, lzw := t.lzw, dict := t.dict, mem := t.mem } ∧
      t.lzw.mcs = s.lzw.mcs ∧ t.lzw.inLen = s.lzw.inLen ∧ t.lzw.expect = s.lzw.expect

/-- R194: a step of an LZW run stops the run or moves LZW_BITPOS on by WIDTH, at least 3; LZW_BITPOS stays within the stream; so a
run left to itself stops within `(8 * IN_LEN) // 3 + 1` steps, whatever IN holds. -/
def Obligations.LzwRunTerminates : Prop :=
  ∀ s : State, s.Inv → s.status.lzwBusy = true →
    s.lzw.bitpos.toNat ≤ 8 * s.lzw.inLen.toNat ∧
    (∃ u, exec .lzwStep s = .next u ∧
      (u.status.lzwBusy = false ∨
        (u.lzw.bitpos.toNat = s.lzw.bitpos.toNat + s.lzw.width.toNat ∧ 3 ≤ s.lzw.width.toNat))) ∧
    (s.turns = [] →
      ∃ (k : Nat) (t : State), k ≤ (8 * s.lzw.inLen.toNat) / 3 + 1 ∧ Host.Core.run Sys2Proof.core k s = .next t ∧
        t.status.lzwBusy = false ∧ t.status.lzwDone = true ∧ t.status.lzwStop ≠ .none)

/-- §4.3 with R191 (90_conflicts.md C3) and R194: an LZW run from LZW_START gives what the document's algorithm gives on the same
bytes: the same reason to stop, and its output cut at the expected length, in PIX. The document's table has no bound; the block's
has 4096 codes, and no stream tells them apart. -/
def Obligations.LzwRunRefinesDocument : Prop :=
  ∀ s : State, s.Inv → ReadyForLzw s →
    ∃ (u t : State) (reason : LzwStop) (out : List Byte),
      exec .lzwStart s = .next u ∧ Host.Core.run Sys2Proof.core (runBound s) u = .next t ∧
      Doc.run s.lzw.mcs.toNat s.lzw.expect.toNat (inStream s) (runBound s) (Doc.start s.lzw.mcs.toNat) =
        some (reason, out) ∧
      t.status.lzwBusy = false ∧ t.status.lzwStop = reason ∧
      t.lzw.outCount.toNat = min out.length s.lzw.expect.toNat ∧
      ∀ i < t.lzw.outCount.toNat, t.bufByte .pix i = out.getD i 0#8

/-- R196: whatever stream an encoder of the same conventions writes for the indices x, with END at its end, decoding it writes
exactly x to PIX; the run stops with END_CODE, or with COUNT_REACHED where no more than x was expected (R181 comes first). -/
def Obligations.DecodingInvertsEncoding : Prop :=
  ∀ (s : State) (x : List Byte) (cs : List (Nat × Nat)), s.Inv → ReadyForLzw s →
    (∀ b ∈ x, b.toNat < 2 ^ s.lzw.mcs.toNat) → Encodes s.lzw.mcs.toNat (Doc.start s.lzw.mcs.toNat) x cs →
    inStream s = leBytes (packedLen cs) (packed cs) → x.length ≤ s.lzw.expect.toNat →
    ∃ u t : State, exec .lzwStart s = .next u ∧ Host.Core.run Sys2Proof.core (runBound s) u = .next t ∧
      t.status.lzwBusy = false ∧
      t.status.lzwStop = (if x.length < s.lzw.expect.toNat then .endCode else .countReached) ∧
      t.lzw.outCount.toNat = x.length ∧ ∀ i < x.length, t.bufByte .pix i = x.getD i 0#8

/-- R79, R87, R89: an LZW step writes PIX bytes from the old OUT_COUNT up to the new one and no other byte. -/
def Obligations.LzwStepWritesOnlyEmittedPix : Prop :=
  ∀ s t : State, exec .lzwStep s = .next t →
    s.lzw.outCount.toNat ≤ t.lzw.outCount.toNat ∧
    (s.lzw.outCount.toNat ≤ s.lzw.expect.toNat → t.lzw.outCount.toNat ≤ s.lzw.expect.toNat) ∧
    ∀ x, x < Buf.pix.base + s.lzw.outCount.toNat ∨ Buf.pix.base + t.lzw.outCount.toNat ≤ x →
      t.byteAt x = s.byteAt x

/-- R85, R291: while a run goes on, no step of any agent changes its input: the IN bytes and the configuration stand as they stood
at its start. -/
def Obligations.RunInputIsFixed : Prop :=
  ∀ s t : State, s.Inv → s.status.lzwBusy = true → step s = .next t → t.status.lzwBusy = true →
    t.lzw.mcs = s.lzw.mcs ∧ t.lzw.inLen = s.lzw.inLen ∧ t.lzw.expect = s.lzw.expect ∧
    ∀ k < s.params.inBytes, t.bufByte .inp k = s.bufByte .inp k

/-- R34 to R36, R144: nothing clears a sticky error flag but ACK and a reset. -/
def Obligations.OnlyAckAndResetClearErrorFlags : Prop :=
  ∀ s t : State, step s = .next t →
    ((s.status.cmderr = true ∧ t.status.cmderr = false) ∨ (s.status.accerr = true ∧ t.status.accerr = false) ∨
      (s.status.buserr = true ∧ t.status.buserr = false)) →
    (nextEvent s).1 ∈ [Event.run .ack, Event.run .softReset, Event.resetInput, Event.powerOn]

/-! ## The DS engine -/

/-- R226 (with R221 to R223, R225, R228 and R233): a DS step writes `q(PIX[sy(ty) * SW + sx(tx)])`, at most MAXB, to OUT[k] and
nothing else, adds one to DS_CELL, and stops with OK after the last cell. An idle engine takes no step (R268). -/
def Obligations.DsStepWritesOneCell : Prop :=
  ∀ s : State,
    (s.status.dsBusy = false → exec .dsCellStep s = .next s) ∧
    (s.Inv → s.status.dsBusy = true →
      ∃ t, exec .dsCellStep s = .next t ∧
        t = { s with ds := { s.ds with cell := t.ds.cell }, mem := t.mem, status := t.status } ∧
        t.ds.cell.toNat = s.ds.cell.toNat + 1 ∧
        (t.byteAt (Buf.out.base + s.ds.cell.toNat)).toNat = cellFormula s s.ds.cell.toNat ∧
        cellFormula s s.ds.cell.toNat ≤ s.params.maxb ∧
        (∀ x, x ≠ Buf.out.base + s.ds.cell.toNat → t.byteAt x = s.byteAt x) ∧
        t.status = if s.ds.cell.toNat + 1 = s.params.tgtW * s.params.tgtH
          then { s.status with dsBusy := false, dsDone := true, dsResult := .ok } else s.status)

/-- R224: with S at least 1 the clamp never changes a sampled index, and every sampled pixel lies inside the raster. -/
def Obligations.SamplingStaysInsideTheRaster : Prop :=
  (∀ S T t : Nat, 1 ≤ S → t < T →
    sample S T t = ((2 * t + 1) * S) / (2 * T) ∧ sample S T t ≤ S - 1) ∧
  ∀ (s : State) (k : Nat), 1 ≤ s.ds.srcW.toNat → 1 ≤ s.ds.srcH.toNat → k < s.params.tgtW * s.params.tgtH →
    s.cellSource k ≤ s.ds.srcW.toNat * s.ds.srcH.toNat - 1

/-- R225, R233: q(g) is `g * MAXB / 255` rounded to the nearest integer, no tie exists, the clamp never fires, q(0) = 0 and
q(255) = MAXB. -/
def Obligations.RescaleRoundsToNearest : Prop :=
  ∀ maxb g : Nat, g ≤ 255 →
    quantize maxb g = (2 * g * maxb + 255) / 510 ∧ quantize maxb g ≤ maxb ∧
    2 * (255 * quantize maxb g) < 2 * (g * maxb) + 255 ∧ 2 * (g * maxb) < 2 * (255 * quantize maxb g) + 255 ∧
    quantize maxb 0 = 0 ∧ quantize maxb 255 = maxb

/-- R231: with SW = TGT_W and SH = TGT_H every cell samples its own pixel. -/
def Obligations.EqualSizesSampleIdentically : Prop :=
  (∀ T t : Nat, t < T → sample T T t = t) ∧
  ∀ (s : State) (k : Nat), s.ds.srcW.toNat = s.params.tgtW → s.ds.srcH.toNat = s.params.tgtH →
    k < s.params.tgtW * s.params.tgtH →
    s.cellSource k = k ∧ s.cellValue k = BitVec.ofNat 8 (quantize s.params.maxb (s.bufByte .pix k).toNat)

/-- R228 (with R227, R233): a DS run left to itself takes exactly `TGT_W * TGT_H` steps and ends with OK; every OUT byte then holds
its cell's brightness, at most MAXB, and no other byte has changed. -/
def Obligations.DsRunFillsOut : Prop :=
  ∀ s : State, s.Inv → s.status.dsBusy = true → s.ds.cell = 0#32 → s.turns = [] →
    (∀ j < s.params.tgtW * s.params.tgtH, ∃ u, Host.Core.run Sys2Proof.core j s = .next u ∧
      u.status.dsBusy = true ∧ u.ds.cell.toNat = j) ∧
    ∃ t, Host.Core.run Sys2Proof.core (s.params.tgtW * s.params.tgtH) s = .next t ∧
      t.status = { s.status with dsBusy := false, dsDone := true, dsResult := .ok } ∧
      t.ds.cell.toNat = s.params.tgtW * s.params.tgtH ∧
      (∀ k < s.params.tgtW * s.params.tgtH,
        (t.byteAt (Buf.out.base + k)).toNat = cellFormula s k ∧ cellFormula s k ≤ s.params.maxb) ∧
      ∀ x, x < Buf.out.base ∨ Buf.out.base + s.params.tgtW * s.params.tgtH ≤ x → t.byteAt x = s.byteAt x

/-- R230: OUT after a DS run is a function of SW, SH, the parameters and PIX bytes `0 .. SW*SH-1` alone: two runs that agree on
these fill OUT alike, whatever else differs. -/
def Obligations.DsResultDependsOnRasterOnly : Prop :=
  ∀ s s' : State, s.Inv → s'.Inv → s.status.dsBusy = true → s'.status.dsBusy = true →
    s.ds.cell = 0#32 → s'.ds.cell = 0#32 → s.turns = [] → s'.turns = [] →
    s.params.tgtW = s'.params.tgtW → s.params.tgtH = s'.params.tgtH → s.params.maxb = s'.params.maxb →
    s.ds.srcW = s'.ds.srcW → s.ds.srcH = s'.ds.srcH →
    (∀ k < s.ds.srcW.toNat * s.ds.srcH.toNat, s.bufByte .pix k = s'.bufByte .pix k) →
    ∃ t t', Host.Core.run Sys2Proof.core (s.params.tgtW * s.params.tgtH) s = .next t ∧
      Host.Core.run Sys2Proof.core (s.params.tgtW * s.params.tgtH) s' = .next t' ∧
      ∀ k < s.params.tgtW * s.params.tgtH, t.bufByte .out k = t'.bufByte .out k

/-- R232: a raster of one value g gives OUT of q(g) everywhere. -/
def Obligations.UniformRasterGivesUniformOut : Prop :=
  ∀ (s : State) (g : Byte), s.Inv → s.status.dsBusy = true → s.ds.cell = 0#32 → s.turns = [] →
    (∀ k < s.ds.srcW.toNat * s.ds.srcH.toNat, s.bufByte .pix k = g) →
    ∃ t, Host.Core.run Sys2Proof.core (s.params.tgtW * s.params.tgtH) s = .next t ∧
      ∀ k < s.params.tgtW * s.params.tgtH, (t.bufByte .out k).toNat = quantize s.params.maxb g.toNat

/-! ## Host pseudo-instructions -/

/-- R114: the expansions of CMD, POLL, WAITIDLE, FILL and DUMP, and what WAITIDLE waits for: its read of STATUS ends it exactly when
no engine is busy (R292). Who moves between a loop's reads is the model's own list (log 13). -/
def Obligations.PseudoInstructionsExpand : Prop :=
  (∀ w : Word, cmdTxns w = [.wr 0x10#32 4 w]) ∧
  (∀ w : Word, (Pseudo.cmd w).turns = [.host (.wr 0x10#32 4 w)]) ∧
  (∀ (off mask value : Word) (between : List (List Agent)),
    (Pseudo.poll off mask value between).turns = [.poll ⟨off, mask, value, between⟩]) ∧
  (∀ between : List (List Agent), (Pseudo.waitIdle between).turns = [.poll ⟨0x14#32, 0x3#32, 0x0#32, between⟩]) ∧
  (∀ (b : Buf) (k : Nat) (xs : List Byte), (Pseudo.fill b k xs).turns = (fillTxns b k xs).map .host) ∧
  (∀ (b : Buf) (k n : Nat), (Pseudo.dump b k n).turns = (dumpTxns b k n).map .host) ∧
  (∀ (b : Buf) (k : Nat) (xs : List Byte), (fillTxns b k xs).length = xs.length ∧
    ∀ i < xs.length, (fillTxns b k xs)[i]? =
      some (.wr (BitVec.ofNat 32 (b.base + (k + i))) 1 (BitVec.ofNat 32 (xs.getD i 0#8).toNat))) ∧
  (∀ (b : Buf) (k n : Nat), (dumpTxns b k n).length = n ∧
    ∀ i < n, (dumpTxns b k n)[i]? = some (.rd (BitVec.ofNat 32 (b.base + (k + i))) 1)) ∧
  (∀ off mask value r : Word, pollTxn off = .rd off 4 ∧ (pollDone mask value r = true ↔ r &&& mask = value)) ∧
  ∀ s : State, waitIdleDone (s.regRead 0x14) = !s.busy

/-- R114: POLL repeats `RD32 <off>` until `(rdata & mask) == value`. Its turn performs the read; a value that matches ends the loop;
else the other agents' turns of this round come, then the next read, before any later turn. With no round listed a busy engine takes
one step between two reads (R297), and with no engine busy the next read follows at once (log 13). -/
def Obligations.PollRepeatsUntilItMatches : Prop :=
  ∀ (s : State) (p : Poll) (ts : List Turn), s.turns = .poll p :: ts →
    ∃ (v : Word) (t : State),
      exec (decodeTxn s.ctx (.rd p.off 4)) { s with turns := ts } = .next t ∧ t.rdata = some v ∧ t.turns = ts ∧
      (v &&& p.mask = p.value → step s = .next t) ∧
      (v &&& p.mask ≠ p.value →
        (∀ (agents : List Agent) (more : List (List Agent)), p.between = agents :: more →
          step s = .next { t with turns := agents.map Agent.turn ++ .poll { p with between := more } :: ts }) ∧
        (p.between = [] → s.status.lzwBusy = true → step s = .next { t with turns := .lzw :: .poll p :: ts }) ∧
        (p.between = [] → s.status.lzwBusy = false → s.status.dsBusy = true →
          step s = .next { t with turns := .ds :: .poll p :: ts }) ∧
        (p.between = [] → s.busy = false → step s = .next { t with turns := .poll p :: ts }))

/-- R114 with R297 (and R194, R228): WAITIDLE ends, whoever moves between its reads, and what it ends on is a read of STATUS with no
engine busy, after which the host goes on. -/
def Obligations.WaitIdleEnds : Prop :=
  ∀ (s : State) (between : List (List Agent)) (ts : List Turn), s.Inv → s.turns = .poll (waitIdle between) :: ts →
    ∃ (k : Nat) (t : State), Host.Core.run Sys2Proof.core k s = .next t ∧ t.turns = ts ∧ t.busy = false ∧
      t.rdata = some t.status.word
end

