-- ==== Sys2Proof/Laws/State.lean ====
section
/-! SUPPORT. One lemma per field per update of State, true by rfl, so that no later proof unfolds an update. -/

namespace Sys2Proof.Machine

/-! ### reply -/

@[simp] theorem State.reply_params (v : Word) (s : State) : (s.reply v).params = s.params := rfl
@[simp] theorem State.reply_status (v : Word) (s : State) : (s.reply v).status = s.status := rfl
@[simp] theorem State.reply_lzw (v : Word) (s : State) : (s.reply v).lzw = s.lzw := rfl
@[simp] theorem State.reply_ds (v : Word) (s : State) : (s.reply v).ds = s.ds := rfl
@[simp] theorem State.reply_dict (v : Word) (s : State) : (s.reply v).dict = s.dict := rfl
@[simp] theorem State.reply_mem (v : Word) (s : State) : (s.reply v).mem = s.mem := rfl
@[simp] theorem State.reply_powerOns (v : Word) (s : State) : (s.reply v).powerOns = s.powerOns := rfl
@[simp] theorem State.reply_rdata (v : Word) (s : State) : (s.reply v).rdata = some v := rfl
@[simp] theorem State.reply_turns (v : Word) (s : State) : (s.reply v).turns = s.turns := rfl

/-! ### setCmderr -/

@[simp] theorem State.setCmderr_params (s : State) : (s.setCmderr).params = s.params := rfl
@[simp] theorem State.setCmderr_status (s : State) : (s.setCmderr).status = { s.status with cmderr := true } := rfl
@[simp] theorem State.setCmderr_lzw (s : State) : (s.setCmderr).lzw = s.lzw := rfl
@[simp] theorem State.setCmderr_ds (s : State) : (s.setCmderr).ds = s.ds := rfl
@[simp] theorem State.setCmderr_dict (s : State) : (s.setCmderr).dict = s.dict := rfl
@[simp] theorem State.setCmderr_mem (s : State) : (s.setCmderr).mem = s.mem := rfl
@[simp] theorem State.setCmderr_powerOns (s : State) : (s.setCmderr).powerOns = s.powerOns := rfl
@[simp] theorem State.setCmderr_rdata (s : State) : (s.setCmderr).rdata = s.rdata := rfl
@[simp] theorem State.setCmderr_turns (s : State) : (s.setCmderr).turns = s.turns := rfl

/-! ### setAccerr -/

@[simp] theorem State.setAccerr_params (s : State) : (s.setAccerr).params = s.params := rfl
@[simp] theorem State.setAccerr_status (s : State) : (s.setAccerr).status = { s.status with accerr := true } := rfl
@[simp] theorem State.setAccerr_lzw (s : State) : (s.setAccerr).lzw = s.lzw := rfl
@[simp] theorem State.setAccerr_ds (s : State) : (s.setAccerr).ds = s.ds := rfl
@[simp] theorem State.setAccerr_dict (s : State) : (s.setAccerr).dict = s.dict := rfl
@[simp] theorem State.setAccerr_mem (s : State) : (s.setAccerr).mem = s.mem := rfl
@[simp] theorem State.setAccerr_powerOns (s : State) : (s.setAccerr).powerOns = s.powerOns := rfl
@[simp] theorem State.setAccerr_rdata (s : State) : (s.setAccerr).rdata = s.rdata := rfl
@[simp] theorem State.setAccerr_turns (s : State) : (s.setAccerr).turns = s.turns := rfl

/-! ### setBuserr -/

@[simp] theorem State.setBuserr_params (s : State) : (s.setBuserr).params = s.params := rfl
@[simp] theorem State.setBuserr_status (s : State) : (s.setBuserr).status = { s.status with buserr := true } := rfl
@[simp] theorem State.setBuserr_lzw (s : State) : (s.setBuserr).lzw = s.lzw := rfl
@[simp] theorem State.setBuserr_ds (s : State) : (s.setBuserr).ds = s.ds := rfl
@[simp] theorem State.setBuserr_dict (s : State) : (s.setBuserr).dict = s.dict := rfl
@[simp] theorem State.setBuserr_mem (s : State) : (s.setBuserr).mem = s.mem := rfl
@[simp] theorem State.setBuserr_powerOns (s : State) : (s.setBuserr).powerOns = s.powerOns := rfl
@[simp] theorem State.setBuserr_rdata (s : State) : (s.setBuserr).rdata = s.rdata := rfl
@[simp] theorem State.setBuserr_turns (s : State) : (s.setBuserr).turns = s.turns := rfl

/-! ### setByte -/

@[simp] theorem State.setByte_params (a : Nat) (b : Byte) (s : State) : (s.setByte a b).params = s.params := rfl
@[simp] theorem State.setByte_status (a : Nat) (b : Byte) (s : State) : (s.setByte a b).status = s.status := rfl
@[simp] theorem State.setByte_lzw (a : Nat) (b : Byte) (s : State) : (s.setByte a b).lzw = s.lzw := rfl
@[simp] theorem State.setByte_ds (a : Nat) (b : Byte) (s : State) : (s.setByte a b).ds = s.ds := rfl
@[simp] theorem State.setByte_dict (a : Nat) (b : Byte) (s : State) : (s.setByte a b).dict = s.dict := rfl
@[simp] theorem State.setByte_mem (a : Nat) (b : Byte) (s : State) : (s.setByte a b).mem = Memory.set a b s.mem := rfl
@[simp] theorem State.setByte_powerOns (a : Nat) (b : Byte) (s : State) : (s.setByte a b).powerOns = s.powerOns := rfl
@[simp] theorem State.setByte_rdata (a : Nat) (b : Byte) (s : State) : (s.setByte a b).rdata = s.rdata := rfl
@[simp] theorem State.setByte_turns (a : Nat) (b : Byte) (s : State) : (s.setByte a b).turns = s.turns := rfl

/-! ### stopLzw -/

@[simp] theorem State.stopLzw_params (r : LzwStop) (s : State) : (s.stopLzw r).params = s.params := rfl
@[simp] theorem State.stopLzw_status (r : LzwStop) (s : State) : (s.stopLzw r).status = { s.status with
      lzwBusy := false, lzwDone := true, lzwStop := r, short := shortAt r s.lzw.outCount s.lzw.expect } := rfl
@[simp] theorem State.stopLzw_lzw (r : LzwStop) (s : State) : (s.stopLzw r).lzw = s.lzw := rfl
@[simp] theorem State.stopLzw_ds (r : LzwStop) (s : State) : (s.stopLzw r).ds = s.ds := rfl
@[simp] theorem State.stopLzw_dict (r : LzwStop) (s : State) : (s.stopLzw r).dict = s.dict := rfl
@[simp] theorem State.stopLzw_mem (r : LzwStop) (s : State) : (s.stopLzw r).mem = s.mem := rfl
@[simp] theorem State.stopLzw_powerOns (r : LzwStop) (s : State) : (s.stopLzw r).powerOns = s.powerOns := rfl
@[simp] theorem State.stopLzw_rdata (r : LzwStop) (s : State) : (s.stopLzw r).rdata = s.rdata := rfl
@[simp] theorem State.stopLzw_turns (r : LzwStop) (s : State) : (s.stopLzw r).turns = s.turns := rfl

/-! ### stopDs -/

@[simp] theorem State.stopDs_params (r : DsResult) (s : State) : (s.stopDs r).params = s.params := rfl
@[simp] theorem State.stopDs_status (r : DsResult) (s : State) : (s.stopDs r).status = { s.status with dsBusy := false, dsDone := true, dsResult := r } := rfl
@[simp] theorem State.stopDs_lzw (r : DsResult) (s : State) : (s.stopDs r).lzw = s.lzw := rfl
@[simp] theorem State.stopDs_ds (r : DsResult) (s : State) : (s.stopDs r).ds = s.ds := rfl
@[simp] theorem State.stopDs_dict (r : DsResult) (s : State) : (s.stopDs r).dict = s.dict := rfl
@[simp] theorem State.stopDs_mem (r : DsResult) (s : State) : (s.stopDs r).mem = s.mem := rfl
@[simp] theorem State.stopDs_powerOns (r : DsResult) (s : State) : (s.stopDs r).powerOns = s.powerOns := rfl
@[simp] theorem State.stopDs_rdata (r : DsResult) (s : State) : (s.stopDs r).rdata = s.rdata := rfl
@[simp] theorem State.stopDs_turns (r : DsResult) (s : State) : (s.stopDs r).turns = s.turns := rfl

/-! ### resetRegisters -/

@[simp] theorem State.resetRegisters_params (s : State) : (s.resetRegisters).params = s.params := rfl
@[simp] theorem State.resetRegisters_status (s : State) : (s.resetRegisters).status = .reset := rfl
@[simp] theorem State.resetRegisters_lzw (s : State) : (s.resetRegisters).lzw = .reset := rfl
@[simp] theorem State.resetRegisters_ds (s : State) : (s.resetRegisters).ds = .reset := rfl
@[simp] theorem State.resetRegisters_dict (s : State) : (s.resetRegisters).dict = [] := rfl
@[simp] theorem State.resetRegisters_mem (s : State) : (s.resetRegisters).mem = s.mem := rfl
@[simp] theorem State.resetRegisters_powerOns (s : State) : (s.resetRegisters).powerOns = s.powerOns := rfl
@[simp] theorem State.resetRegisters_rdata (s : State) : (s.resetRegisters).rdata = s.rdata := rfl
@[simp] theorem State.resetRegisters_turns (s : State) : (s.resetRegisters).turns = s.turns := rfl

/-! ### powerOn -/

@[simp] theorem State.powerOn_params (s : State) : (s.powerOn).params = s.params := rfl
@[simp] theorem State.powerOn_status (s : State) : (s.powerOn).status = .reset := rfl
@[simp] theorem State.powerOn_lzw (s : State) : (s.powerOn).lzw = .reset := rfl
@[simp] theorem State.powerOn_ds (s : State) : (s.powerOn).ds = .reset := rfl
@[simp] theorem State.powerOn_dict (s : State) : (s.powerOn).dict = [] := rfl
@[simp] theorem State.powerOn_mem (s : State) : (s.powerOn).mem = [] := rfl
@[simp] theorem State.powerOn_powerOns (s : State) : (s.powerOn).powerOns = s.powerOns + 1 := rfl
@[simp] theorem State.powerOn_rdata (s : State) : (s.powerOn).rdata = s.rdata := rfl
@[simp] theorem State.powerOn_turns (s : State) : (s.powerOn).turns = s.turns := rfl

/-! ### initDict -/

@[simp] theorem State.initDict_params (s : State) : (s.initDict).params = s.params := rfl
@[simp] theorem State.initDict_status (s : State) : (s.initDict).status = s.status := rfl
@[simp] theorem State.initDict_lzw (s : State) : (s.initDict).lzw = { s.lzw with
      width := BitVec.ofNat 4 (s.lzw.mcs.toNat + 1), next := BitVec.ofNat 13 (clearCode s.lzw.mcs + 2), prevv := false } := rfl
@[simp] theorem State.initDict_ds (s : State) : (s.initDict).ds = s.ds := rfl
@[simp] theorem State.initDict_dict (s : State) : (s.initDict).dict = s.dict := rfl
@[simp] theorem State.initDict_mem (s : State) : (s.initDict).mem = s.mem := rfl
@[simp] theorem State.initDict_powerOns (s : State) : (s.initDict).powerOns = s.powerOns := rfl
@[simp] theorem State.initDict_rdata (s : State) : (s.initDict).rdata = s.rdata := rfl
@[simp] theorem State.initDict_turns (s : State) : (s.initDict).turns = s.turns := rfl

/-! ### advance -/

@[simp] theorem State.advance_params (s : State) : (s.advance).params = s.params := rfl
@[simp] theorem State.advance_status (s : State) : (s.advance).status = s.status := rfl
@[simp] theorem State.advance_lzw (s : State) : (s.advance).lzw = { s.lzw with
      bitpos := BitVec.ofNat 32 (s.lzw.bitpos.toNat + s.lzw.width.toNat) } := rfl
@[simp] theorem State.advance_ds (s : State) : (s.advance).ds = s.ds := rfl
@[simp] theorem State.advance_dict (s : State) : (s.advance).dict = s.dict := rfl
@[simp] theorem State.advance_mem (s : State) : (s.advance).mem = s.mem := rfl
@[simp] theorem State.advance_powerOns (s : State) : (s.advance).powerOns = s.powerOns := rfl
@[simp] theorem State.advance_rdata (s : State) : (s.advance).rdata = s.rdata := rfl
@[simp] theorem State.advance_turns (s : State) : (s.advance).turns = s.turns := rfl

/-! ### storeEntry -/

@[simp] theorem State.storeEntry_params (e : DictEntry) (s : State) : (s.storeEntry e).params = s.params := rfl
@[simp] theorem State.storeEntry_status (e : DictEntry) (s : State) : (s.storeEntry e).status = s.status := rfl
@[simp] theorem State.storeEntry_lzw (e : DictEntry) (s : State) : (s.storeEntry e).lzw = { s.lzw with next := BitVec.ofNat 13 (s.lzw.next.toNat + 1) } := rfl
@[simp] theorem State.storeEntry_ds (e : DictEntry) (s : State) : (s.storeEntry e).ds = s.ds := rfl
@[simp] theorem State.storeEntry_dict (e : DictEntry) (s : State) : (s.storeEntry e).dict = Memory.set s.lzw.next.toNat e s.dict := rfl
@[simp] theorem State.storeEntry_mem (e : DictEntry) (s : State) : (s.storeEntry e).mem = s.mem := rfl
@[simp] theorem State.storeEntry_powerOns (e : DictEntry) (s : State) : (s.storeEntry e).powerOns = s.powerOns := rfl
@[simp] theorem State.storeEntry_rdata (e : DictEntry) (s : State) : (s.storeEntry e).rdata = s.rdata := rfl
@[simp] theorem State.storeEntry_turns (e : DictEntry) (s : State) : (s.storeEntry e).turns = s.turns := rfl

/-! ### setPrev -/

@[simp] theorem State.setPrev_params (c : Code) (s : State) : (s.setPrev c).params = s.params := rfl
@[simp] theorem State.setPrev_status (c : Code) (s : State) : (s.setPrev c).status = s.status := rfl
@[simp] theorem State.setPrev_lzw (c : Code) (s : State) : (s.setPrev c).lzw = { s.lzw with prev := c, prevv := true } := rfl
@[simp] theorem State.setPrev_ds (c : Code) (s : State) : (s.setPrev c).ds = s.ds := rfl
@[simp] theorem State.setPrev_dict (c : Code) (s : State) : (s.setPrev c).dict = s.dict := rfl
@[simp] theorem State.setPrev_mem (c : Code) (s : State) : (s.setPrev c).mem = s.mem := rfl
@[simp] theorem State.setPrev_powerOns (c : Code) (s : State) : (s.setPrev c).powerOns = s.powerOns := rfl
@[simp] theorem State.setPrev_rdata (c : Code) (s : State) : (s.setPrev c).rdata = s.rdata := rfl
@[simp] theorem State.setPrev_turns (c : Code) (s : State) : (s.setPrev c).turns = s.turns := rfl

/-! ### clearLzwRun -/

@[simp] theorem State.clearLzwRun_params (s : State) : (s.clearLzwRun).params = s.params := rfl
@[simp] theorem State.clearLzwRun_status (s : State) : (s.clearLzwRun).status = { s.status with lzwDone := false, lzwStop := .none, short := false } := rfl
@[simp] theorem State.clearLzwRun_lzw (s : State) : (s.clearLzwRun).lzw = { s.lzw with
      outCount := 0#32, bitpos := 0#32, width := 0#4, prevv := false, next := 0#13, prev := 0#12, errCode := 0#12,
      errBitpos := 0#32 } := rfl
@[simp] theorem State.clearLzwRun_ds (s : State) : (s.clearLzwRun).ds = s.ds := rfl
@[simp] theorem State.clearLzwRun_dict (s : State) : (s.clearLzwRun).dict = s.dict := rfl
@[simp] theorem State.clearLzwRun_mem (s : State) : (s.clearLzwRun).mem = s.mem := rfl
@[simp] theorem State.clearLzwRun_powerOns (s : State) : (s.clearLzwRun).powerOns = s.powerOns := rfl
@[simp] theorem State.clearLzwRun_rdata (s : State) : (s.clearLzwRun).rdata = s.rdata := rfl
@[simp] theorem State.clearLzwRun_turns (s : State) : (s.clearLzwRun).turns = s.turns := rfl

/-! ### clearDsRun -/

@[simp] theorem State.clearDsRun_params (s : State) : (s.clearDsRun).params = s.params := rfl
@[simp] theorem State.clearDsRun_status (s : State) : (s.clearDsRun).status = { s.status with dsDone := false, dsResult := .none } := rfl
@[simp] theorem State.clearDsRun_lzw (s : State) : (s.clearDsRun).lzw = s.lzw := rfl
@[simp] theorem State.clearDsRun_ds (s : State) : (s.clearDsRun).ds = { s.ds with cell := 0#32 } := rfl
@[simp] theorem State.clearDsRun_dict (s : State) : (s.clearDsRun).dict = s.dict := rfl
@[simp] theorem State.clearDsRun_mem (s : State) : (s.clearDsRun).mem = s.mem := rfl
@[simp] theorem State.clearDsRun_powerOns (s : State) : (s.clearDsRun).powerOns = s.powerOns := rfl
@[simp] theorem State.clearDsRun_rdata (s : State) : (s.clearDsRun).rdata = s.rdata := rfl
@[simp] theorem State.clearDsRun_turns (s : State) : (s.clearDsRun).turns = s.turns := rfl

/-! ### emitByte -/

@[simp] theorem State.emitByte_params (b : Byte) (s : State) : (s.emitByte b).params = s.params := by
  unfold State.emitByte; split <;> rfl
@[simp] theorem State.emitByte_status (b : Byte) (s : State) : (s.emitByte b).status = s.status := by
  unfold State.emitByte; split <;> rfl
@[simp] theorem State.emitByte_ds (b : Byte) (s : State) : (s.emitByte b).ds = s.ds := by
  unfold State.emitByte; split <;> rfl
@[simp] theorem State.emitByte_dict (b : Byte) (s : State) : (s.emitByte b).dict = s.dict := by
  unfold State.emitByte; split <;> rfl
@[simp] theorem State.emitByte_powerOns (b : Byte) (s : State) : (s.emitByte b).powerOns = s.powerOns := by
  unfold State.emitByte; split <;> rfl
@[simp] theorem State.emitByte_rdata (b : Byte) (s : State) : (s.emitByte b).rdata = s.rdata := by
  unfold State.emitByte; split <;> rfl
@[simp] theorem State.emitByte_turns (b : Byte) (s : State) : (s.emitByte b).turns = s.turns := by
  unfold State.emitByte; split <;> rfl

/-! ### grow -/

@[simp] theorem State.grow_params (s : State) : (s.grow).params = s.params := by
  unfold State.grow; split <;> rfl
@[simp] theorem State.grow_status (s : State) : (s.grow).status = s.status := by
  unfold State.grow; split <;> rfl
@[simp] theorem State.grow_ds (s : State) : (s.grow).ds = s.ds := by
  unfold State.grow; split <;> rfl
@[simp] theorem State.grow_dict (s : State) : (s.grow).dict = s.dict := by
  unfold State.grow; split <;> rfl
@[simp] theorem State.grow_mem (s : State) : (s.grow).mem = s.mem := by
  unfold State.grow; split <;> rfl
@[simp] theorem State.grow_powerOns (s : State) : (s.grow).powerOns = s.powerOns := by
  unfold State.grow; split <;> rfl
@[simp] theorem State.grow_rdata (s : State) : (s.grow).rdata = s.rdata := by
  unfold State.grow; split <;> rfl
@[simp] theorem State.grow_turns (s : State) : (s.grow).turns = s.turns := by
  unfold State.grow; split <;> rfl

/-! ### configWrite -/

@[simp] theorem State.configWrite_params (off : Nat) (v : Word) (s : State) : (s.configWrite off v).params = s.params := by
  unfold State.configWrite; split <;> rfl
@[simp] theorem State.configWrite_status (off : Nat) (v : Word) (s : State) : (s.configWrite off v).status = s.status := by
  unfold State.configWrite; split <;> rfl
@[simp] theorem State.configWrite_dict (off : Nat) (v : Word) (s : State) : (s.configWrite off v).dict = s.dict := by
  unfold State.configWrite; split <;> rfl
@[simp] theorem State.configWrite_mem (off : Nat) (v : Word) (s : State) : (s.configWrite off v).mem = s.mem := by
  unfold State.configWrite; split <;> rfl
@[simp] theorem State.configWrite_powerOns (off : Nat) (v : Word) (s : State) : (s.configWrite off v).powerOns = s.powerOns := by
  unfold State.configWrite; split <;> rfl
@[simp] theorem State.configWrite_rdata (off : Nat) (v : Word) (s : State) : (s.configWrite off v).rdata = s.rdata := by
  unfold State.configWrite; split <;> rfl
@[simp] theorem State.configWrite_turns (off : Nat) (v : Word) (s : State) : (s.configWrite off v).turns = s.turns := by
  unfold State.configWrite; split <;> rfl

/-! ### emit and memWrite -/

@[simp] theorem State.emit_params (q : List Byte) (s : State) : (s.emit q).params = s.params := by
  induction q generalizing s with
  | nil => rfl
  | cons b bs ih => simp [State.emit, ih]
@[simp] theorem State.emit_status (q : List Byte) (s : State) : (s.emit q).status = s.status := by
  induction q generalizing s with
  | nil => rfl
  | cons b bs ih => simp [State.emit, ih]
@[simp] theorem State.emit_ds (q : List Byte) (s : State) : (s.emit q).ds = s.ds := by
  induction q generalizing s with
  | nil => rfl
  | cons b bs ih => simp [State.emit, ih]
@[simp] theorem State.emit_dict (q : List Byte) (s : State) : (s.emit q).dict = s.dict := by
  induction q generalizing s with
  | nil => rfl
  | cons b bs ih => simp [State.emit, ih]
@[simp] theorem State.emit_powerOns (q : List Byte) (s : State) : (s.emit q).powerOns = s.powerOns := by
  induction q generalizing s with
  | nil => rfl
  | cons b bs ih => simp [State.emit, ih]
@[simp] theorem State.emit_rdata (q : List Byte) (s : State) : (s.emit q).rdata = s.rdata := by
  induction q generalizing s with
  | nil => rfl
  | cons b bs ih => simp [State.emit, ih]
@[simp] theorem State.emit_turns (q : List Byte) (s : State) : (s.emit q).turns = s.turns := by
  induction q generalizing s with
  | nil => rfl
  | cons b bs ih => simp [State.emit, ih]
@[simp] theorem State.memWrite_params (a n v : Nat) (s : State) : (s.memWrite a n v).params = s.params := by
  induction n generalizing a v s with
  | zero => rfl
  | succ n ih => simp [State.memWrite, ih]
@[simp] theorem State.memWrite_status (a n v : Nat) (s : State) : (s.memWrite a n v).status = s.status := by
  induction n generalizing a v s with
  | zero => rfl
  | succ n ih => simp [State.memWrite, ih]
@[simp] theorem State.memWrite_lzw (a n v : Nat) (s : State) : (s.memWrite a n v).lzw = s.lzw := by
  induction n generalizing a v s with
  | zero => rfl
  | succ n ih => simp [State.memWrite, ih]
@[simp] theorem State.memWrite_ds (a n v : Nat) (s : State) : (s.memWrite a n v).ds = s.ds := by
  induction n generalizing a v s with
  | zero => rfl
  | succ n ih => simp [State.memWrite, ih]
@[simp] theorem State.memWrite_dict (a n v : Nat) (s : State) : (s.memWrite a n v).dict = s.dict := by
  induction n generalizing a v s with
  | zero => rfl
  | succ n ih => simp [State.memWrite, ih]
@[simp] theorem State.memWrite_powerOns (a n v : Nat) (s : State) : (s.memWrite a n v).powerOns = s.powerOns := by
  induction n generalizing a v s with
  | zero => rfl
  | succ n ih => simp [State.memWrite, ih]
@[simp] theorem State.memWrite_rdata (a n v : Nat) (s : State) : (s.memWrite a n v).rdata = s.rdata := by
  induction n generalizing a v s with
  | zero => rfl
  | succ n ih => simp [State.memWrite, ih]
@[simp] theorem State.memWrite_turns (a n v : Nat) (s : State) : (s.memWrite a n v).turns = s.turns := by
  induction n generalizing a v s with
  | zero => rfl
  | succ n ih => simp [State.memWrite, ih]

/-! ### repeatPoll -/
@[simp] theorem State.repeatPoll_params (p : Poll) (s : State) : (s.repeatPoll p).params = s.params := rfl
@[simp] theorem State.repeatPoll_status (p : Poll) (s : State) : (s.repeatPoll p).status = s.status := rfl
@[simp] theorem State.repeatPoll_lzw (p : Poll) (s : State) : (s.repeatPoll p).lzw = s.lzw := rfl
@[simp] theorem State.repeatPoll_ds (p : Poll) (s : State) : (s.repeatPoll p).ds = s.ds := rfl
@[simp] theorem State.repeatPoll_dict (p : Poll) (s : State) : (s.repeatPoll p).dict = s.dict := rfl
@[simp] theorem State.repeatPoll_mem (p : Poll) (s : State) : (s.repeatPoll p).mem = s.mem := rfl
@[simp] theorem State.repeatPoll_powerOns (p : Poll) (s : State) : (s.repeatPoll p).powerOns = s.powerOns := rfl
@[simp] theorem State.repeatPoll_rdata (p : Poll) (s : State) : (s.repeatPoll p).rdata = s.rdata := rfl

end Sys2Proof.Machine
end

