-- ==== Sys2Proof/Laws/Memory.lean ====
section
/-! SUPPORT. Memory: a read after a write, the canonical form, and what stores to buffers leave of the other bytes. -/

namespace Sys2Proof.Machine

variable {α : Type}

@[simp] theorem Memory.get?_nil (a : Nat) : Memory.get? a ([] : List (Nat × α)) = none := rfl

@[simp] theorem Memory.get?_set_same (a : Nat) (v : α) (m : List (Nat × α)) :
    Memory.get? a (Memory.set a v m) = some v := by
  induction m with
  | nil => simp [Memory.set, Memory.get?]
  | cons c m ih =>
    obtain ⟨k, w⟩ := c
    unfold Memory.set
    split_ifs with h1 h2
    · simp [Memory.get?]
    · simp [Memory.get?]
    · simp [Memory.get?, Ne.symm h2, ih]

theorem Memory.get?_set_other {a b : Nat} (h : b ≠ a) (v : α) (m : List (Nat × α)) :
    Memory.get? b (Memory.set a v m) = Memory.get? b m := by
  induction m with
  | nil => simp [Memory.set, Memory.get?, Ne.symm h]
  | cons c m ih =>
    obtain ⟨k, w⟩ := c
    unfold Memory.set
    split_ifs with h1 h2
    · simp [Memory.get?, Ne.symm h]
    · subst h2
      simp [Memory.get?, Ne.symm h]
    · simp [Memory.get?, ih]

/-- Every listed pair after a store is the stored one or was listed. -/
theorem Memory.mem_set {a : Nat} {v : α} {m : List (Nat × α)} {c : Nat × α} (h : c ∈ Memory.set a v m) :
    c = (a, v) ∨ c ∈ m := by
  induction m with
  | nil => simpa [Memory.set] using h
  | cons d m ih =>
    obtain ⟨k, w⟩ := d
    unfold Memory.set at h
    split_ifs at h with h1 h2
    · simpa using h
    · simp only [List.mem_cons] at h ⊢
      tauto
    · simp only [List.mem_cons] at h ⊢
      rcases h with h | h
      · exact .inr (.inl h)
      · rcases ih h with h | h
        · exact .inl h
        · exact .inr (.inr h)

/-- A store keeps the canonical form. -/
theorem Memory.wf_set (a : Nat) (v : α) {m : List (Nat × α)} (h : Memory.wf m) : Memory.wf (Memory.set a v m) := by
  induction m with
  | nil => simp [Memory.set, Memory.wf]
  | cons c m ih =>
    obtain ⟨k, w⟩ := c
    simp only [Memory.wf, List.map_cons, List.pairwise_cons] at h
    obtain ⟨hk, hm⟩ := h
    unfold Memory.set
    split_ifs with h1 h2
    · simp only [Memory.wf, List.map_cons, List.pairwise_cons, List.mem_cons]
      refine ⟨?_, hk, hm⟩
      rintro x (rfl | hx)
      · exact h1
      · exact h1.trans (hk x hx)
    · subst h2
      exact List.pairwise_cons.2 ⟨hk, hm⟩
    · refine List.pairwise_cons.2 ⟨?_, ih hm⟩
      intro x hx
      obtain ⟨c, hc, rfl⟩ := List.mem_map.1 hx
      rcases Memory.mem_set hc with rfl | hc
      · exact lt_of_le_of_ne (not_lt.1 h1) (Ne.symm h2)
      · exact hk _ (List.mem_map_of_mem hc)

/-! ## Bytes -/

@[simp] theorem State.byteAt_setByte_same (a : Nat) (b : Byte) (s : State) : (s.setByte a b).byteAt a = b := by
  simp [State.byteAt]

theorem State.byteAt_setByte_other {a x : Nat} (h : x ≠ a) (b : Byte) (s : State) :
    (s.setByte a b).byteAt x = s.byteAt x := by
  simp [State.byteAt, Memory.get?_set_other h]

/-- A byte depends on the memory and the power-on count only. -/
theorem State.byteAt_congr {s t : State} (hm : t.mem = s.mem) (hp : t.powerOns = s.powerOns) (a : Nat) :
    t.byteAt a = s.byteAt a := by
  simp [State.byteAt, hm, hp]

/-- Byte `i` of a value, bits `8i+7 : 8i` (20_memory.md R73). -/
def byteOf (v i : Nat) : Byte := BitVec.ofNat 8 (v / 256 ^ i)

/-- `MemWrite` stores byte `i` of the value at `a + i` for `i < n`, and nothing else. -/
theorem State.byteAt_memWrite (a n v x : Nat) (s : State) :
    (s.memWrite a n v).byteAt x = if a ≤ x ∧ x < a + n then byteOf v (x - a) else s.byteAt x := by
  induction n generalizing a v s with
  | zero =>
    rw [if_neg (by omega)]
    rfl
  | succ n ih =>
    rw [State.memWrite, ih]
    rcases Nat.lt_trichotomy x a with h | rfl | h
    · rw [if_neg (by omega), if_neg (by omega), State.byteAt_setByte_other (by omega)]
    · rw [if_neg (by omega), if_pos (by omega)]
      simp [byteOf]
    · by_cases hx : x < a + (n + 1)
      · rw [if_pos (by omega), if_pos (by omega)]
        obtain ⟨d, hd⟩ : ∃ d, x - a = d + 1 := ⟨x - a - 1, by omega⟩
        rw [show x - (a + 1) = d by omega, hd, byteOf, byteOf, pow_succ', Nat.div_div_eq_div_mul]
      · rw [if_neg (by omega), if_neg (by omega), State.byteAt_setByte_other (by omega)]

/-- A read of `n` bytes fits `n` bytes: it is zero-extended (R112). -/
theorem State.memRead_lt (s : State) (a n : Nat) : s.memRead a n < 256 ^ n := by
  induction n generalizing a with
  | zero => exact Nat.one_pos
  | succ n ih =>
    have := ih (a + 1)
    have := (s.byteAt a).isLt
    rw [State.memRead, pow_succ]
    omega

/-- Byte `i` of a read is the byte at offset `a + i` (R73). -/
theorem State.memRead_byte (s : State) {n i : Nat} (a : Nat) (h : i < n) :
    s.memRead a n / 256 ^ i % 256 = (s.byteAt (a + i)).toNat := by
  induction n generalizing a i with
  | zero => omega
  | succ n ih =>
    have := (s.byteAt a).isLt
    rw [State.memRead]
    cases i with
    | zero =>
      simp only [pow_zero, Nat.add_zero]
      omega
    | succ i =>
      rw [pow_succ', ← Nat.div_div_eq_div_mul, show ((s.byteAt a).toNat + 256 * s.memRead (a + 1) n) / 256 =
        s.memRead (a + 1) n by omega, ih (a + 1) (by omega), show a + 1 + i = a + (i + 1) by omega]

theorem State.memWrite_wf (a n v : Nat) {s : State} (h : Memory.wf s.mem) : Memory.wf (s.memWrite a n v).mem := by
  induction n generalizing a v s with
  | zero => exact h
  | succ n ih => exact ih _ _ (Memory.wf_set _ _ h)

theorem State.emitByte_wf (b : Byte) {s : State} (h : Memory.wf s.mem) : Memory.wf (s.emitByte b).mem := by
  unfold State.emitByte
  split
  · exact Memory.wf_set _ _ h
  · exact h

theorem State.emit_wf (q : List Byte) {s : State} (h : Memory.wf s.mem) : Memory.wf (s.emit q).mem := by
  induction q generalizing s with
  | nil => exact h
  | cons b bs ih => exact ih (State.emitByte_wf b h)

theorem State.storeEntry_wf (e : DictEntry) {s : State} (h : Memory.wf s.dict) : Memory.wf (s.storeEntry e).dict :=
  Memory.wf_set _ _ h

end Sys2Proof.Machine
end

