-- ==== Sys2Proof/Laws/Dictionary.lean ====
section
/-! SUPPORT. The dictionary: what a member denotes, and that storing a new entry leaves the others' sequences alone
(10_state.md R51 to R53, 41_lzw_decode.md R190 to R192). -/

namespace Sys2Proof.Machine

/-- What `entryOk` says, with the entry named. -/
theorem State.entryOk_iff {s : State} {c : Nat} :
    s.entryOk c = true ↔ ∃ e, Memory.get? c s.dict = some e ∧ e.prefixCode.toNat < c ∧
      inDict s.lzw.mcs c e.prefixCode.toNat ∧ s.firstOf e.prefixCode = some e.first ∧
      s.lenOf e.prefixCode = some (e.len.toNat - 1) ∧ 2 ≤ e.len.toNat ∧ e.len.toNat ≤ c - clearCode s.lzw.mcs := by
  unfold State.entryOk
  split
  · simp [*]
  · rename_i e he
    simp only [he, Bool.and_eq_true, decide_eq_true_eq, Option.some.injEq, exists_eq_left', and_assoc]

/-- Every code from CLEAR + 2 up to NEXT has a well-founded entry. -/
abbrev State.Chained (s : State) : Prop :=
  ∀ c < s.lzw.next.toNat, clearCode s.lzw.mcs + 2 ≤ c → s.entryOk c = true

/-- A state's sequences and stored fields depend on MCS, NEXT and the dictionary only. -/
theorem State.chained_congr {s t : State} (hs : s.Chained) (hm : t.lzw.mcs = s.lzw.mcs) (hn : t.lzw.next = s.lzw.next)
    (hd : t.dict = s.dict) : t.Chained := by
  intro c hc h2
  rw [hn] at hc
  rw [hm] at h2
  obtain ⟨e, he, h1, h3, h4, h5, h6⟩ := State.entryOk_iff.1 (hs c hc h2)
  refine State.entryOk_iff.2 ⟨e, by rw [hd, he], h1, by rw [hm]; exact h3, ?_, ?_, by rw [hm]; exact h6⟩
  · simpa only [State.firstOf, hm, hd] using h4
  · simpa only [State.lenOf, hm, hd] using h5

theorem State.seq_congr {s t : State} (hm : t.lzw.mcs = s.lzw.mcs) (hn : t.lzw.next = s.lzw.next)
    (hd : t.dict = s.dict) (c : Code) : t.seq c = s.seq c := by
  simp only [State.seq, hm, hn, hd]

/-- More fuel gives the same sequence. -/
theorem seqFrom_mono {mcs : BitVec 8} {next : Nat} {d : List (Nat × DictEntry)} {n m c : Nat} {q : List Byte}
    (h : seqFrom mcs next d n c = some q) (hm : n ≤ m) : seqFrom mcs next d m c = some q := by
  induction n generalizing m c q with
  | zero => simp [seqFrom] at h
  | succ n ih =>
    obtain ⟨m, rfl⟩ : ∃ k, m = k + 1 := ⟨m - 1, by omega⟩
    simp only [seqFrom] at h ⊢
    split_ifs at h ⊢ with h1 h2
    · exact h
    · revert h
      match Memory.get? c d with
      | none => simp
      | some e =>
        simp only
        match hq : seqFrom mcs next d n e.prefixCode.toNat with
        | none => simp
        | some p =>
          rw [ih hq (by omega)]
          exact id

/-- With a chained dictionary every member denotes a sequence within `c + 1` links; FIRST and LEN are its first index and its
length. -/
theorem State.member_denotes {s : State} (hs : s.Chained) (c : Nat) (hc : inDict s.lzw.mcs s.lzw.next.toNat c)
    (hc' : c < 4096) :
    ∃ q, seqFrom s.lzw.mcs s.lzw.next.toNat s.dict (c + 1) c = some q ∧
      s.firstOf (BitVec.ofNat 12 c) = some (q.headD 0#8) ∧ s.lenOf (BitVec.ofNat 12 c) = some q.length ∧
      1 ≤ q.length ∧ (clearCode s.lzw.mcs + 2 ≤ c → 2 ≤ q.length ∧ q.length ≤ c - clearCode s.lzw.mcs) := by
  have hcn : (BitVec.ofNat 12 c).toNat = c := by
    rw [BitVec.toNat_ofNat]
    exact Nat.mod_eq_of_lt (by omega)
  by_cases h1 : c < clearCode s.lzw.mcs
  · refine ⟨[BitVec.ofNat 8 c], ?_, ?_, ?_, by simp, by omega⟩
    · simp [seqFrom, h1]
    · simp [State.firstOf, hcn, h1]
    · simp [State.lenOf, hcn, h1]
  have h2 : clearCode s.lzw.mcs + 2 ≤ c ∧ c < s.lzw.next.toNat := hc.resolve_left h1
  obtain ⟨e, he, hlt, hmem, hf, hl, hl2, hlb⟩ := State.entryOk_iff.1 (hs c h2.2 h2.1)
  have hmem' : inDict s.lzw.mcs s.lzw.next.toNat e.prefixCode.toNat := by
    rcases hmem with h | h
    · exact .inl h
    · exact .inr ⟨h.1, by omega⟩
  obtain ⟨p, hp, hpf, hpl, hp1, _⟩ := State.member_denotes hs e.prefixCode.toNat hmem' e.prefixCode.isLt
  have hpre : BitVec.ofNat 12 e.prefixCode.toNat = e.prefixCode := by simp
  rw [hpre] at hpf hpl
  rw [hpf] at hf
  rw [hpl] at hl
  simp only [Option.some.injEq] at hf hl
  have hp' : seqFrom s.lzw.mcs s.lzw.next.toNat s.dict c e.prefixCode.toNat = some p :=
    seqFrom_mono hp (by omega)
  refine ⟨p ++ [e.suffix], ?_, ?_, ?_, by simp, ?_⟩
  · rw [seqFrom, if_neg h1, if_pos h2, he]
    simp [hp']
  · rw [State.firstOf, hcn, if_neg h1, he]
    cases p with
    | nil => simp at hp1
    | cons x xs => simpa using hf.symm
  · rw [State.lenOf, hcn, if_neg h1, he]
    simp
    omega
  · intro _
    simp
    omega
termination_by c
decreasing_by exact hlt

/-- What a member denotes, by `seq`. -/
theorem State.seq_of_member {s : State} (hs : s.Chained) (c : Code)
    (hc : inDict s.lzw.mcs s.lzw.next.toNat c.toNat) :
    ∃ q, s.seq c = some q ∧ s.firstOf c = some (q.headD 0#8) ∧ s.lenOf c = some q.length ∧ 1 ≤ q.length ∧
      (clearCode s.lzw.mcs + 2 ≤ c.toNat → 2 ≤ q.length ∧ q.length ≤ c.toNat - clearCode s.lzw.mcs) := by
  obtain ⟨q, h1, h2, h3, h4, h5⟩ := State.member_denotes hs c.toNat hc c.isLt
  have : BitVec.ofNat 12 c.toNat = c := by simp
  rw [this] at h2 h3
  exact ⟨q, seqFrom_mono h1 (by have := c.isLt; simp only [dictCodes]; omega), h2, h3, h4, h5⟩

/-! ## Storing an entry at NEXT -/

/-- Entries below a code, and their prefixes below them, are all that its sequence reads. -/
theorem seqFrom_congr {mcs : BitVec 8} {next next' : Nat} {d d' : List (Nat × DictEntry)} {bound : Nat}
    (hd : ∀ c < bound, Memory.get? c d' = Memory.get? c d)
    (hp : ∀ c < bound, clearCode mcs + 2 ≤ c → ∀ e, Memory.get? c d = some e → e.prefixCode.toNat < c)
    (hn : bound ≤ next) (hn' : bound ≤ next') (fuel c : Nat) (hc : c < bound) :
    seqFrom mcs next' d' fuel c = seqFrom mcs next d fuel c := by
  induction fuel generalizing c with
  | zero => rfl
  | succ fuel ih =>
    simp only [seqFrom]
    split_ifs with h1 h2 h3 h3
    · rfl
    · rw [hd c hc]
      match he : Memory.get? c d with
      | none => rfl
      | some e => simp [ih _ ((hp c hc h3.1 e he).trans hc)]
    · omega
    · omega
    · rfl

end Sys2Proof.Machine
end

