-- ==== Sys2Proof/Laws/Engine.lean ====
section
/-! SUPPORT. What the LZW engine's shared operations do: emit (41_lzw_decode.md R189), add_entry and grow (R190 to R192), and the
part DICT and KWKWK share (R180). The meanings' lemmas cite these instead of unfolding them. -/

namespace Sys2Proof.Machine

/-! ## emit -/

/-- How many indices `emit` writes of a sequence (R189). -/
def State.emitCount (s : State) (q : List Byte) : Nat := min q.length (s.lzw.expect.toNat - s.lzw.outCount.toNat)

/-- All that `emit` changes: the PIX bytes from OUT_COUNT up, and OUT_COUNT. -/
theorem State.emit_frame (q : List Byte) (s : State) :
    s.emit q = { s with lzw := { s.lzw with outCount := (s.emit q).lzw.outCount }, mem := (s.emit q).mem } := by
  induction q generalizing s with
  | nil => rfl
  | cons b bs ih =>
    rw [State.emit, ih]
    unfold State.emitByte
    split <;> rfl

@[simp] theorem State.emit_mcs (q : List Byte) (s : State) : (s.emit q).lzw.mcs = s.lzw.mcs :=
  congrArg (fun t => t.lzw.mcs) (State.emit_frame q s)
@[simp] theorem State.emit_inLen (q : List Byte) (s : State) : (s.emit q).lzw.inLen = s.lzw.inLen :=
  congrArg (fun t => t.lzw.inLen) (State.emit_frame q s)
@[simp] theorem State.emit_expect (q : List Byte) (s : State) : (s.emit q).lzw.expect = s.lzw.expect :=
  congrArg (fun t => t.lzw.expect) (State.emit_frame q s)
@[simp] theorem State.emit_bitpos (q : List Byte) (s : State) : (s.emit q).lzw.bitpos = s.lzw.bitpos :=
  congrArg (fun t => t.lzw.bitpos) (State.emit_frame q s)
@[simp] theorem State.emit_width (q : List Byte) (s : State) : (s.emit q).lzw.width = s.lzw.width :=
  congrArg (fun t => t.lzw.width) (State.emit_frame q s)
@[simp] theorem State.emit_prevv (q : List Byte) (s : State) : (s.emit q).lzw.prevv = s.lzw.prevv :=
  congrArg (fun t => t.lzw.prevv) (State.emit_frame q s)
@[simp] theorem State.emit_next (q : List Byte) (s : State) : (s.emit q).lzw.next = s.lzw.next :=
  congrArg (fun t => t.lzw.next) (State.emit_frame q s)
@[simp] theorem State.emit_prev (q : List Byte) (s : State) : (s.emit q).lzw.prev = s.lzw.prev :=
  congrArg (fun t => t.lzw.prev) (State.emit_frame q s)
@[simp] theorem State.emit_errCode (q : List Byte) (s : State) : (s.emit q).lzw.errCode = s.lzw.errCode :=
  congrArg (fun t => t.lzw.errCode) (State.emit_frame q s)
@[simp] theorem State.emit_errBitpos (q : List Byte) (s : State) : (s.emit q).lzw.errBitpos = s.lzw.errBitpos :=
  congrArg (fun t => t.lzw.errBitpos) (State.emit_frame q s)

theorem State.emit_outCount (q : List Byte) (s : State) :
    (s.emit q).lzw.outCount.toNat = s.lzw.outCount.toNat + s.emitCount q := by
  induction q generalizing s with
  | nil => simp [State.emit, State.emitCount]
  | cons b bs ih =>
    rw [State.emit, ih, State.emitCount, State.emitCount]
    unfold State.emitByte
    split
    · have h1 := s.lzw.expect.isLt
      have h2 : (s.lzw.outCount.toNat + 1) % 2 ^ 32 = s.lzw.outCount.toNat + 1 := Nat.mod_eq_of_lt (by omega)
      simp only [State.setByte, BitVec.toNat_ofNat, h2, List.length_cons]
      omega
    · simp only [List.length_cons]
      omega

theorem State.emit_byteAt (q : List Byte) (s : State) (x : Nat) :
    (s.emit q).byteAt x =
      if Buf.pix.base + s.lzw.outCount.toNat ≤ x ∧ x < Buf.pix.base + s.lzw.outCount.toNat + s.emitCount q
      then q.getD (x - (Buf.pix.base + s.lzw.outCount.toNat)) 0#8 else s.byteAt x := by
  induction q generalizing s with
  | nil =>
    rw [if_neg (by simp [State.emitCount])]
    rfl
  | cons b bs ih =>
    rw [State.emit, ih]
    unfold State.emitByte State.emitCount
    split
    · rename_i h
      have h1 := s.lzw.expect.isLt
      have h2 : (s.lzw.outCount.toNat + 1) % 2 ^ 32 = s.lzw.outCount.toNat + 1 := Nat.mod_eq_of_lt (by omega)
      simp only [State.setByte, BitVec.toNat_ofNat, h2, List.length_cons]
      rcases Nat.lt_trichotomy x (Buf.pix.base + s.lzw.outCount.toNat) with hx | hx | hx
      · rw [if_neg (by omega), if_neg (by omega)]
        exact State.byteAt_setByte_other (by omega) b s
      · rw [if_neg (by omega), if_pos (by omega), hx]
        simp only [Nat.sub_self, List.getD_cons_zero]
        exact State.byteAt_setByte_same _ b s
      · by_cases hy : x < Buf.pix.base + s.lzw.outCount.toNat + min (bs.length + 1) (s.lzw.expect.toNat - s.lzw.outCount.toNat)
        · rw [if_pos (by omega), if_pos (by omega)]
          obtain ⟨d, hd⟩ : ∃ d, x - (Buf.pix.base + s.lzw.outCount.toNat) = d + 1 := ⟨x - (Buf.pix.base + s.lzw.outCount.toNat) - 1, by omega⟩
          rw [show x - (Buf.pix.base + (s.lzw.outCount.toNat + 1)) = d by omega, hd]
          simp
        · rw [if_neg (by omega), if_neg (by omega)]
          exact State.byteAt_setByte_other (by omega) b s
    · rename_i h
      rw [if_neg (by omega), if_neg (by omega)]

/-- `emit` lists bytes of PIX only. -/
theorem State.emit_mem {q : List Byte} {s : State} {c : Host.Cell} (h : c ∈ (s.emit q).mem) :
    c ∈ s.mem ∨ (Buf.pix.base ≤ c.1 ∧ c.1 < Buf.pix.base + s.lzw.expect.toNat) := by
  induction q generalizing s with
  | nil => exact .inl h
  | cons b bs ih =>
    rw [State.emit] at h
    rcases ih h with h | h
    · unfold State.emitByte at h
      split at h
      · rename_i hlt
        rcases Memory.mem_set h with rfl | h
        · exact .inr ⟨by simp, by simpa using hlt⟩
        · exact .inl h
      · exact .inl h
    · refine .inr ?_
      unfold State.emitByte at h
      split at h <;> exact h

/-! ## add_entry -/

/-- All of `grow` (R192). -/
theorem State.grow_eq (s : State) :
    s.grow = { s with lzw := { s.lzw with
      width := if s.lzw.next.toNat ≥ 2 ^ s.lzw.width.toNat ∧ s.lzw.width.toNat < 12
        then BitVec.ofNat 4 (s.lzw.width.toNat + 1) else s.lzw.width } } := by
  by_cases h : s.lzw.next.toNat ≥ 2 ^ s.lzw.width.toNat ∧ s.lzw.width.toNat < 12
  · rw [if_pos h]
    exact if_pos h
  · rw [if_neg h]
    exact if_neg h

/-- The state `add_entry` leaves when there is room (R190, R192). -/
def State.added (s : State) (p : Code) (x f : Byte) (l : Nat) : State :=
  { s with
    dict := Memory.set s.lzw.next.toNat
      { prefixCode := p, suffix := x, first := f, len := BitVec.ofNat 12 (l + 1) } s.dict
    lzw := { s.lzw with
      next := BitVec.ofNat 13 (s.lzw.next.toNat + 1)
      width := if s.lzw.next.toNat + 1 ≥ 2 ^ s.lzw.width.toNat ∧ s.lzw.width.toNat < 12
        then BitVec.ofNat 4 (s.lzw.width.toNat + 1) else s.lzw.width } }

/-- All of `add_entry` (R190, R191). -/
theorem State.addEntry_eq (s : State) (p : Code) (x : Byte) :
    s.addEntry p x =
      if s.lzw.next.toNat < 4096 then
        match s.firstOf p, s.lenOf p with
        | some f, some l => some (s.added p x f l)
        | _, _ => none
      else some s := by
  unfold State.addEntry
  by_cases h : s.lzw.next.toNat < 4096
  · rw [if_pos (show s.lzw.next.toNat < dictCodes from h), if_pos h]
    have : (BitVec.ofNat 13 (s.lzw.next.toNat + 1)).toNat = s.lzw.next.toNat + 1 := by
      rw [BitVec.toNat_ofNat]
      exact Nat.mod_eq_of_lt (by omega)
    cases s.firstOf p with
    | none => rfl
    | some f =>
      cases s.lenOf p with
      | none => rfl
      | some l => simp only [State.grow_eq, State.storeEntry, State.added, this]
  · rw [if_neg (show ¬ s.lzw.next.toNat < dictCodes from h), if_neg h]

/-- FIRST and LEN of the codes below NEXT stay when an entry is stored at NEXT. -/
theorem State.added_firstOf {s : State} {p d : Code} {x f : Byte} {l : Nat} (h : d.toNat ≠ s.lzw.next.toNat) :
    (s.added p x f l).firstOf d = s.firstOf d := by
  simp [State.added, State.firstOf, Memory.get?_set_other h]

theorem State.added_lenOf {s : State} {p d : Code} {x f : Byte} {l : Nat} (h : d.toNat ≠ s.lzw.next.toNat) :
    (s.added p x f l).lenOf d = s.lenOf d := by
  simp [State.added, State.lenOf, Memory.get?_set_other h]

theorem State.added_next {s : State} {p : Code} {x f : Byte} {l : Nat} (hn : s.lzw.next.toNat < 4096) :
    (s.added p x f l).lzw.next.toNat = s.lzw.next.toNat + 1 := by
  simp only [State.added, BitVec.toNat_ofNat]
  exact Nat.mod_eq_of_lt (by omega)

/-- The members keep their sequences. -/
theorem State.added_seq_old {s : State} (hs : s.Chained) {p : Code} {x f : Byte} {l : Nat}
    (hn : s.lzw.next.toNat < 4096) {d : Code} (hd : inDict s.lzw.mcs s.lzw.next.toNat d.toNat)
    (hc : clearCode s.lzw.mcs + 2 ≤ s.lzw.next.toNat) :
    (s.added p x f l).seq d = s.seq d := by
  unfold State.seq
  rw [State.added_next hn]
  refine seqFrom_congr (bound := s.lzw.next.toNat) ?_ ?_ le_rfl (by omega) _ _ (by rcases hd with h | h <;> omega)
  · intro c hc
    exact Memory.get?_set_other (by omega) _ _
  · intro c hc h1 e he
    obtain ⟨e', he', hlt, _⟩ := State.entryOk_iff.1 (hs c hc h1)
    rw [he] at he'
    cases he'
    exact hlt

/-- The new code denotes `seq(p) ++ [x]` (R190). -/
theorem State.added_seq_new {s : State} (hs : s.Chained) {p : Code} {x f : Byte} {l : Nat}
    (hn : s.lzw.next.toNat < 4096) (hc : clearCode s.lzw.mcs + 2 ≤ s.lzw.next.toNat)
    (hp : inDict s.lzw.mcs s.lzw.next.toNat p.toNat) {q : List Byte} (hq : s.seq p = some q) :
    (s.added p x f l).seq (BitVec.ofNat 12 s.lzw.next.toNat) = some (q ++ [x]) := by
  obtain ⟨q', h1, -⟩ := State.member_denotes hs p.toNat hp p.isLt
  have hq' : q' = q := by
    have := seqFrom_mono h1 (m := dictCodes) (by have := p.isLt; simp only [dictCodes]; omega)
    rw [State.seq] at hq
    rw [this] at hq
    exact Option.some.inj hq
  subst hq'
  have hpn : p.toNat < s.lzw.next.toNat := by rcases hp with h | h <;> omega
  have hcode : (BitVec.ofNat 12 s.lzw.next.toNat).toNat = s.lzw.next.toNat := by
    rw [BitVec.toNat_ofNat]
    exact Nat.mod_eq_of_lt (by omega)
  have hk : dictCodes = 4095 + 1 := rfl
  unfold State.seq
  rw [State.added_next hn, hcode, hk, seqFrom, if_neg (by simp only [State.added]; omega),
    if_pos (by simp only [State.added]; omega)]
  have hget : Memory.get? s.lzw.next.toNat (s.added p x f l).dict =
      some { prefixCode := p, suffix := x, first := f, len := BitVec.ofNat 12 (l + 1) } :=
    Memory.get?_set_same _ _ _
  rw [hget]
  have hold : seqFrom (s.added p x f l).lzw.mcs (s.lzw.next.toNat + 1) (s.added p x f l).dict 4095 p.toNat =
      some q' := by
    have := seqFrom_congr (mcs := s.lzw.mcs) (next := s.lzw.next.toNat) (next' := s.lzw.next.toNat + 1)
      (d := s.dict) (d' := (s.added p x f l).dict) (bound := s.lzw.next.toNat)
      (fun c hc => Memory.get?_set_other (by omega) _ _)
      (fun c hc h1 e he => by
        obtain ⟨e', he', hlt, _⟩ := State.entryOk_iff.1 (hs c hc h1)
        rw [he] at he'
        cases he'
        exact hlt) le_rfl (by omega) 4095 p.toNat hpn
    exact this.trans (seqFrom_mono h1 (by have := p.isLt; omega))
  simp only [hold]

/-- A stored entry keeps the dictionary chained. -/
theorem State.added_chained {s : State} (hs : s.Chained) {p : Code} {x : Byte}
    (hn : s.lzw.next.toNat < 4096) (hc : clearCode s.lzw.mcs + 2 ≤ s.lzw.next.toNat)
    (hm : 4 ≤ clearCode s.lzw.mcs)
    (hp : inDict s.lzw.mcs s.lzw.next.toNat p.toNat) :
    ∃ f l, s.firstOf p = some f ∧ s.lenOf p = some l ∧ 1 ≤ l ∧ (s.added p x f l).Chained := by
  obtain ⟨q, hq, hf, hl, h1, h2⟩ := State.seq_of_member hs p hp
  have hpn : p.toNat < s.lzw.next.toNat := by rcases hp with h | h <;> omega
  have hlen : q.length + 1 ≤ s.lzw.next.toNat - clearCode s.lzw.mcs := by
    rcases hp with h | h
    · have : q.length = 1 := by
        simp only [State.lenOf, if_pos h, Option.some.injEq] at hl
        omega
      omega
    · have := h2 h.1
      omega
  refine ⟨_, _, hf, hl, h1, ?_⟩
  intro c hc' h3
  have hmcs : (s.added p x (q.headD 0#8) q.length).lzw.mcs = s.lzw.mcs := rfl
  rw [hmcs] at h3
  rw [State.added_next hn] at hc'
  by_cases hcn : c = s.lzw.next.toNat
  · subst hcn
    have hlen' : (BitVec.ofNat 12 (q.length + 1)).toNat = q.length + 1 := by
      rw [BitVec.toNat_ofNat]
      exact Nat.mod_eq_of_lt (by omega)
    refine State.entryOk_iff.2 ⟨_, Memory.get?_set_same _ _ _, hpn, hp, ?_, ?_, ?_, ?_⟩
    · rw [State.added_firstOf (by simp; omega)]
      exact hf
    · rw [State.added_lenOf (by simp; omega), hl]
      simp only [hlen']
      rfl
    · simp only [hlen']
      omega
    · simp only [hlen', hmcs]
      exact hlen
  · obtain ⟨e, he, hlt, hmem, hff, hll, hl2, hlb⟩ := State.entryOk_iff.1 (hs c (by omega) h3)
    refine State.entryOk_iff.2 ⟨e, ?_, hlt, hmem, ?_, ?_, hl2, hlb⟩
    · exact (Memory.get?_set_other hcn _ _).trans he
    · rw [State.added_firstOf (by omega)]
      exact hff
    · rw [State.added_lenOf (by omega)]
      exact hll

/-! ## DICT and KWKWK -/

/-- All that DICT and KWKWK share (R180): emit, add an entry where a previous sequence exists and there is room, update the previous
code. -/
theorem State.takeSequence_cases {s : State} {c : Code} {q : List Byte} (hq : q ≠ []) (hs : s.Chained)
    (hp : s.lzw.prevv = true → inDict s.lzw.mcs s.lzw.next.toNat s.lzw.prev.toNat) :
    (s.lzw.prevv = true ∧ s.lzw.next.toNat < 4096 ∧ ∃ f l, s.firstOf s.lzw.prev = some f ∧
      s.lenOf s.lzw.prev = some l ∧
      s.takeSequence c q = .next (((s.emit q).added s.lzw.prev (q.headD 0#8) f l).setPrev c)) ∨
    (¬ (s.lzw.prevv = true ∧ s.lzw.next.toNat < 4096) ∧ s.takeSequence c q = .next ((s.emit q).setPrev c)) := by
  obtain ⟨x, xs, rfl⟩ := List.exists_cons_of_ne_nil hq
  unfold State.takeSequence
  by_cases hv : s.lzw.prevv = true
  · by_cases hn : s.lzw.next.toNat < 4096
    · obtain ⟨p, -, hf, hl, -⟩ := State.seq_of_member hs s.lzw.prev (hp hv)
      refine .inl ⟨hv, hn, _, _, hf, hl, ?_⟩
      have hf' : (s.emit (x :: xs)).firstOf s.lzw.prev = s.firstOf s.lzw.prev := by simp [State.firstOf]
      have hl' : (s.emit (x :: xs)).lenOf s.lzw.prev = s.lenOf s.lzw.prev := by simp [State.lenOf]
      simp only [hv, if_true, State.addEntry_eq, State.emit_next, if_pos hn, hf', hl', hf, hl, List.headD_cons]
    · refine .inr ⟨by tauto, ?_⟩
      simp only [hv, if_true, State.addEntry_eq, State.emit_next, if_neg hn]
  · refine .inr ⟨by tauto, ?_⟩
    simp only [hv]
    rfl

end Sys2Proof.Machine
end

