-- ==== Sys2Proof/Laws/Layout.lean ====
section
/-! SUPPORT. Which accesses have a legal shape, and where they go (20_memory.md R71, 40_host_interface.md R138). -/

namespace Sys2Proof.Machine

/-- A legal access to REG is an aligned access of four bytes in its window. -/
theorem target_eq_reg {p : Params} {off n : Nat} :
    target p off n = some .reg ↔ n = 4 ∧ off % 4 = 0 ∧ off < 0x100 := by
  unfold target regionOf
  constructor
  · intro h
    split_ifs at h <;> simp_all
  · rintro ⟨rfl, h1, h2⟩
    simp [h1, h2]

theorem Buf.holds_iff {p : Params} {b : Buf} {off : Nat} :
    b.holds p off = true ↔ b.base ≤ off ∧ off < b.base + b.size p := by
  simp [Buf.holds]

/-- The region windows do not overlap (R71), so an offset's region is the one buffer that holds it. -/
theorem regionOf_eq_buf {p : Params} (hp : p.Legal) {off : Nat} {b : Buf} :
    regionOf p off = some (.buf b) ↔ b.base ≤ off ∧ off < b.base + b.size p := by
  obtain ⟨⟨_, hi⟩, ⟨_, hx⟩, _, _, _, ho⟩ := hp
  have e : ∀ c : Buf, (some (Region.buf c) = some (Region.buf b)) ↔ c = b := by simp
  have key : regionOf p off = some (.buf b) ↔
      ¬ off < 0x100 ∧ (if 0x1000 ≤ off ∧ off < 0x1000 + p.tgtW * p.tgtH then Buf.out = b
        else if 0x100000 ≤ off ∧ off < 0x100000 + p.inBytes then Buf.inp = b
        else 0x1000000 ≤ off ∧ off < 0x1000000 + p.pixBytes ∧ Buf.pix = b) := by
    unfold regionOf
    simp only [Buf.holds_iff]
    split_ifs <;> simp_all [Buf.base, Buf.size]
  rw [key]
  cases b <;> simp only [Buf.base, Buf.size, reduceCtorEq] <;> split_ifs <;> simp <;> omega

/-- A legal access to a buffer has size 1, 2 or 4, is aligned, and has all its bytes in the buffer. -/
theorem target_eq_buf {p : Params} (hp : p.Legal) {off n : Nat} {b : Buf} :
    target p off n = some (.buf b) ↔
      (n = 1 ∨ n = 2 ∨ n = 4) ∧ off % n = 0 ∧ b.base ≤ off ∧ off + n ≤ b.base + b.size p := by
  unfold target
  by_cases hs : (n = 1 ∨ n = 2 ∨ n = 4) ∧ off % n = 0
  swap
  · rw [if_neg (by simpa [or_assoc] using fun a => fun b => hs ⟨a, b⟩)]
    simp
    tauto
  rw [if_pos (by simpa [or_assoc] using hs)]
  simp only [hs.1, hs.2, true_and]
  have hr := @regionOf_eq_buf p hp off
  match hm : regionOf p off with
  | none =>
    have := (hr (b := b)).not.1 (by simp [hm])
    simp only [false_iff, reduceCtorEq]
    omega
  | some .reg =>
    have := (hr (b := b)).not.1 (by simp [hm])
    split_ifs <;> simp only [Option.some.injEq, reduceCtorEq, false_iff] <;> omega
  | some (.buf c) =>
    have hc := hr.1 hm
    have hstop : (Region.buf c).stop p = c.base + c.size p := rfl
    show (if off + n ≤ (Region.buf c).stop p then some (Region.buf c) else none) = _ ↔ _
    constructor
    · intro h
      by_cases g : off + n ≤ (Region.buf c).stop p
      · rw [if_pos g] at h
        cases h
        exact ⟨hc.1, g⟩
      · rw [if_neg g] at h
        cases h
    · intro h
      have := hr.2 ⟨h.1, by omega⟩
      rw [hm] at this
      cases this
      exact if_pos h.2

/-- An access gets no target exactly where the four conditions of R138 fail. -/
theorem target_eq_none {p : Params} (hp : p.Legal) {off n : Nat} :
    target p off n = none ↔
      ¬ ((n = 4 ∧ off % 4 = 0 ∧ off < 0x100) ∨
        ∃ b : Buf, (n = 1 ∨ n = 2 ∨ n = 4) ∧ off % n = 0 ∧ b.base ≤ off ∧ off + n ≤ b.base + b.size p) := by
  constructor
  · rintro h (h' | ⟨b, h'⟩)
    · rw [target_eq_reg.2 h'] at h
      cases h
    · rw [(target_eq_buf hp).2 h'] at h
      cases h
  · intro h
    match ht : target p off n with
    | none => rfl
    | some .reg => exact absurd (.inl (target_eq_reg.1 ht)) h
    | some (.buf b) => exact absurd (.inr ⟨b, (target_eq_buf hp).1 ht⟩) h

/-- A buffer takes accesses of 1, 2 and 4 bytes only. -/
theorem target_size {p : Params} {off n : Nat} {b : Buf} (h : target p off n = some (.buf b)) :
    n = 1 ∨ n = 2 ∨ n = 4 := by
  unfold target at h
  by_contra hn
  rw [if_neg (by simp; omega)] at h
  cases h

/-- The configuration registers are in REG. -/
theorem target_config {p : Params} {off : Nat} (h : isConfigOff off = true) : target p off 4 = some .reg := by
  simp only [isConfigOff, Bool.or_eq_true, beq_iff_eq] at h
  exact target_eq_reg.2 (by omega)

/-- A transaction's shape is legal exactly where it has a target. -/
theorem legalShape_iff {p : Params} {off n : Nat} : legalShape p off n = true ↔ ∃ r, target p off n = some r := by
  simp [legalShape, Option.isSome_iff_exists]

end Sys2Proof.Machine
end

