-- ==== Sys2Proof/Laws/Invariant.lean ====
section
/-! SUPPORT. What the invariant of Safety.lean depends on: changes outside these fields keep it, and so do stores inside the
buffers. -/

namespace Sys2Proof.Machine

/-- `LzwRun` depends on the parameters, the LZW registers and the dictionary only. -/
theorem State.LzwRun.congr {s t : State} (h : s.LzwRun) (hp : t.params = s.params) (hl : t.lzw = s.lzw)
    (hd : t.dict = s.dict) : t.LzwRun := by
  obtain ⟨h1, h2, h3, h4, h5, h6, h7, h8, h9, h10⟩ := h
  refine ⟨?_, ?_, ?_, ?_, ?_, ?_, ?_, ?_, ?_, State.chained_congr h10 (by rw [hl]) (by rw [hl]) hd⟩ <;>
    simpa only [hl, hp]

/-- `DsRun` depends on the parameters and the DS registers only. -/
theorem State.DsRun.congr {s t : State} (h : s.DsRun) (hp : t.params = s.params) (hd : t.ds = s.ds) : t.DsRun := by
  obtain ⟨h1, h2, h3, h4⟩ := h
  refine ⟨?_, ?_, ?_, ?_⟩ <;> simpa only [hd, hp]

/-- The error flags and the model's own fields are nothing to the invariant. -/
theorem State.Inv.congr {s t : State} (h : s.Inv) (hp : t.params = s.params) (hl : t.lzw = s.lzw) (hs : t.ds = s.ds)
    (hd : t.dict = s.dict) (hm : t.mem = s.mem)
    (hf : t.status = { s.status with
      cmderr := t.status.cmderr, accerr := t.status.accerr, buserr := t.status.buserr }) : t.Inv := by
  have f1 : t.status.lzwBusy = s.status.lzwBusy := by rw [hf]
  have f2 : t.status.dsBusy = s.status.dsBusy := by rw [hf]
  have f3 : t.status.lzwDone = s.status.lzwDone := by rw [hf]
  have f4 : t.status.dsDone = s.status.dsDone := by rw [hf]
  have f5 : t.status.lzwStop = s.status.lzwStop := by rw [hf]
  have f6 : t.status.dsResult = s.status.dsResult := by rw [hf]
  have f7 : t.status.short = s.status.short := by rw [hf]
  obtain ⟨a1, a2, a3, a4, a5, a6, a7, a8, a9, a10, a11, a12, a13⟩ := h
  refine ⟨by rwa [hp], by rwa [hm], by rwa [hm, hp], by rwa [hd], by rwa [hd], by rwa [f1, f2], by rwa [f3, f5],
    by rwa [f4, f6], by rwa [f7, f5], by rwa [f1, f3], by rwa [f2, f4], ?_, ?_⟩
  · exact fun hb => (a12 (f1 ▸ hb)).congr hp hl hd
  · exact fun hb => (a13 (f2 ▸ hb)).congr hp hs

/-- With no engine busy, what is left of the invariant. -/
theorem State.Inv.of_idle {t : State} (hp : t.params.Legal) (hm : Memory.wf t.mem)
    (hmm : ∀ c ∈ t.mem, inBuffer t.params c.1 = true) (hd : Memory.wf t.dict) (hdc : ∀ e ∈ t.dict, e.1 < dictCodes)
    (hl : t.status.lzwBusy = false) (hs : t.status.dsBusy = false)
    (h1 : t.status.lzwDone = decide (t.status.lzwStop ≠ .none))
    (h2 : t.status.dsDone = decide (t.status.dsResult ≠ .none))
    (h3 : t.status.short = decide (t.status.lzwStop = .endCode ∨ t.status.lzwStop = .exhausted)) : t.Inv := by
  refine ⟨hp, hm, hmm, hd, hdc, ?_, h1, h2, h3, ?_, ?_, ?_, ?_⟩ <;> simp [hl, hs]

theorem inBuffer_iff {p : Params} {a : Nat} :
    inBuffer p a = true ↔ ∃ b : Buf, b.base ≤ a ∧ a < b.base + b.size p := by
  simp only [inBuffer, Bool.or_eq_true, Buf.holds_iff]
  constructor
  · rintro ((h | h) | h) <;> exact ⟨_, h⟩
  · rintro ⟨b, h⟩
    cases b
    · exact .inl (.inl h)
    · exact .inl (.inr h)
    · exact .inr h

/-- A byte stored inside a buffer keeps the invariant. -/
theorem State.Inv.setByte {s : State} (h : s.Inv) {a : Nat} (ha : inBuffer s.params a = true) (b : Byte) :
    (s.setByte a b).Inv := by
  obtain ⟨a1, a2, a3, a4, a5, a6, a7, a8, a9, a10, a11, a12, a13⟩ := h
  refine ⟨a1, Memory.wf_set _ _ a2, ?_, a4, a5, a6, a7, a8, a9, a10, a11, fun hb => (a12 hb).congr rfl rfl rfl,
    fun hb => (a13 hb).congr rfl rfl⟩
  intro c hc
  rcases Memory.mem_set hc with rfl | hc
  · exact ha
  · exact a3 c hc

end Sys2Proof.Machine
end

