-- ==== Sys2Proof/Laws/PerInstr.lean ====
section
/-! SUPPORT. Statements made per instruction: its encoding has the form that the column "format" of spec/opcode_table.json gives its
row, and a transaction's shape is legal exactly where its row's condition says so (30_encoding.md R100, R108, R111). -/

namespace Sys2Proof.Laws

/-- The formats of spec/opcode_table.json. -/
inductive RowFormat where
  | ctrlCmd
  | lzwCode
  | bus
  | engineStep
deriving DecidableEq, Repr

/-- The column "format". -/
def rowFormat : Instr → RowFormat
  | .nop => .ctrlCmd
  | .lzwStart => .ctrlCmd
  | .dsStart => .ctrlCmd
  | .abort => .ctrlCmd
  | .ack => .ctrlCmd
  | .softReset => .ctrlCmd
  | .illegalCmd _ => .ctrlCmd
  | .clear _ => .lzwCode
  | .endCode _ => .lzwCode
  | .dict _ => .lzwCode
  | .kwkwk _ => .lzwCode
  | .invalid _ => .lzwCode
  | .rd32Reg _ => .bus
  | .rd8 _ => .bus
  | .rd16 _ => .bus
  | .rd32 _ => .bus
  | .rdBusy _ _ => .bus
  | .wr32Reg _ _ => .bus
  | .wr32CfgBusy _ _ => .bus
  | .wr8 _ _ => .bus
  | .wr16 _ _ => .bus
  | .wr32 _ _ => .bus
  | .wrBusy _ _ _ => .bus
  | .busIllegal _ => .bus
  | .lzwStep => .engineStep
  | .dsCellStep => .engineStep

/-- The size and the offset of a transaction. -/
def shapeOf : Txn → Nat × Nat
  | .rd off size => (off.toNat, size)
  | .wr off size _ => (off.toNat, size)

/-- An encoding in a format: a word written to CTRL, `ceil(WIDTH / 8)` bytes of a stream read from bit 0, a tuple (which a row other
than BUS_ILLEGAL meets with a legal shape), or an engine's own turn. -/
def hasFormat (ctx : DecodeCtx) (illegal : Bool) : RowFormat → Fetched → Prop
  | .ctrlCmd, .bus (.wr off 4 _) => off = Machine.ctrlOff
  | .lzwCode, .stream bytes pos => bytes.length = (ctx.width.toNat + 7) / 8 ∧ pos = 0
  | .bus, .bus t => Machine.legalShape ctx.params (shapeOf t).1 (shapeOf t).2 = !illegal
  | .engineStep, .lzwTurn => True
  | .engineStep, .dsTurn => True
  | _, _ => False

theorem leBytes_length (n v : Nat) : (leBytes n v).length = n := by
  induction n generalizing v with
  | zero => rfl
  | succ n ih => simp [leBytes, ih]

theorem legalShape_of_toBuffer {p : Params} {off : Word} {n : Nat} (h : toBuffer p off n = true) :
    Machine.legalShape p off.toNat n = true := by
  unfold toBuffer at h
  unfold Machine.legalShape
  split at h <;> simp_all

theorem legalShape_of_toReg {p : Params} {off : Word} (h : toReg p off = true) :
    Machine.legalShape p off.toNat 4 = true := by
  unfold toReg at h
  unfold Machine.legalShape
  split at h <;> simp_all

theorem eq_false_of_not {b : Bool} (h : (!b) = true) : b = false := by
  cases b
  · rfl
  · cases h

/-- The row's encoding has its format. -/
def Format.Statement (i : Instr) : Prop :=
  ∀ ctx : DecodeCtx, i.wf ctx.params = true →
    hasFormat ctx (match i with | .busIllegal _ => true | _ => false) (rowFormat i) (encode ctx i)

theorem Format.nop : Format.Statement (.nop) :=
  fun _ _ => rfl
theorem Format.lzwStart : Format.Statement (.lzwStart) :=
  fun _ _ => rfl
theorem Format.dsStart : Format.Statement (.dsStart) :=
  fun _ _ => rfl
theorem Format.abort : Format.Statement (.abort) :=
  fun _ _ => rfl
theorem Format.ack : Format.Statement (.ack) :=
  fun _ _ => rfl
theorem Format.softReset : Format.Statement (.softReset) :=
  fun _ _ => rfl
theorem Format.illegalCmd (w : Word) : Format.Statement (.illegalCmd w) :=
  fun _ _ => rfl
theorem Format.clear (c : Code) : Format.Statement (.clear c) :=
  fun _ _ => ⟨leBytes_length _ _, rfl⟩
theorem Format.endCode (c : Code) : Format.Statement (.endCode c) :=
  fun _ _ => ⟨leBytes_length _ _, rfl⟩
theorem Format.dict (c : Code) : Format.Statement (.dict c) :=
  fun _ _ => ⟨leBytes_length _ _, rfl⟩
theorem Format.kwkwk (c : Code) : Format.Statement (.kwkwk c) :=
  fun _ _ => ⟨leBytes_length _ _, rfl⟩
theorem Format.invalid (c : Code) : Format.Statement (.invalid c) :=
  fun _ _ => ⟨leBytes_length _ _, rfl⟩
theorem Format.rd32Reg (off : Word) : Format.Statement (.rd32Reg off) :=
  fun _ h => legalShape_of_toReg h
theorem Format.rd8 (off : Word) : Format.Statement (.rd8 off) :=
  fun _ h => legalShape_of_toBuffer h
theorem Format.rd16 (off : Word) : Format.Statement (.rd16 off) :=
  fun _ h => legalShape_of_toBuffer h
theorem Format.rd32 (off : Word) : Format.Statement (.rd32 off) :=
  fun _ h => legalShape_of_toBuffer h
theorem Format.rdBusy (off : Word) (size : Nat) : Format.Statement (.rdBusy off size) :=
  fun _ h => legalShape_of_toBuffer h
theorem Format.wr32Reg (off v : Word) : Format.Statement (.wr32Reg off v) :=
  fun _ h => legalShape_of_toReg (Bool.and_eq_true_iff.1 h).1
theorem Format.wr32CfgBusy (off v : Word) : Format.Statement (.wr32CfgBusy off v) :=
  fun _ h => Machine.legalShape_iff.2 ⟨_, Machine.target_config h⟩
theorem Format.wr8 (off v : Word) : Format.Statement (.wr8 off v) :=
  fun _ h => legalShape_of_toBuffer h
theorem Format.wr16 (off v : Word) : Format.Statement (.wr16 off v) :=
  fun _ h => legalShape_of_toBuffer h
theorem Format.wr32 (off v : Word) : Format.Statement (.wr32 off v) :=
  fun _ h => legalShape_of_toBuffer h
theorem Format.wrBusy (off : Word) (size : Nat) (v : Word) : Format.Statement (.wrBusy off size v) :=
  fun _ h => legalShape_of_toBuffer h
theorem Format.busIllegal (t : Txn) : Format.Statement (.busIllegal t) :=
  fun _ h => by
  cases t <;> exact eq_false_of_not h
theorem Format.lzwStep : Format.Statement (.lzwStep) :=
  fun _ _ => trivial
theorem Format.dsCellStep : Format.Statement (.dsCellStep) :=
  fun _ _ => trivial

end Sys2Proof.Laws
end

