-- ==== Sys2Proof/Laws/Step.lean ====
section
/-! SUPPORT. What a decoded transaction does, what a step can be, and runs: the lemmas through which statements about single
operations reach the whole machine. -/

namespace Sys2Proof.Machine

/-! ## Transactions -/

/-- The rows of a RD differ in the state they meet only: each is the procedure of R130 (40_host_interface.md). -/
theorem exec_decodeTxn_rd (ctx : DecodeCtx) (off : Word) (n : Nat) (s : State) :
    exec (decodeTxn ctx (.rd off n)) s = hostRead off n s := by
  simp only [decodeTxn]
  split
  · rfl
  · rename_i h
    obtain ⟨rfl, -⟩ := target_eq_reg.1 h
    rfl
  · rename_i h
    have hn := target_size h
    split_ifs with h1 h2 h3
    · rfl
    · subst h2; rfl
    · subst h3; rfl
    · obtain rfl : n = 4 := by omega
      rfl

theorem exec_decodeCommand (v : Word) (s : State) : exec (decodeCommand v) s = command v s := by
  unfold decodeCommand command
  cases classifyCommand v <;> rfl

/-- The same for a WR; a WR to CTRL is its command's row. -/
theorem exec_decodeTxn_wr (s : State) (off v : Word) (n : Nat) :
    exec (decodeTxn s.ctx (.wr off n v)) s = hostWrite off n v s := by
  simp only [decodeTxn, show s.ctx.params = s.params from rfl]
  split
  · rfl
  · rename_i h
    obtain ⟨rfl, -⟩ := target_eq_reg.1 h
    split_ifs with h1 h2
    · rw [exec_decodeCommand, hostWrite, h]
      simp only [regWrite, if_pos h1]
    · rfl
    · rfl
  · rename_i h
    have hn := target_size h
    split_ifs with h1 h2 h3
    · rfl
    · subst h2; rfl
    · subst h3; rfl
    · obtain rfl : n = 4 := by omega
      rfl

/-- A read goes through its target. -/
theorem hostRead_cases (off : Word) (n : Nat) (s : State) :
    (target s.params off.toNat n = none ∧ hostRead off n s = .next (s.setBuserr.reply 0#32)) ∨
    (target s.params off.toNat n = some .reg ∧ hostRead off n s = .next (s.reply (s.regRead off.toNat))) ∨
    (∃ b, target s.params off.toNat n = some (.buf b) ∧ s.busy = true ∧
      hostRead off n s = .next (s.setAccerr.reply 0#32)) ∨
    ∃ b, target s.params off.toNat n = some (.buf b) ∧ s.busy = false ∧
      hostRead off n s = .next (s.reply (BitVec.ofNat 32 (s.memRead off.toNat n))) := by
  unfold hostRead
  match h : target s.params off.toNat n, hb : s.busy with
  | none, _ => exact .inl ⟨rfl, rfl⟩
  | some .reg, _ => exact .inr (.inl ⟨rfl, rfl⟩)
  | some (.buf b), true => exact .inr (.inr (.inl ⟨b, rfl, rfl, rfl⟩))
  | some (.buf b), false => exact .inr (.inr (.inr ⟨b, rfl, rfl, rfl⟩))

/-- A write goes through its target. -/
theorem hostWrite_cases (off v : Word) (n : Nat) (s : State) :
    (target s.params off.toNat n = none ∧ hostWrite off n v s = .next s.setBuserr) ∨
    (target s.params off.toNat n = some .reg ∧ hostWrite off n v s = regWrite off v s) ∨
    (∃ b, target s.params off.toNat n = some (.buf b) ∧ s.busy = true ∧ hostWrite off n v s = .next s.setAccerr) ∨
    ∃ b, target s.params off.toNat n = some (.buf b) ∧ s.busy = false ∧
      hostWrite off n v s = .next (s.memWrite off.toNat n v.toNat) := by
  unfold hostWrite
  match h : target s.params off.toNat n, hb : s.busy with
  | none, _ => exact .inl ⟨rfl, rfl⟩
  | some .reg, _ => exact .inr (.inl ⟨rfl, rfl⟩)
  | some (.buf b), true => exact .inr (.inr (.inl ⟨b, rfl, rfl, rfl⟩))
  | some (.buf b), false => exact .inr (.inr (.inr ⟨b, rfl, rfl, rfl⟩))

/-- A RD always completes, with a value returned, and changes nothing but that value and STATUS (R80, R130). -/
theorem hostRead_next (off : Word) (n : Nat) (s : State) :
    ∃ (v : Word) (t : State), hostRead off n s = .next t ∧ t.rdata = some v ∧
      t = { s with rdata := some v, status := t.status } := by
  obtain ⟨-, h⟩ | ⟨-, h⟩ | ⟨b, -, -, h⟩ | ⟨b, -, -, h⟩ := hostRead_cases off n s <;> exact ⟨_, _, h, rfl, rfl⟩

/-- All that a POLL's turn can be: one read, which ends the loop or is followed by the next round (R114). -/
theorem pollOn_hostRead (p : Poll) (s : State) :
    ∃ (v : Word) (t : State), hostRead p.off 4 s = .next t ∧ t.rdata = some v ∧
      pollOn p (hostRead p.off 4 s) = if v &&& p.mask = p.value then .next t else .next (t.repeatPoll p) := by
  obtain ⟨v, t, h, hv, -⟩ := hostRead_next p.off 4 s
  refine ⟨v, t, h, hv, ?_⟩
  rw [h, pollOn, hv]
  simp only [Option.any_some, pollDone, beq_iff_eq]

/-- What a POLL's turn changes: the value read, the turns left, and at most one error flag of STATUS (R80). -/
theorem pollOn_frame {p : Poll} {s t : State} (h : pollOn p (hostRead p.off 4 s) = .next t) :
    t = { s with rdata := t.rdata, turns := t.turns, status := t.status } ∧
      (t.status = s.status ∨ t.status = s.setAccerr.status ∨ t.status = s.setBuserr.status) := by
  obtain ⟨-, hr⟩ | ⟨-, hr⟩ | ⟨b, -, -, hr⟩ | ⟨b, -, -, hr⟩ := hostRead_cases p.off 4 s <;>
    rw [hr, pollOn] at h <;> split at h <;> cases h <;> simp [State.repeatPoll, State.reply, State.setAccerr, State.setBuserr]

/-- A register write goes to CTRL, to a configuration register, or nowhere (R134, R135). -/
theorem regWrite_cases (off v : Word) (s : State) :
    (off = ctrlOff ∧ regWrite off v s = command v s) ∨
    (off ≠ ctrlOff ∧ isConfigOff off.toNat = true ∧ s.busy = true ∧ regWrite off v s = .next s.setAccerr) ∨
    (off ≠ ctrlOff ∧ isConfigOff off.toNat = true ∧ s.busy = false ∧
      regWrite off v s = .next (s.configWrite off.toNat v)) ∨
    (off ≠ ctrlOff ∧ isConfigOff off.toNat = false ∧ regWrite off v s = .next s) := by
  unfold regWrite
  split_ifs with h1 h2 h3 <;> simp_all

/-- Both busy bits are 0. -/
theorem State.busy_eq_false {s : State} : s.busy = false ↔ s.status.lzwBusy = false ∧ s.status.dsBusy = false := by
  simp [State.busy]

/-! ## Steps -/

/-- All that a step can be, by the next turn, with the turn used up. -/
theorem step_cases {s : State} {r : Host.Outcome State Fault Refusal} (h : step s = r) :
    (s.turns = [] ∧ s.busy = false ∧ r = .next s) ∨
    ((s.turns = [] ∧ s.status.lzwBusy = true ∨ s.turns.head? = some .lzw) ∧
      r = execLzwStep { s with turns := s.turns.tail }) ∨
    ((s.turns = [] ∧ s.status.lzwBusy = false ∧ s.status.dsBusy = true ∨ s.turns.head? = some .ds) ∧
      r = execDsCellStep { s with turns := s.turns.tail }) ∨
    (∃ off n, s.turns.head? = some (.host (.rd off n)) ∧ r = hostRead off n { s with turns := s.turns.tail }) ∨
    (∃ off n v, s.turns.head? = some (.host (.wr off n v)) ∧
      r = hostWrite off n v { s with turns := s.turns.tail }) ∨
    (s.turns.head? = some .resetInput ∧ r = .next (State.resetInput { s with turns := s.turns.tail })) ∨
    (s.turns.head? = some .powerOn ∧ r = .next (State.powerOn { s with turns := s.turns.tail })) ∨
    (∃ p, s.turns.head? = some (.poll p) ∧ r = pollOn p (hostRead p.off 4 { s with turns := s.turns.tail })) := by
  subst h
  unfold step nextEvent
  match hts : s.turns with
  | [] =>
    have hs : { s with turns := [] } = s := by rw [← hts]
    simp only [idleEvent, List.tail_nil, hs]
    by_cases hl : s.status.lzwBusy = true
    · simp only [hl, if_true]
      exact .inr (.inl ⟨.inl ⟨trivial, trivial⟩, rfl⟩)
    · by_cases hd : s.status.dsBusy = true
      · simp only [hl, hd, if_true]
        exact .inr (.inr (.inl ⟨.inl ⟨trivial, by simp, trivial⟩, rfl⟩))
      · simp only [hl, hd]
        exact .inl ⟨trivial, by simp [State.busy, hl, hd], rfl⟩
  | .host (.rd off n) :: ts =>
    exact .inr (.inr (.inr (.inl ⟨off, n, rfl, exec_decodeTxn_rd _ _ _ _⟩)))
  | .host (.wr off n v) :: ts =>
    exact .inr (.inr (.inr (.inr (.inl ⟨off, n, v, rfl, exec_decodeTxn_wr { s with turns := ts } off v n⟩))))
  | .lzw :: ts => exact .inr (.inl ⟨.inr rfl, rfl⟩)
  | .ds :: ts => exact .inr (.inr (.inl ⟨.inr rfl, rfl⟩))
  | .resetInput :: ts => exact .inr (.inr (.inr (.inr (.inr (.inl ⟨rfl, rfl⟩)))))
  | .powerOn :: ts => exact .inr (.inr (.inr (.inr (.inr (.inr (.inl ⟨rfl, rfl⟩))))))
  | .poll p :: ts =>
    exact .inr (.inr (.inr (.inr (.inr (.inr (.inr ⟨p, rfl, congrArg (pollOn p) (exec_decodeTxn_rd _ _ _ _)⟩))))))

/-! ## Runs -/

/-- A run of one step more starts with a step. -/
theorem run_succ (M : Host.Core) {k : Nat} {s t : M.State} (h : M.step s = .next t) : M.run (k + 1) s = M.run k t := by
  simp only [Host.Core.run, h]

/-- A run of one step more ends with a step. -/
theorem run_snoc (M : Host.Core) {k : Nat} {s u t : M.State} (h : M.run k s = .next u) (hs : M.step u = .next t) :
    M.run (k + 1) s = .next t := by
  induction k generalizing s with
  | zero =>
    simp only [Host.Core.run] at h
    cases h
    exact run_succ M hs
  | succ k ih =>
    match hv : M.step s with
    | .next v =>
      rw [run_succ M hv] at h ⊢
      exact ih h
    | .fault r => simp [Host.Core.run, hv] at h
    | .refused r => simp [Host.Core.run, hv] at h

end Sys2Proof.Machine
end

