-- ==== Sys2Proof/Tests/Slice0.lean ====
section
/-! SUPPORT. Tests of single steps and decodings, whose expected values are the spec's (95_test_vectors.md and the encoding tables of
30_encoding.md), and for every statement with hypotheses a witness that meets them. -/

namespace Sys2Proof.Tests

open Sys2Proof Sys2Proof.Machine Sys2Proof.Claims

/-! ## Helpers -/

/-- An answer is a next state that passes a check. -/
def gives (r : Answer) (f : State → Bool) : Bool :=
  match r with
  | .next t => f t
  | .fault _ => false
  | .refused _ => false

theorem exists_next {r : Answer} (h : gives r (fun _ => true) = true) : ∃ t, r = .next t := by
  cases r with
  | next t => exact ⟨t, rfl⟩
  | fault _ => cases h
  | refused _ => cases h

theorem exists_next_with {r : Answer} {f : State → Bool} (h : gives r f = true) : ∃ t, r = .next t ∧ f t = true := by
  cases r with
  | next t => exact ⟨t, rfl, h⟩
  | fault _ => cases h
  | refused _ => cases h

/-- A register's word after an instruction, as a check. -/
def reg (off : Nat) (v : Word) (t : State) : Bool := t.regRead off == v

/-- A byte after an instruction, as a check. -/
def byte (off : Nat) (b : Byte) (t : State) : Bool := Memory.get? off t.mem == some b

/-- What the last RD returned, as a check. -/
def read (v : Word) (t : State) : Bool := t.rdata == some v

/-! ## States -/

/-- Configured for V-LZW-1 (IN = 8C 0B, MCS 2, IN_LEN 2, EXPECT 4) and for V-DS-2 (2 x 3 pixels 10 to 60). -/
def idle : State :=
  { State.reset with
    lzw := { LzwRegs.reset with mcs := 2#8, inLen := 2#32, expect := 4#32 }
    ds := { DsRegs.reset with srcW := 2#16, srcH := 3#16 }
    mem := [(0x1018, 9#8), (0x100000, 0x8C#8), (0x100001, 0x0B#8), (0x1000000, 10#8), (0x1000001, 20#8),
      (0x1000002, 30#8), (0x1000003, 40#8), (0x1000004, 50#8), (0x1000005, 60#8)] }

/-- Right after LZW_START (V-CMD-7). -/
def started : State :=
  { idle with
    status := { Status.reset with lzwBusy := true }
    lzw := { idle.lzw with width := 3#4, next := 6#13 } }

/-- After `3:4 3:1` of V-LZW-1: a previous sequence exists and nothing has been added. -/
def one : State :=
  { started with
    lzw := { started.lzw with bitpos := 6#32, outCount := 1#32, prev := 1#12, prevv := true }
    mem := Memory.set 0x1000000 1#8 idle.mem }

/-- After `3:4 3:1 3:6`: code 6 is [1, 1]. -/
def two : State :=
  { one with
    lzw := { one.lzw with bitpos := 9#32, outCount := 3#32, prev := 6#12, next := 7#13 }
    dict := [(6, { prefixCode := 1#12, suffix := 1#8, first := 1#8, len := 2#12 })]
    mem := Memory.set 0x1000002 1#8 (Memory.set 0x1000001 1#8 one.mem) }

/-- V-LZW-11 and V-LZW-12 before the code 3:3: NEXT is 7, so the entry it adds widens the code. -/
def seven : State :=
  { two with lzw := { two.lzw with prev := 2#12, bitpos := 6#32, outCount := 2#32 } }

/-- The output is full: the next step stops with COUNT_REACHED (V-LZW-2). -/
def counted : State := { two with lzw := { two.lzw with expect := 3#32 } }

/-- Fewer bits left than a code (V-LZW-10). -/
def spent : State := { two with lzw := { two.lzw with bitpos := 14#32 } }

/-- Right after DS_START (V-CMD-14's form, on V-DS-2's raster). -/
def dsStarted : State := { idle with status := { Status.reset with dsBusy := true } }

/-- Before the last cell. -/
def dsLast : State := { dsStarted with ds := { dsStarted.ds with cell := 24#32 } }

/-- What `entries` asks of a state with few codes is a finite question. -/
theorem run_of {s : State} (h : (mcsMin ≤ s.lzw.mcs.toNat ∧ s.lzw.mcs.toNat ≤ mcsMax) ∧
    s.lzw.inLen.toNat ≤ s.params.inBytes ∧ s.lzw.expect.toNat ≤ s.params.pixBytes ∧
    s.lzw.outCount.toNat ≤ s.lzw.expect.toNat ∧ s.lzw.bitpos.toNat ≤ 8 * s.lzw.inLen.toNat ∧
    (s.lzw.mcs.toNat + 1 ≤ s.lzw.width.toNat ∧ s.lzw.width.toNat ≤ maxWidth) ∧
    (clearCode s.lzw.mcs + 2 ≤ s.lzw.next.toNat ∧ s.lzw.next.toNat ≤ dictCodes) ∧
    (s.lzw.next.toNat < cap s.lzw.width.toNat ∨
      (s.lzw.next.toNat = dictCodes ∧ s.lzw.width.toNat = maxWidth)) ∧
    (s.lzw.prevv = true → inDict s.lzw.mcs s.lzw.next.toNat s.lzw.prev.toNat))
    (he : ∀ c < s.lzw.next.toNat, clearCode s.lzw.mcs + 2 ≤ c → s.entryOk c = true) : s.LzwRun :=
  ⟨h.1, h.2.1, h.2.2.1, h.2.2.2.1, h.2.2.2.2.1, h.2.2.2.2.2.1, h.2.2.2.2.2.2.1, h.2.2.2.2.2.2.2.1,
    h.2.2.2.2.2.2.2.2, he⟩

theorem started_run : started.LzwRun := run_of (by decide) (by decide)
theorem one_run : one.LzwRun := run_of (by decide) (by decide)
theorem two_run : two.LzwRun := run_of (by decide) (by decide)
theorem seven_run : seven.LzwRun := run_of (by decide) (by decide)
theorem counted_run : counted.LzwRun := run_of (by decide) (by decide)
theorem spent_run : spent.LzwRun := run_of (by decide) (by decide)

theorem idle_inv : idle.Inv :=
  .of_idle (by decide) (by decide) (by decide) (by decide) (by decide) rfl rfl rfl rfl rfl

theorem inv_of_run {s : State} (h : s.params.Legal ∧ Memory.wf s.mem ∧ (∀ c ∈ s.mem, inBuffer s.params c.1 = true) ∧
    Memory.wf s.dict ∧ (∀ e ∈ s.dict, e.1 < dictCodes))
    (hs : s.status = { Status.reset with lzwBusy := true }) (hr : s.LzwRun) : s.Inv := by
  refine ⟨h.1, h.2.1, h.2.2.1, h.2.2.2.1, h.2.2.2.2, ?_, ?_, ?_, ?_, ?_, ?_, fun _ => hr, ?_⟩ <;>
    simp [hs, Status.reset]

theorem started_inv : started.Inv := inv_of_run (by decide) rfl started_run
theorem one_inv : one.Inv := inv_of_run (by decide) rfl one_run
theorem two_inv : two.Inv := inv_of_run (by decide) rfl two_run
theorem counted_inv : counted.Inv := inv_of_run (by decide) rfl counted_run
theorem spent_inv : spent.Inv := inv_of_run (by decide) rfl spent_run

theorem dsStarted_inv : dsStarted.Inv := by
  refine ⟨by decide, by decide, by decide, by decide, by decide, by decide, rfl, rfl, rfl, ?_, ?_, ?_, ?_⟩
  · intro _; rfl
  · intro _; rfl
  · intro h; cases h
  · exact fun _ => ⟨by decide, by decide, by decide, by decide⟩

theorem dsLast_inv : dsLast.Inv := by
  refine ⟨by decide, by decide, by decide, by decide, by decide, by decide, rfl, rfl, rfl, ?_, ?_, ?_, ?_⟩
  · intro _; rfl
  · intro _; rfl
  · intro h; cases h
  · exact fun _ => ⟨by decide, by decide, by decide, by decide⟩

/-! ## WellFormed: one ill-formed term for each check -/

theorem test_wf_illegal_word_is_no_command : Instr.wf Params.default (.illegalCmd 0x5#32) = true ∧
    Instr.wf Params.default (.illegalCmd 0x1#32) = false := by decide
theorem test_wf_clear_is_a_power : Instr.wf Params.default (.clear 256#12) = true ∧
    Instr.wf Params.default (.clear 2#12) = false := by decide
theorem test_wf_end_is_past_a_power : Instr.wf Params.default (.endCode 5#12) = true ∧
    Instr.wf Params.default (.endCode 4#12) = false := by decide
theorem test_wf_kwkwk_is_assignable : Instr.wf Params.default (.kwkwk 6#12) = true ∧
    Instr.wf Params.default (.kwkwk 5#12) = false := by decide
theorem test_wf_invalid_is_assignable : Instr.wf Params.default (.invalid 6#12) = true ∧
    Instr.wf Params.default (.invalid 5#12) = false := by decide
theorem test_wf_rd32Reg_is_aligned : Instr.wf Params.default (.rd32Reg 0xFC#32) = true ∧
    Instr.wf Params.default (.rd32Reg 0x16#32) = false ∧ Instr.wf Params.default (.rd32Reg 0x100#32) = false := by decide
theorem test_wf_rd8_is_mapped : Instr.wf Params.default (.rd8 0x1018#32) = true ∧
    Instr.wf Params.default (.rd8 0x1019#32) = false ∧ Instr.wf Params.default (.rd8 0x14#32) = false := by decide
theorem test_wf_rd16_is_aligned : Instr.wf Params.default (.rd16 0x10FFFE#32) = true ∧
    Instr.wf Params.default (.rd16 0x1000001#32) = false := by decide
theorem test_wf_rd32_fits : Instr.wf Params.default (.rd32 0x1014#32) = true ∧
    Instr.wf Params.default (.rd32 0x1018#32) = false := by decide
theorem test_wf_rdBusy_size : Instr.wf Params.default (.rdBusy 0x1000000#32 2) = true ∧
    Instr.wf Params.default (.rdBusy 0x1000000#32 3) = false := by decide
theorem test_wf_wr32Reg_is_not_ctrl : Instr.wf Params.default (.wr32Reg 0x14#32 0#32) = true ∧
    Instr.wf Params.default (.wr32Reg 0x10#32 1#32) = false ∧
    Instr.wf Params.default (.wr32Reg 0x15#32 0#32) = false := by decide
theorem test_wf_wr32CfgBusy_is_config : Instr.wf Params.default (.wr32CfgBusy 0x54#32 0#32) = true ∧
    Instr.wf Params.default (.wr32CfgBusy 0x2C#32 0#32) = false := by decide
theorem test_wf_wr8_is_mapped : Instr.wf Params.default (.wr8 0x1018#32 9#32) = true ∧
    Instr.wf Params.default (.wr8 0x1019#32 1#32) = false := by decide
theorem test_wf_wr16_is_aligned : Instr.wf Params.default (.wr16 0x1000000#32 5#32) = true ∧
    Instr.wf Params.default (.wr16 0x1000001#32 5#32) = false := by decide
theorem test_wf_wr32_fits : Instr.wf Params.default (.wr32 0x1014#32 1#32) = true ∧
    Instr.wf Params.default (.wr32 0x1018#32 1#32) = false := by decide
theorem test_wf_wrBusy_size : Instr.wf Params.default (.wrBusy 0x100000#32 1 0#32) = true ∧
    Instr.wf Params.default (.wrBusy 0x100000#32 8 0#32) = false := by decide
theorem test_wf_busIllegal_is_bad_shape : Instr.wf Params.default (.busIllegal (.rd 0x14#32 2)) = true ∧
    Instr.wf Params.default (.busIllegal (.rd 0x14#32 4)) = false ∧
    Instr.wf Params.default (.busIllegal (.wr 0x14#32 4 0#32)) = false := by decide

/-! ## Decoding: words, codes and tuples written out from 30_encoding.md -/

/-- The words of R109 and R110, bit by bit. -/
theorem test_decode_command_words :
    decodeCommand 0b00000000000000000000000000000000#32 = .nop ∧
    decodeCommand 0b00000000000000000000000000000001#32 = .lzwStart ∧
    decodeCommand 0b00000000000000000000000000000010#32 = .dsStart ∧
    decodeCommand 0b00000000000000000000000000000011#32 = .abort ∧
    decodeCommand 0b00000000000000000000000000000100#32 = .ack ∧
    decodeCommand 0b00000000000000000000000000001111#32 = .softReset ∧
    decodeCommand 0b00000000000000000000000000000101#32 = .illegalCmd 0x5#32 ∧
    decodeCommand 0b00000000000000000000000000010001#32 = .illegalCmd 0x11#32 ∧
    decodeCommand 0b10000000000000000000000000000001#32 = .illegalCmd 0x80000001#32 := by decide

/-- A command word as the aperture's bytes (20_memory.md R73). -/
theorem test_decode_command_bytes :
    (decodeCommandBytes [0x0F#8, 0#8, 0#8, 0#8]).toOption = some .softReset ∧
    (decodeCommandBytes [0#8, 0#8, 0#8, 0x0F#8]).toOption = some (.illegalCmd 0x0F000000#32) ∧
    (decodeCommandBytes [1#8, 0#8, 0#8]).toOption = none ∧
    (decodeCommandBytes [1#8, 0#8, 0#8, 0#8, 0#8]).toOption = none := by decide

/-- The host's table words. -/
theorem test_decode_table_words :
    decodeTableWord 32 1 = some .lzwStart ∧ decodeTableWord 32 15 = some .softReset ∧
    decodeTableWord 32 0xFFFFFFF0 = some (.illegalCmd 0xFFFFFFF0#32) ∧ decodeTableWord 16 1 = none := by decide

/-- What the five classes of R104 depend on, at MCS 2 (95_test_vectors.md §2.3.1). -/
def codeCtx (width : BitVec 4) (next : BitVec 13) (prevv : Bool) : DecodeCtx :=
  { params := Params.default, busy := true, mcs := 2#8, width := width, next := next, prevv := prevv }

/-- The bytes 8C 0B are `3:4 3:1 3:6 3:5` (95_test_vectors.md §1.3). -/
theorem test_decode_code_classes :
    (decode (codeCtx 3 6 false) (.stream [0x8C#8, 0x0B#8] 0)).toOption = some (.clear 4#12) ∧
    (decode (codeCtx 3 6 false) (.stream [0x8C#8, 0x0B#8] 3)).toOption = some (.dict 1#12) ∧
    (decode (codeCtx 3 6 true) (.stream [0x8C#8, 0x0B#8] 6)).toOption = some (.kwkwk 6#12) ∧
    (decode (codeCtx 3 7 true) (.stream [0x8C#8, 0x0B#8] 9)).toOption = some (.endCode 5#12) ∧
    (decode (codeCtx 3 6 false) (.stream [0x8C#8, 0x0B#8] 6)).toOption = some (.invalid 6#12) ∧
    (decode (codeCtx 3 7 true) (.stream [0x8C#8, 0x0B#8] 14)).toOption = none := by decide

/-- The window's three positions of 95_test_vectors.md §1.2: bytes D1 E0 10 from bits 9, 13 and 17, width 4. -/
theorem test_decode_code_bits :
    codeAt (fun k => [0xD1#8, 0xE0#8, 0x10#8].getD k 0) 9 4 = 0 ∧
    codeAt (fun k => [0xD1#8, 0xE0#8, 0x10#8].getD k 0) 13 4 = 7 ∧
    codeAt (fun k => [0xD1#8, 0xE0#8, 0x10#8].getD k 0) 17 4 = 8 ∧
    windowCode (fun k => [0xD1#8, 0xE0#8, 0x10#8].getD k 0) 13 4 = 7 := by decide

/-- The tuples of R111 and the column "condition" of spec/opcode_table.json, with no engine busy. -/
theorem test_decode_transactions_idle :
    decodeTxn State.reset.ctx (.rd 0x14#32 4) = .rd32Reg 0x14#32 ∧
    decodeTxn State.reset.ctx (.rd 0x1000002#32 1) = .rd8 0x1000002#32 ∧
    decodeTxn State.reset.ctx (.rd 0x1000002#32 2) = .rd16 0x1000002#32 ∧
    decodeTxn State.reset.ctx (.rd 0x100004#32 4) = .rd32 0x100004#32 ∧
    decodeTxn State.reset.ctx (.rd 0x1000002#32 4) = .busIllegal (.rd 0x1000002#32 4) ∧
    decodeTxn State.reset.ctx (.wr 0x20#32 4 3#32) = .wr32Reg 0x20#32 3#32 ∧
    decodeTxn State.reset.ctx (.wr 0x10#32 4 1#32) = .lzwStart ∧
    decodeTxn State.reset.ctx (.wr 0x1018#32 1 9#32) = .wr8 0x1018#32 9#32 ∧
    decodeTxn State.reset.ctx (.wr 0x10FFFE#32 2 0xBEEF#32) = .wr16 0x10FFFE#32 0xBEEF#32 ∧
    decodeTxn State.reset.ctx (.wr 0x1000000#32 4 0x44332211#32) = .wr32 0x1000000#32 0x44332211#32 := by decide

/-- The same with an engine busy. -/
theorem test_decode_transactions_busy :
    decodeTxn started.ctx (.rd 0x1000000#32 1) = .rdBusy 0x1000000#32 1 ∧
    decodeTxn dsStarted.ctx (.wr 0x20#32 4 3#32) = .wr32CfgBusy 0x20#32 3#32 ∧
    decodeTxn dsStarted.ctx (.wr 0x100000#32 1 0#32) = .wrBusy 0x100000#32 1 0#32 ∧
    decodeTxn started.ctx (.rd 0x1000001#32 2) = .busIllegal (.rd 0x1000001#32 2) ∧
    decodeTxn started.ctx (.rd 0x2C#32 4) = .rd32Reg 0x2C#32 := by decide

/-- The engines' turns (R180, R226). -/
theorem test_decode_turns :
    (decode started.ctx .lzwTurn).toOption = some .lzwStep ∧
    (decode started.ctx .dsTurn).toOption = some .dsCellStep := by decide

/-! ## Single steps -/

/-- The host's question: from reset, a command word placed for the next step runs (V-CMD-10 and V-CMD-3). -/
theorem test_fetch_word_runs :
    gives (step (State.reset.withFetchWord 32 1)) (reg 0x14 0x00000054#32) = true ∧
    gives (step (State.reset.withFetchWord 32 5)) (reg 0x14 0x00010000#32) = true := by decide

/-- V-CMD-1. -/
theorem test_nop : gives (exec .nop started) (fun t => decide (t = started)) = true := by decide
/-- V-CMD-7, V-CMD-20. -/
theorem test_lzwStart : gives (exec .lzwStart idle) (fun t => reg 0x14 1#32 t && reg 0x34 0x00060003#32 t) = true ∧
    gives (exec .lzwStart dsStarted) (fun t => reg 0x14 0x00010002#32 t && reg 0x34 0#32 t) = true := by decide
/-- V-CMD-13: BAD_MCS is tested first. -/
theorem test_lzwStart_bad : gives (exec .lzwStart { idle with lzw := { idle.lzw with mcs := 9#8, inLen := 0x10001#32 } })
      (fun t => reg 0x14 0x54#32 t && reg 0x34 0#32 t) = true ∧
    gives (exec .lzwStart { idle with lzw := { idle.lzw with expect := 0x10001#32 } }) (reg 0x14 0x64#32) = true := by
  decide
/-- V-CMD-14 and V-CMD-18: the product is exact. -/
theorem test_dsStart : gives (exec .dsStart idle) (reg 0x14 2#32) = true ∧
    gives (exec .dsStart { idle with ds := { idle.ds with srcW := 0xFFFF#16, srcH := 0xFFFF#16 } })
      (reg 0x14 0x208#32) = true := by decide
/-- V-CMD-16 and V-CMD-17. -/
theorem test_dsStart_limit :
    gives (exec .dsStart { idle with ds := { idle.ds with srcW := 256#16, srcH := 256#16 } }) (reg 0x14 2#32) = true ∧
    gives (exec .dsStart { idle with ds := { idle.ds with srcW := 256#16, srcH := 257#16 } })
      (reg 0x14 0x208#32) = true := by decide
/-- V-CMD-21 and V-CMD-2. -/
theorem test_abort : gives (exec .abort two) (fun t => reg 0x14 0x74#32 t && reg 0x2C 3#32 t) = true ∧
    gives (exec .abort idle) (fun t => decide (t = idle)) = true := by decide
/-- V-CMD-22. -/
theorem test_abort_ds : gives (exec .abort dsLast) (fun t => reg 0x14 0x308#32 t && reg 0x58 24#32 t) = true := by decide
/-- V-CMD-24: only the BUSY bit stays. -/
theorem test_ack : gives (exec .ack { two with status := { two.status with accerr := true, cmderr := true } })
    (fun t => decide (t = two)) = true := by decide
/-- V-CMD-26: the run ends with no result and the buffers stay. -/
theorem test_softReset : gives (exec .softReset two)
    (fun t => reg 0x14 0#32 t && reg 0x20 0#32 t && reg 0x34 0#32 t && byte 0x1000002 1#8 t) = true := by decide
/-- V-CMD-5. -/
theorem test_illegalCmd : gives (exec (.illegalCmd 0x11#32) idle) (reg 0x14 0x00010000#32) = true := by decide

/-- CLEAR forgets the previous sequence but not LZW_PREV (V-LZW-15). -/
theorem test_clear : gives (exec (.clear 4#12) one)
    (fun t => reg 0x34 0x00060003#32 t && reg 0x38 1#32 t && reg 0x30 9#32 t) = true := by decide
/-- V-LZW-1, its last step. -/
theorem test_endCode : gives (exec (.endCode 5#12) two)
    (fun t => reg 0x14 0x1014#32 t && reg 0x30 12#32 t && reg 0x34 0x00070013#32 t) = true := by decide
/-- V-LZW-12, its step 3:3: [3] is emitted, 7 = [2, 3] added, and the code widens. -/
theorem test_dict_grows : gives (exec (.dict 3#12) seven)
    (fun t => reg 0x34 0x00080014#32 t && reg 0x38 3#32 t && byte 0x1000002 3#8 t &&
      decide (t.seq 7#12 = some [2#8, 3#8])) = true := by decide
/-- A code of two indices, of which the expected count takes one (95_test_vectors.md §2.3.5). -/
theorem test_dict_cut : gives (exec (.dict 6#12) two)
    (fun t => reg 0x2C 4#32 t && byte 0x1000003 1#8 t && decide (t.bufByte .pix 4 = 50#8)) = true := by decide
/-- V-LZW-1, its step 3:6. -/
theorem test_kwkwk : gives (exec (.kwkwk 6#12) one)
    (fun t => reg 0x34 0x00070013#32 t && reg 0x38 6#32 t && reg 0x2C 3#32 t && byte 0x1000001 1#8 t &&
      byte 0x1000002 1#8 t && decide (t.seq 6#12 = some [1#8, 1#8])) = true := by decide
/-- V-LZW-3: the second index is dropped, the entry is still added. -/
theorem test_kwkwk_cut : gives (exec (.kwkwk 6#12) { one with lzw := { one.lzw with expect := 2#32 } })
    (fun t => reg 0x34 0x00070013#32 t && reg 0x2C 2#32 t && byte 0x1000002 30#8 t) = true := by decide
/-- V-LZW-5's form. -/
theorem test_invalid : gives (exec (.invalid 7#12) one)
    (fun t => reg 0x14 0x44#32 t && reg 0x3C 7#32 t && reg 0x40 6#32 t && reg 0x30 9#32 t) = true := by decide

/-- V-BUS-1 and V-BUS-2. -/
theorem test_rd32Reg : gives (exec (.rd32Reg 0x0#32) idle) (read 0x31575A4C#32) = true ∧
    gives (exec (.rd32Reg 0x4#32) idle) (read 0x0C640505#32) = true := by decide
/-- The pixels 30 and 40 are 1E and 28. -/
theorem test_rd8 : gives (exec (.rd8 0x1000002#32) idle) (read 0x1E#32) = true := by decide
theorem test_rd16 : gives (exec (.rd16 0x1000002#32) idle) (read 0x281E#32) = true := by decide
theorem test_rd32 : gives (exec (.rd32 0x1000000#32) idle) (read 0x281E140A#32) = true := by decide
/-- V-BUS-19. -/
theorem test_rdBusy : gives (exec (.rdBusy 0x1000000#32 1) started) (fun t => read 0#32 t && reg 0x14 0x00020001#32 t) = true := by
  decide
/-- V-BUS-4 and V-BUS-6. -/
theorem test_wr32Reg : gives (exec (.wr32Reg 0x20#32 0x1FF#32) idle) (reg 0x20 0xFF#32) = true ∧
    gives (exec (.wr32Reg 0x14#32 0xFFFFFFFF#32) idle) (fun t => decide (t = idle)) = true := by decide
/-- V-BUS-20. -/
theorem test_wr32CfgBusy : gives (exec (.wr32CfgBusy 0x20#32 3#32) dsStarted)
    (fun t => reg 0x20 2#32 t && reg 0x14 0x00020002#32 t) = true := by decide
/-- V-BUS-18. -/
theorem test_wr8 : gives (exec (.wr8 0x1018#32 0x1AB#32) idle) (fun t => byte 0x1018 0xAB#8 t && byte 0x100000 0x8C#8 t) = true := by
  decide
/-- V-BUS-13. -/
theorem test_wr16 : gives (exec (.wr16 0x10FFFE#32 0xBEEF#32) idle) (fun t => byte 0x10FFFE 0xEF#8 t && byte 0x10FFFF 0xBE#8 t) = true := by
  decide
/-- V-BUS-9. -/
theorem test_wr32 : gives (exec (.wr32 0x1000000#32 0x44332211#32) idle)
    (fun t => byte 0x1000000 0x11#8 t && byte 0x1000003 0x44#8 t && byte 0x1000004 50#8 t) = true := by decide
/-- V-BUS-21. -/
theorem test_wrBusy : gives (exec (.wrBusy 0x100000#32 1 0#32) dsStarted)
    (fun t => byte 0x100000 0x8C#8 t && reg 0x14 0x00020002#32 t) = true := by decide
/-- V-BUS-10 and V-BUS-16. -/
theorem test_busIllegal : gives (exec (.busIllegal (.rd 0x1000002#32 4)) idle) (fun t => read 0#32 t && reg 0x14 0x00040000#32 t) = true ∧
    gives (exec (.busIllegal (.wr 0x1018#32 4 1#32)) idle) (fun t => byte 0x1018 9#8 t && reg 0x14 0x00040000#32 t) = true := by
  decide

/-- V-LZW-2 (the count comes first) and V-LZW-10 (fewer bits than a code). -/
theorem test_lzwStep_stops : gives (exec .lzwStep counted) (fun t => reg 0x14 0x34#32 t && reg 0x30 9#32 t) = true ∧
    gives (exec .lzwStep spent) (fun t => reg 0x14 0x1024#32 t && reg 0x30 14#32 t) = true := by decide
/-- V-LZW-1: the step at bit 6 reads 3:6, the one at bit 9 reads 3:5. -/
theorem test_lzwStep_reads : gives (exec .lzwStep one) (fun t => reg 0x34 0x00070013#32 t && reg 0x30 9#32 t) = true ∧
    gives (exec .lzwStep two) (reg 0x14 0x1014#32) = true := by decide
/-- V-DS-2: the last cell samples pixel 60, which is brightness 24, and ends the run. -/
theorem test_dsCellStep : gives (exec .dsCellStep dsLast)
    (fun t => byte 0x1018 24#8 t && reg 0x58 25#32 t && reg 0x14 0x108#32 t) = true := by decide
/-- V-DS-2: cell 0 samples pixel 10, which is brightness 4. -/
theorem test_dsCellStep_first : gives (exec .dsCellStep dsStarted)
    (fun t => byte 0x1000 4#8 t && reg 0x58 1#32 t && reg 0x14 2#32 t) = true := by decide
/-- 95_test_vectors.md §2.4.1 and §2.4.2. -/
theorem test_sample_and_quantize :
    (List.range 5).map (sample 16 5) = [1, 4, 8, 11, 14] ∧ sample 65535 5 4 = 58981 ∧
    [1, 2, 76, 128, 254].map (quantize 100) = [0, 1, 30, 50, 100] ∧ quantize 1 127 = 0 ∧ quantize 1 128 = 1 := by decide
/-- The reset input keeps the buffers, power-on leaves their bytes to new free draws (R282, R283). -/
theorem test_resets :
    gives (step { two with turns := [.resetInput] }) (fun t => reg 0x14 0#32 t && byte 0x1000002 1#8 t) = true ∧
    gives (step { two with turns := [.powerOn] }) (fun t => reg 0x14 0#32 t && decide (t.mem = [] ∧ t.powerOns = 1)) = true := by
  decide

/-- WAITIDLE on an idle block ends with its first read; while the LZW engine runs it reads 1, the other agents move, and it reads
again (R114). -/
theorem test_waitIdle :
    gives (step { idle with turns := [.poll (waitIdle []), .ds] }) (fun t => read 0#32 t && t.turns == [.ds]) = true ∧
    gives (step { started with turns := [.poll (waitIdle [])] })
      (fun t => read 1#32 t && t.turns == [.lzw, .poll (waitIdle [])]) = true ∧
    gives (step { started with turns := [.poll (waitIdle [[.lzw, .lzw], []]), .ds] })
      (fun t => read 1#32 t && t.turns == [.lzw, .lzw, .poll (waitIdle [[]]), .ds]) = true := by decide

/-! ## Witnesses: what the hypotheses of each statement in Obligations.lean are met by

A statement whose hypotheses fall into clauses has every clause met, at the edge of its range where it has one. -/

/-- The smallest and a largest legal block (R7). -/
def small : Params := { inBytes := 1, pixBytes := 1, tgtW := 1, tgtH := 1, maxb := 1 }
def large : Params := { inBytes := 2 ^ 20, pixBytes := 2 ^ 24, tgtW := 255, tgtH := 240, maxb := 255 }

theorem witness_ResetHoldsResetValues : Params.default.Legal ∧ small.Legal ∧ large.Legal := by decide
theorem witness_InvariantHoldsAtReset : Params.default.Legal ∧ small.Legal ∧ large.Legal := by decide
theorem witness_Cap0AndCodestateShowTheirFields : small.Legal ∧ large.Legal := by decide

/-- From states with the invariant: a host write, an engine's step, a reset. -/
theorem witness_StepKeepsInvariant :
    (idle.Inv ∧ State.Inv { idle with turns := [.host (.wr 0x20#32 4 3#32)] } ∧
      ∃ t, step { idle with turns := [.host (.wr 0x20#32 4 3#32)] } = .next t) ∧
    (two.Inv ∧ ∃ t, step two = .next t) ∧ (dsLast.Inv ∧ ∃ t, step dsLast = .next t) :=
  ⟨⟨idle_inv, idle_inv.congr rfl rfl rfl rfl rfl rfl, exists_next (by decide)⟩, ⟨two_inv, exists_next (by decide)⟩,
    ⟨dsLast_inv, exists_next (by decide)⟩⟩

theorem witness_StepNeverStops : idle.Inv ∧ one.Inv ∧ two.Inv ∧ dsLast.Inv := ⟨idle_inv, one_inv, two_inv, dsLast_inv⟩

theorem witness_ConstantsNeverChange : (∃ t, step one = .next t) ∧
    ∃ t, step { one with turns := [.powerOn] } = .next t := ⟨exists_next (by decide), exists_next (by decide)⟩

/-- LZW_START while the DS engine runs (V-CMD-20), and DS_START while the LZW engine runs (V-CMD-19). -/
theorem witness_EnginesNeverRunTogether :
    (¬ (dsStarted.status.lzwBusy = true ∧ dsStarted.status.dsBusy = true) ∧
      ∃ t, step { dsStarted with turns := [.host (ctrlWrite 1#32)] } = .next t) ∧
    (¬ (started.status.lzwBusy = true ∧ started.status.dsBusy = true) ∧
      ∃ t, step { started with turns := [.host (ctrlWrite 2#32)] } = .next t) :=
  ⟨⟨by decide, exists_next (by decide)⟩, ⟨by decide, exists_next (by decide)⟩⟩

/-- One state for each of the seven clauses. -/
theorem witness_StepRunsDecodedInstruction :
    (∃ i, decode { idle with turns := [.host (ctrlWrite 1#32)] }.ctx (.bus (ctrlWrite 1#32)) = .ok i) ∧
    (∃ i, decode { one with turns := [.poll (waitIdle [])] }.ctx (.bus (.rd (waitIdle []).off 4)) = .ok i) ∧
    { one with turns := [.lzw] }.turns = .lzw :: [] ∧ { dsLast with turns := [.ds] }.turns = .ds :: [] ∧
    (one.turns = [] ∧ one.status.lzwBusy = true) ∧
    (dsLast.turns = [] ∧ dsLast.status.lzwBusy = false ∧ dsLast.status.dsBusy = true) ∧
    (idle.turns = [] ∧ idle.busy = false) :=
  ⟨⟨_, rfl⟩, ⟨_, rfl⟩, rfl, rfl, ⟨rfl, rfl⟩, ⟨rfl, rfl, rfl⟩, rfl, rfl⟩

/-- A code that decodes, and a stream with less than a code left. -/
theorem witness_LzwStepRunsDecodedCode :
    (one.status.lzwBusy = true ∧ one.lzw.outCount.toNat < one.lzw.expect.toNat ∧
      (decode one.ctx (.stream (inStream one) one.lzw.bitpos.toNat)).toOption = some (.kwkwk 6#12)) ∧
    (spent.status.lzwBusy = true ∧ spent.lzw.outCount.toNat < spent.lzw.expect.toNat ∧
      (decode spent.ctx (.stream (inStream spent) spent.lzw.bitpos.toNat)).toOption = none) := by decide

/-- One instruction of each row, where its row's condition holds. -/
theorem witness_DecodeInvertsEncode :
    (([.nop, .lzwStart, .dsStart, .abort, .ack, .softReset, .illegalCmd 5#32, .rd32Reg 0xFC#32, .rd8 0x1018#32,
      .rd16 0x10FFFE#32, .rd32 0x1000000#32, .wr32Reg 0x58#32 1#32, .wr8 0x100000#32 1#32, .wr16 0x1000#32 1#32,
      .wr32 0x100FFFC#32 1#32, .busIllegal (.rd 0x14#32 2), .busIllegal (.wr 0x100#32 4 0#32), .lzwStep,
      .dsCellStep] : List Instr).all fun i => i.wf idle.ctx.params && i.applies idle.ctx) = true ∧
    (([.clear 4#12, .endCode 5#12, .dict 6#12, .dict 3#12, .kwkwk 7#12, .rdBusy 0x1000000#32 2,
      .wr32CfgBusy 0x54#32 0#32, .wrBusy 0x100000#32 1 0#32] : List Instr).all
        fun i => i.wf two.ctx.params && i.applies two.ctx) = true ∧
    (([.invalid 6#12, .invalid 7#12] : List Instr).all fun i => i.wf started.ctx.params && i.applies started.ctx) = true := by decide

/-- R104's classes at MCS 2 and at MCS 8 with a full dictionary. -/
theorem witness_CodeClassesAreTheirConditions :
    [4, 5, 0, 3, 6, 7, 8].map (classify 2#8 7 true) =
      [.clear, .endCode, .dict, .dict, .dict, .kwkwk, .invalid] ∧
    [6, 7].map (classify 2#8 6 false) = [.invalid, .invalid] ∧
    [255, 256, 257, 258, 4095].map (classify 8#8 4096 true) = [.dict, .clear, .endCode, .dict, .dict] := by decide

/-- The last code of a stream, at the widest width. -/
theorem witness_CodeReadEqualsWindow : 12 ≤ maxWidth ∧ 12 + 12 ≤ 8 * 3 ∧ 0 + 0 ≤ 8 * 0 := by decide

theorem witness_RegisterReadAnswersItsWord : ((0x0#32).toNat < 0x100 ∧ (0x0#32).toNat % 4 = 0) ∧
    ((0xFC#32).toNat < 0x100 ∧ (0xFC#32).toNat % 4 = 0) := by decide

/-- The last byte, halfword and word that each access reaches (V-BUS-13, V-BUS-18). -/
theorem witness_BufferReadAnswersItsBytes :
    idle.params.Legal ∧ idle.busy = false ∧ InsideBuffer idle.params .out 0x1018 1 ∧
    InsideBuffer idle.params .inp 0x10FFFE 2 ∧ InsideBuffer idle.params .pix 0x100FFFC 4 ∧
    InsideBuffer idle.params .out 0x1014 4 ∧ Memory.get? 0x1000 idle.mem = none := by
  refine ⟨by decide, by decide, ?_, ?_, ?_, ?_, by decide⟩ <;> exact ⟨by decide, by decide, by decide⟩

theorem witness_BufferWriteStoresItsBytes :
    idle.params.Legal ∧ idle.busy = false ∧ InsideBuffer idle.params .out 0x1018 1 ∧
    InsideBuffer idle.params .inp 0x10FFFE 2 ∧ InsideBuffer idle.params .pix 0x100FFFC 4 := by
  refine ⟨by decide, by decide, ?_, ?_, ?_⟩ <;> exact ⟨by decide, by decide, by decide⟩

/-- Each width written, at a buffer's end, and each width read: inside the write, around it, and apart from it. -/
theorem witness_MixedWidthReadSeesWrittenBytes :
    idle.params.Legal ∧ idle.busy = false ∧
    ((1, Instr.wr8 0x1018#32 7#32) ∈
        [(1, Instr.wr8 0x1018#32 7#32), (2, Instr.wr16 0x1018#32 7#32), (4, Instr.wr32 0x1018#32 7#32)] ∧
      InsideBuffer idle.params .out 0x1018 1 ∧ InsideBuffer idle.params .out 0x1014 4) ∧
    ((2, Instr.wr16 0x10FFFE#32 7#32) ∈
        [(1, Instr.wr8 0x10FFFE#32 7#32), (2, Instr.wr16 0x10FFFE#32 7#32), (4, Instr.wr32 0x10FFFE#32 7#32)] ∧
      InsideBuffer idle.params .inp 0x10FFFE 2 ∧ InsideBuffer idle.params .inp 0x10FFFC 4) ∧
    (4, Instr.wr32 0x100FFFC#32 7#32) ∈
      [(1, Instr.wr8 0x100FFFC#32 7#32), (2, Instr.wr16 0x100FFFC#32 7#32), (4, Instr.wr32 0x100FFFC#32 7#32)] ∧
    InsideBuffer idle.params .pix 0x100FFFC 4 ∧ InsideBuffer idle.params .pix 0x100FFFF 1 ∧
    InsideBuffer idle.params .pix 0x100FFFE 2 := by
  refine ⟨by decide, by decide, ⟨by decide, ?_, ?_⟩, ⟨by decide, ?_, ?_⟩, by decide, ?_, ?_, ?_⟩ <;>
    exact ⟨by decide, by decide, by decide⟩

theorem witness_BusyAccessIsRefused :
    started.params.Legal ∧ started.busy = true ∧ InsideBuffer started.params .out 0x1018 1 ∧
    InsideBuffer started.params .inp 0x10FFFE 2 ∧ InsideBuffer started.params .pix 0x100FFFC 4 ∧
    (0x20#32).toNat ∈ [0x20, 0x24, 0x28, 0x50, 0x54] ∧ (0x54#32).toNat ∈ [0x20, 0x24, 0x28, 0x50, 0x54] := by
  refine ⟨by decide, by decide, ?_, ?_, ?_, by decide, by decide⟩ <;> exact ⟨by decide, by decide, by decide⟩

/-- No engine busy; an engine busy and a configuration register; the last read-only register and the last hole. -/
theorem witness_RegisterWriteFollowsItsRule :
    idle.busy = false ∧ (started.busy = true ∧ (0x28#32).toNat ∈ [0x20, 0x24, 0x28, 0x50, 0x54]) ∧
    ((0x58#32).toNat < 0x100 ∧ (0x58#32).toNat % 4 = 0 ∧ (0x58#32).toNat ∉ [0x10, 0x20, 0x24, 0x28, 0x50, 0x54]) ∧
    ((0xFC#32).toNat < 0x100 ∧ (0xFC#32).toNat % 4 = 0 ∧ (0xFC#32).toNat ∉ [0x10, 0x20, 0x24, 0x28, 0x50, 0x54]) := by
  decide

/-- Each of R138's four conditions failing: size 3, misaligned, past OUT's end, size 2 in REG; and a large size. -/
theorem witness_BadShapeSetsBuserr :
    idle.params.Legal ∧ ¬ ShapeOk idle.params 0x1000 3 ∧ ¬ ShapeOk idle.params 0x1000002 4 ∧
    ¬ ShapeOk idle.params 0x1018 4 ∧ ¬ ShapeOk idle.params 0x14 2 ∧ ¬ ShapeOk idle.params 0x1000 (2 ^ 32) := by
  have key : ∀ off n : Nat, (n = 3 ∨ n = 2 ^ 32 ∨ off % n ≠ 0 ∨
      (n = 4 ∧ off = 0x1018) ∨ (n = 2 ∧ off = 0x14)) → ¬ ShapeOk Params.default off n := by
    rintro off n h ⟨h1, h2, h3⟩
    rcases h3 with ⟨h3, h4⟩ | ⟨b, h3⟩
    · omega
    · cases b <;> simp only [Buf.base, Buf.size, Params.default] at h3 <;> omega
  refine ⟨by decide, key _ _ ?_, key _ _ ?_, key _ _ ?_, key _ _ ?_, key _ _ ?_⟩ <;> decide

theorem witness_IllegalCommandSetsCmderr : 2 ^ 4 ≤ (0x10#32).toNat ∧
    (5 ≤ (5#32).toNat % 16 ∧ (5#32).toNat % 16 ≤ 0xE) ∧ (5 ≤ (0xE#32).toNat % 16 ∧ (0xE#32).toNat % 16 ≤ 0xE) := by
  decide

/-- The idle block with other values in LZW_MCS, LZW_IN_LEN and LZW_EXPECT. -/
def withLzw (mcs : BitVec 8) (inLen expect : Word) : State :=
  { idle with lzw := { idle.lzw with mcs := mcs, inLen := inLen, expect := expect } }

/-- A busy block; MCS 9 and MCS 1 (V-CMD-8, V-CMD-9); a length one too large (V-CMD-11, V-CMD-12); accepted starts at the limits. -/
theorem witness_LzwStartFollowsItsRule :
    dsStarted.busy = true ∧
    (∀ s ∈ [withLzw 9#8 2#32 4#32, withLzw 1#8 2#32 4#32],
      s.busy = false ∧ ¬ (2 ≤ s.lzw.mcs.toNat ∧ s.lzw.mcs.toNat ≤ 8)) ∧
    (∀ s ∈ [withLzw 2#8 0x10001#32 4#32, withLzw 2#8 2#32 0x10001#32],
      s.busy = false ∧ 2 ≤ s.lzw.mcs.toNat ∧ s.lzw.mcs.toNat ≤ 8 ∧
        (s.params.inBytes < s.lzw.inLen.toNat ∨ s.params.pixBytes < s.lzw.expect.toNat)) ∧
    (∀ s ∈ [withLzw 2#8 0#32 0#32, withLzw 8#8 0x10000#32 0x10000#32],
      s.busy = false ∧ 2 ≤ s.lzw.mcs.toNat ∧ s.lzw.mcs.toNat ≤ 8 ∧
        s.lzw.inLen.toNat ≤ s.params.inBytes ∧ s.lzw.expect.toNat ≤ s.params.pixBytes) := by decide

/-- The idle block with other values in DS_SRC_W and DS_SRC_H. -/
def withDs (w h : BitVec 16) : State := { idle with ds := { idle.ds with srcW := w, srcH := h } }

/-- A busy block; SW 0, SH 0, a raster too large (V-CMD-16); the smallest accepted one and the largest (V-CMD-17). -/
theorem witness_DsStartFollowsItsRule :
    started.busy = true ∧
    (∀ s ∈ [withDs 0#16 5#16, withDs 5#16 0#16, withDs 256#16 257#16],
      s.busy = false ∧ (s.ds.srcW = 0#16 ∨ s.ds.srcH = 0#16 ∨ s.params.pixBytes < s.ds.srcW.toNat * s.ds.srcH.toNat)) ∧
    (∀ s ∈ [withDs 1#16 1#16, withDs 256#16 256#16],
      s.busy = false ∧ s.ds.srcW ≠ 0#16 ∧ s.ds.srcH ≠ 0#16 ∧
        s.ds.srcW.toNat * s.ds.srcH.toNat ≤ s.params.pixBytes) := by decide

/-- No engine, the LZW engine, the DS engine, and (in a state no run reaches) both. -/
theorem witness_AbortStopsTheBusyEngine :
    idle.busy = false ∧ (two.status.lzwBusy = true ∧ two.status.dsBusy = false) ∧
    (dsLast.status.lzwBusy = false ∧ dsLast.status.dsBusy = true) ∧
    ∃ s : State, s.status.lzwBusy = true ∧ s.status.dsBusy = true :=
  ⟨rfl, ⟨rfl, rfl⟩, ⟨rfl, rfl⟩, { two with status := { two.status with dsBusy := true } }, rfl, rfl⟩

theorem witness_ResetTurnsFollowTheirRule :
    { two with turns := [.resetInput] }.turns = .resetInput :: [] ∧
    { two with turns := [.powerOn, .lzw] }.turns = .powerOn :: [.lzw] := ⟨rfl, rfl⟩

theorem witness_ClearReseedsTheDictionary :
    two.Inv ∧ two.status.lzwBusy = true ∧ CodeLeft two ∧ two.classOf 4#12 = .clear :=
  ⟨two_inv, rfl, by decide, by decide⟩

theorem witness_EndStopsTheRun :
    two.Inv ∧ two.status.lzwBusy = true ∧ CodeLeft two ∧ two.classOf 5#12 = .endCode :=
  ⟨two_inv, rfl, by decide, by decide⟩

/-- A seeded literal and an added entry. -/
theorem witness_DictEmitsItsSequence :
    two.Inv ∧ two.status.lzwBusy = true ∧ CodeLeft two ∧ two.classOf 3#12 = .dict ∧ two.classOf 6#12 = .dict :=
  ⟨two_inv, rfl, by decide, by decide, by decide⟩

theorem witness_KwkwkRepeatsThePreviousSequence :
    (one.Inv ∧ one.status.lzwBusy = true ∧ CodeLeft one ∧ one.classOf 6#12 = .kwkwk) ∧
    (two.Inv ∧ two.status.lzwBusy = true ∧ CodeLeft two ∧ two.classOf 7#12 = .kwkwk) :=
  ⟨⟨one_inv, rfl, by decide, by decide⟩, two_inv, rfl, by decide, by decide⟩

/-- A code past NEXT, and NEXT itself with no previous sequence (V-LZW-5, V-LZW-6). -/
theorem witness_InvalidStopsTheRun :
    (two.Inv ∧ two.status.lzwBusy = true ∧ CodeLeft two ∧ two.classOf 8#12 = .invalid) ∧
    (started.Inv ∧ started.status.lzwBusy = true ∧ CodeLeft started ∧ started.classOf 6#12 = .invalid) :=
  ⟨⟨two_inv, rfl, by decide, by decide⟩, started_inv, rfl, by decide, by decide⟩

/-- Room left, and none. -/
theorem witness_EmitIsCutAtTheExpectedCount :
    one.lzw.outCount.toNat ≤ one.lzw.expect.toNat ∧ counted.lzw.outCount.toNat ≤ counted.lzw.expect.toNat := by decide

/-! ### A full dictionary -/

/-- Every entry from 258 up is [0, 0]. -/
def pairs : List (Nat × DictEntry) :=
  (List.range' 258 3838).map fun k => (k, { prefixCode := 0#12, suffix := 0#8, first := 0#8, len := 2#12 })

/-- MCS 8 with all 4096 codes in use. -/
def full : State :=
  { started with
    lzw := { started.lzw with mcs := 8#8, width := 12#4, next := 4096#13, prevv := true, prev := 4095#12 }
    dict := pairs }

theorem get?_pairs (a n c : Nat) (e : DictEntry) (h : a ≤ c ∧ c < a + n) :
    Memory.get? c ((List.range' a n).map fun k => (k, e)) = some e := by
  induction n generalizing a with
  | zero => omega
  | succ n ih =>
    rw [List.range'_succ, List.map_cons, Memory.get?]
    split
    · rfl
    · exact ih (a + 1) (by omega)

theorem full_run : full.LzwRun := by
  refine run_of (by decide) fun c hc h2 => ?_
  have h2 : 258 ≤ c := h2
  have hc : c < 4096 := hc
  refine State.entryOk_iff.2 ⟨_, get?_pairs 258 3838 c _ ⟨h2, by omega⟩, ?_, .inl (by decide), by decide, by decide,
    by decide, ?_⟩
  · show 0 < c
    omega
  · show 2 ≤ c - 256
    omega

/-- A dictionary with room and a full one. -/
theorem witness_AddedEntryDenotesItsSequence :
    (two.LzwRun ∧ inDict two.lzw.mcs two.lzw.next.toNat (6#12).toNat ∧ two.lzw.next.toNat < dictCodes) ∧
    (full.LzwRun ∧ inDict full.lzw.mcs full.lzw.next.toNat (4095#12).toNat ∧ full.lzw.next.toNat = dictCodes) :=
  ⟨⟨two_run, by decide, by decide⟩, full_run, by decide, by decide⟩

/-- The first added code and the last there can be. -/
theorem witness_MembersDenoteBoundedSequences :
    (two.LzwRun ∧ inDict two.lzw.mcs two.lzw.next.toNat (6#12).toNat ∧ clearCode two.lzw.mcs + 2 ≤ (6#12).toNat) ∧
    (full.LzwRun ∧ inDict full.lzw.mcs full.lzw.next.toNat (4095#12).toNat) :=
  ⟨⟨two_run, by decide, by decide⟩, full_run, by decide⟩

/-! ### Steps and runs -/

/-- A full output with codes left, fewer bits than a code with output left, an idle engine. -/
theorem witness_LzwStepStopsInOrder :
    (counted.status.lzwBusy = true ∧ counted.lzw.expect.toNat ≤ counted.lzw.outCount.toNat ∧ CodeLeft counted) ∧
    (spent.status.lzwBusy = true ∧ spent.lzw.outCount.toNat < spent.lzw.expect.toNat ∧ ¬ CodeLeft spent) ∧
    idle.status.lzwBusy = false := by
  refine ⟨⟨rfl, by decide, by decide⟩, ⟨rfl, by decide, ?_⟩, rfl⟩
  unfold CodeLeft
  decide

theorem witness_LzwStepReadsOneCode :
    one.Inv ∧ one.status.lzwBusy = true ∧ one.lzw.outCount.toNat < one.lzw.expect.toNat ∧ CodeLeft one :=
  ⟨one_inv, rfl, by decide, by decide⟩

theorem witness_LzwRunTerminates : (started.Inv ∧ started.status.lzwBusy = true ∧ started.turns = []) ∧
    (spent.Inv ∧ spent.status.lzwBusy = true ∧ spent.turns = []) := ⟨⟨started_inv, rfl, rfl⟩, spent_inv, rfl, rfl⟩

theorem idle_ready : ReadyForLzw idle := ⟨rfl, rfl, by decide, by decide, by decide, by decide⟩

theorem witness_LzwRunRefinesDocument : idle.Inv ∧ ReadyForLzw idle := ⟨idle_inv, idle_ready⟩

/-- The codes of V-LZW-1, `3:4 3:1 3:6 3:5`, are an encoder's for [1, 1, 1]. -/
def oneOneOne : List (Nat × Nat) := [(4, 3), (1, 3), (6, 3), (5, 3)]

theorem oneOneOne_encodes : Encodes 2 (Doc.start 2) [1#8, 1#8, 1#8] oneOneOne := by
  refine ⟨rfl, by decide, .inr (.inl ⟨rfl, ?_⟩)⟩
  refine ⟨rfl, by decide, .inr (.inr ⟨[1#8], [1#8, 1#8], rfl, by decide, rfl, ?_⟩)⟩
  refine ⟨rfl, by decide, .inr (.inr ⟨[1#8, 1#8], [], rfl, by decide, rfl, ?_⟩)⟩
  exact ⟨rfl, by decide, .inl ⟨rfl, rfl, rfl⟩⟩

/-- With room for one index more than there are (END_CODE), and with none (COUNT_REACHED). -/
theorem witness_DecodingInvertsEncoding :
    (idle.Inv ∧ ReadyForLzw idle ∧ (∀ b ∈ [1#8, 1#8, 1#8], b.toNat < 2 ^ idle.lzw.mcs.toNat) ∧
      Encodes idle.lzw.mcs.toNat (Doc.start idle.lzw.mcs.toNat) [1#8, 1#8, 1#8] oneOneOne ∧
      inStream idle = leBytes (packedLen oneOneOne) (packed oneOneOne) ∧
      [1#8, 1#8, 1#8].length < idle.lzw.expect.toNat) ∧
    (State.Inv { idle with lzw := { idle.lzw with expect := 3#32 } } ∧
      ReadyForLzw { idle with lzw := { idle.lzw with expect := 3#32 } } ∧ 3 ≤ (3#32).toNat) :=
  ⟨⟨idle_inv, idle_ready, by decide, oneOneOne_encodes, by decide, by decide⟩,
    .of_idle (by decide) (by decide) (by decide) (by decide) (by decide) rfl rfl rfl rfl rfl,
    ⟨rfl, rfl, by decide, by decide, by decide, by decide⟩, by decide⟩

/-- A step that emits two indices, and one whose output is already full. -/
theorem witness_LzwStepWritesOnlyEmittedPix :
    (∃ t, exec .lzwStep one = .next t ∧ decide (one.lzw.outCount.toNat ≤ one.lzw.expect.toNat) = true) ∧
    ∃ t, exec .lzwStep counted = .next t ∧
      decide (counted.lzw.outCount.toNat ≤ counted.lzw.expect.toNat) = true :=
  ⟨(exists_next (by decide)).imp fun _ h => ⟨h, by decide⟩, (exists_next (by decide)).imp fun _ h => ⟨h, by decide⟩⟩

/-- An engine step after which the run goes on, and a host write to IN that is refused. -/
theorem witness_RunInputIsFixed :
    (one.Inv ∧ one.status.lzwBusy = true ∧ ∃ t, step one = .next t ∧ t.status.lzwBusy = true) ∧
    ∃ t, step { one with turns := [.host (.wr 0x100000#32 1 0#32)] } = .next t ∧ t.status.lzwBusy = true :=
  ⟨⟨one_inv, rfl, exists_next_with (f := fun t => t.status.lzwBusy) (by decide)⟩,
    exists_next_with (f := fun t => t.status.lzwBusy) (by decide)⟩

/-- A state with all three error flags. -/
def flagged : State := { two with status := { two.status with cmderr := true, accerr := true, buserr := true } }

/-- ACK, SOFT_RESET, the reset input and power-on each clear a flag. -/
theorem witness_OnlyAckAndResetClearErrorFlags :
    (flagged.status.cmderr = true ∧ flagged.status.accerr = true ∧ flagged.status.buserr = true) ∧
    (∃ t, step { flagged with turns := [.host (ctrlWrite 4#32)] } = .next t ∧ (!t.status.cmderr) = true) ∧
    (∃ t, step { flagged with turns := [.host (ctrlWrite 15#32)] } = .next t ∧ (!t.status.accerr) = true) ∧
    (∃ t, step { flagged with turns := [.resetInput] } = .next t ∧ (!t.status.buserr) = true) ∧
    ∃ t, step { flagged with turns := [.powerOn] } = .next t ∧ (!t.status.buserr) = true :=
  ⟨⟨rfl, rfl, rfl⟩, exists_next_with (f := fun t => !t.status.cmderr) (by decide),
    exists_next_with (f := fun t => !t.status.accerr) (by decide),
    exists_next_with (f := fun t => !t.status.buserr) (by decide),
    exists_next_with (f := fun t => !t.status.buserr) (by decide)⟩

/-- An idle engine, the first cell and the last. -/
theorem witness_DsStepWritesOneCell :
    idle.status.dsBusy = false ∧ (dsStarted.Inv ∧ dsStarted.status.dsBusy = true) ∧
    (dsLast.Inv ∧ dsLast.status.dsBusy = true ∧
      dsLast.ds.cell.toNat + 1 = dsLast.params.tgtW * dsLast.params.tgtH) :=
  ⟨rfl, ⟨dsStarted_inv, rfl⟩, dsLast_inv, rfl, by decide⟩

/-- The last target of an upscale and of the largest source; the last cell. -/
theorem witness_SamplingStaysInsideTheRaster :
    (1 ≤ 1 ∧ 254 < 255) ∧ (1 ≤ 65535 ∧ 4 < 5) ∧
    (1 ≤ idle.ds.srcW.toNat ∧ 1 ≤ idle.ds.srcH.toNat ∧ 24 < idle.params.tgtW * idle.params.tgtH) := by decide

theorem witness_RescaleRoundsToNearest : 0 ≤ 255 ∧ 255 ≤ 255 := by decide

/-- A raster of the target's own size, at the last cell. -/
theorem witness_EqualSizesSampleIdentically :
    4 < 5 ∧ ∃ s : State, s.ds.srcW.toNat = s.params.tgtW ∧ s.ds.srcH.toNat = s.params.tgtH ∧
      24 < s.params.tgtW * s.params.tgtH :=
  ⟨by decide, { idle with ds := { idle.ds with srcW := 5#16, srcH := 5#16 } }, by decide⟩

theorem witness_DsRunFillsOut : dsStarted.Inv ∧ dsStarted.status.dsBusy = true ∧ dsStarted.ds.cell = 0#32 ∧
    dsStarted.turns = [] := ⟨dsStarted_inv, rfl, rfl, rfl⟩

/-- Two runs on one raster that differ in what lies in OUT and IN. -/
def dsOther : State := { dsStarted with mem := Memory.set 0x100000 0#8 (Memory.set 0x1000 1#8 dsStarted.mem) }

theorem dsOther_inv : dsOther.Inv :=
  (dsStarted_inv.setByte (a := 0x1000) (by decide) 1#8).setByte (a := 0x100000) (by decide) 0#8

theorem witness_DsResultDependsOnRasterOnly :
    (dsStarted.Inv ∧ dsOther.Inv ∧ dsStarted.status.dsBusy = true ∧ dsOther.status.dsBusy = true ∧
      dsStarted.ds.cell = 0#32 ∧ dsOther.ds.cell = 0#32 ∧ dsStarted.turns = [] ∧ dsOther.turns = []) ∧
    (dsStarted.params = dsOther.params ∧ dsStarted.ds.srcW = dsOther.ds.srcW ∧
      dsStarted.ds.srcH = dsOther.ds.srcH) ∧
    (∀ k < dsStarted.ds.srcW.toNat * dsStarted.ds.srcH.toNat,
      dsStarted.bufByte .pix k = dsOther.bufByte .pix k) ∧ dsStarted.mem ≠ dsOther.mem :=
  ⟨⟨dsStarted_inv, dsOther_inv, rfl, rfl, rfl, rfl, rfl, rfl⟩, ⟨rfl, rfl, rfl⟩, by decide, by decide⟩

/-- V-DS-3's form: a raster of one pixel. -/
def dsUniform : State := { dsStarted with ds := { dsStarted.ds with srcW := 1#16, srcH := 1#16 } }

theorem dsUniform_inv : dsUniform.Inv := by
  refine ⟨by decide, by decide, by decide, by decide, by decide, by decide, rfl, rfl, rfl, ?_, ?_, ?_, ?_⟩
  · intro _; rfl
  · intro _; rfl
  · intro h; cases h
  · exact fun _ => ⟨by decide, by decide, by decide, by decide⟩

theorem witness_UniformRasterGivesUniformOut :
    dsUniform.Inv ∧ dsUniform.status.dsBusy = true ∧ dsUniform.ds.cell = 0#32 ∧ dsUniform.turns = [] ∧
    ∀ k < dsUniform.ds.srcW.toNat * dsUniform.ds.srcH.toNat, dsUniform.bufByte .pix k = 10#8 :=
  ⟨dsUniform_inv, rfl, rfl, rfl, by decide⟩

/-- The last byte of a FILL and of a DUMP. -/
theorem witness_PseudoInstructionsExpand :
    (2 < [1#8, 2#8, 3#8].length ∧ (fillTxns .pix 4 [1#8, 2#8, 3#8])[2]? = some (.wr 0x1000006#32 1 3#32)) ∧
    (1 < 2 ∧ (dumpTxns .out 23 2)[1]? = some (.rd 0x1018#32 1)) := by decide

/-- A loop that waits for a bit no register has: bit 31 of LZW_MCS. -/
def endless (between : List (List Agent)) : Poll := { off := 0x20#32, mask := 0x80000000#32, value := 0x80000000#32, between }

/-- A read that ends the loop; and reads that do not, in each of the four clauses. -/
theorem witness_PollRepeatsUntilItMatches :
    (idle.regRead 0x14 &&& (waitIdle []).mask = (waitIdle []).value) ∧
    (two.regRead 0x14 &&& (waitIdle [[.lzw]]).mask ≠ (waitIdle [[.lzw]]).value ∧ (waitIdle [[.lzw]]).between = [.lzw] :: []) ∧
    (two.regRead 0x14 &&& (waitIdle []).mask ≠ (waitIdle []).value ∧ two.status.lzwBusy = true) ∧
    (dsLast.regRead 0x14 &&& (waitIdle []).mask ≠ (waitIdle []).value ∧ dsLast.status.lzwBusy = false ∧
      dsLast.status.dsBusy = true) ∧
    (idle.regRead 0x20 &&& (endless []).mask ≠ (endless []).value ∧ idle.busy = false) := by decide

/-- A loop that starts while an engine runs, with and without rounds listed, and one that starts when none does. -/
theorem witness_WaitIdleEnds :
    State.Inv { started with turns := [.poll (waitIdle [[], [.ds, .lzw]]), .lzw] } ∧
    State.Inv { dsStarted with turns := [.poll (waitIdle [])] } ∧ State.Inv { idle with turns := [.poll (waitIdle [])] } :=
  ⟨started_inv.congr rfl rfl rfl rfl rfl rfl, dsStarted_inv.congr rfl rfl rfl rfl rfl rfl,
    idle_inv.congr rfl rfl rfl rfl rfl rfl⟩

end Sys2Proof.Tests
end

section
/-! PROOFS. What a step is, by the turn at the head of the list and, with no turn left, by the engine that is busy (00_scope.md R13,
60_exceptions.md R268, 70_reset_and_hazards.md R297). -/

namespace Sys2Proof.Machine

/-! ## The next event -/

theorem nextEvent_of_turns_cons {s : State} {t : Turn} {ts : List Turn} (h : s.turns = t :: ts) :
    nextEvent s = (eventOf s t, { s with turns := ts }) := by
  rw [nextEvent, h]

theorem nextEvent_of_turns_nil {s : State} (h : s.turns = []) : nextEvent s = (idleEvent s, s) := by
  rw [nextEvent, h]

theorem idleEvent_of_lzwBusy {s : State} (h : s.status.lzwBusy = true) : idleEvent s = .run .lzwStep :=
  if_pos h

theorem idleEvent_of_dsBusy {s : State} (hl : s.status.lzwBusy = false) (hd : s.status.dsBusy = true) :
    idleEvent s = .run .dsCellStep := by
  simp [idleEvent, hl, hd]

theorem idleEvent_of_not_busy {s : State} (h : s.busy = false) : idleEvent s = .wait := by
  obtain ⟨hl, hd⟩ := State.busy_eq_false.mp h
  simp [idleEvent, hl, hd]

/-! ## The step an event takes -/

theorem step_of_run {s t : State} {i : Instr} (h : nextEvent s = (.run i, t)) : step s = exec i t := by
  rw [step, h]

theorem step_of_poll {s t : State} {p : Poll} (h : nextEvent s = (.poll p, t)) :
    step s = pollOn p (exec (decodeTxn t.ctx (pollTxn p.off)) t) := by
  rw [step, h]

theorem step_of_wait {s t : State} (h : nextEvent s = (.wait, t)) : step s = .next t := by
  rw [step, h]

/-! ## The step, by the next turn -/

/-- Decoding reads no turn, so a transaction means the same once its own turn is used up. -/
@[simp] theorem State.ctx_with_turns (s : State) (ts : List Turn) : State.ctx { s with turns := ts } = s.ctx := rfl

theorem decode_bus_eq_ok {ctx : DecodeCtx} {x : Txn} {i : Instr} : decode ctx (.bus x) = .ok i ↔ decodeTxn ctx x = i :=
  Iff.of_eq (Except.ok.injEq _ _)

theorem step_of_host_turn {s : State} {x : Txn} {ts : List Turn} {i : Instr} (h : s.turns = .host x :: ts)
    (hi : decode s.ctx (.bus x) = .ok i) : step s = exec i { s with turns := ts } := by
  obtain rfl := decode_bus_eq_ok.mp hi
  exact step_of_run (nextEvent_of_turns_cons h)

theorem step_of_lzw_turn {s : State} {ts : List Turn} (h : s.turns = .lzw :: ts) :
    step s = exec .lzwStep { s with turns := ts } :=
  step_of_run (nextEvent_of_turns_cons h)

theorem step_of_ds_turn {s : State} {ts : List Turn} (h : s.turns = .ds :: ts) :
    step s = exec .dsCellStep { s with turns := ts } :=
  step_of_run (nextEvent_of_turns_cons h)

theorem step_of_poll_turn {s : State} {p : Poll} {ts : List Turn} {i : Instr} (h : s.turns = .poll p :: ts)
    (hi : decode s.ctx (.bus (.rd p.off 4)) = .ok i) : step s = pollOn p (exec i { s with turns := ts }) := by
  obtain rfl := decode_bus_eq_ok.mp hi
  rw [step_of_poll (nextEvent_of_turns_cons h), State.ctx_with_turns, pollTxn]

/-! ## The step with no turn left -/

theorem step_of_no_turn_lzwBusy {s : State} (h : s.turns = []) (hl : s.status.lzwBusy = true) :
    step s = exec .lzwStep s :=
  step_of_run (by rw [nextEvent_of_turns_nil h, idleEvent_of_lzwBusy hl])

theorem step_of_no_turn_dsBusy {s : State} (h : s.turns = []) (hl : s.status.lzwBusy = false)
    (hd : s.status.dsBusy = true) : step s = exec .dsCellStep s :=
  step_of_run (by rw [nextEvent_of_turns_nil h, idleEvent_of_dsBusy hl hd])

theorem step_of_no_turn_not_busy {s : State} (h : s.turns = []) (hb : s.busy = false) : step s = .next s :=
  step_of_wait (by rw [nextEvent_of_turns_nil h, idleEvent_of_not_busy hb])

/-- Settles O7: one rule per kind of next turn, and one per case with no turn left. -/
theorem stepRunsDecodedInstruction : Obligations.StepRunsDecodedInstruction :=
  ⟨fun _ _ _ _ => step_of_host_turn, fun _ _ => step_of_lzw_turn, fun _ _ => step_of_ds_turn,
    fun _ _ _ _ => step_of_poll_turn, fun _ => step_of_no_turn_lzwBusy, fun _ => step_of_no_turn_dsBusy,
    fun _ => step_of_no_turn_not_busy⟩

end Sys2Proof.Machine
end

section
/-! PROOFS. What a command, an engine's step and a code can answer: one lemma per operation, by the tests it makes, so that no later
proof unfolds it (40_host_interface.md R141 to R146, 41_lzw_decode.md R180 to R188, 42_downscale_quantize.md R226). -/

namespace Sys2Proof.Machine

/-! ## Commands -/

/-- The state in which LZW_START leaves a run that it has accepted (R141, R171). -/
def State.lzwStarted (s : State) : State :=
  { s.clearLzwRun.initDict with status := { s.clearLzwRun.status with lzwBusy := true } }

/-- The state in which DS_START leaves a run that it has accepted (R142). -/
def State.dsStarted (s : State) : State :=
  { s.clearDsRun with status := { s.clearDsRun.status with dsBusy := true } }

/-- The state in which ACK leaves the block (R144). -/
def State.acked (s : State) : State :=
  { s with status := { s.status with
    lzwDone := false, dsDone := false, lzwStop := .none, dsResult := .none, short := false,
    cmderr := false, accerr := false, buserr := false } }

/-- LZW_START is refused, stops with BAD_MCS or BAD_LENGTH, or begins a run (R141). -/
theorem execLzwStart_cases (s : State) :
    (s.busy = true ∧ execLzwStart s = .next s.setCmderr) ∨
    (s.busy = false ∧ execLzwStart s = .next (s.clearLzwRun.stopLzw .badMcs)) ∨
    (s.busy = false ∧ execLzwStart s = .next (s.clearLzwRun.stopLzw .badLength)) ∨
    (s.busy = false ∧ (mcsMin ≤ s.lzw.mcs.toNat ∧ s.lzw.mcs.toNat ≤ mcsMax) ∧
      s.lzw.inLen.toNat ≤ s.params.inBytes ∧ s.lzw.expect.toNat ≤ s.params.pixBytes ∧
      execLzwStart s = .next s.lzwStarted) := by
  simp only [execLzwStart]
  split_ifs with hb hm hl
  · exact .inl ⟨hb, rfl⟩
  · exact .inr (.inl ⟨by simpa using hb, rfl⟩)
  · exact .inr (.inr (.inl ⟨by simpa using hb, rfl⟩))
  · simp only [State.clearLzwRun_lzw, State.clearLzwRun_params] at hm hl
    exact .inr (.inr (.inr ⟨by simpa using hb, by omega, by omega, by omega, rfl⟩))

/-- DS_START is refused, stops with BAD_DIMS, or begins a run (R142). -/
theorem execDsStart_cases (s : State) :
    (s.busy = true ∧ execDsStart s = .next s.setCmderr) ∨
    (s.busy = false ∧ execDsStart s = .next (s.clearDsRun.stopDs .badDims)) ∨
    (s.busy = false ∧ 1 ≤ s.ds.srcW.toNat ∧ 1 ≤ s.ds.srcH.toNat ∧
      s.ds.srcW.toNat * s.ds.srcH.toNat ≤ s.params.pixBytes ∧ execDsStart s = .next s.dsStarted) := by
  simp only [execDsStart]
  split_ifs with hb hd
  · exact .inl ⟨hb, rfl⟩
  · exact .inr (.inl ⟨by simpa using hb, rfl⟩)
  · simp only [State.clearDsRun_ds, State.clearDsRun_params] at hd
    exact .inr (.inr ⟨by simpa using hb, by omega, by omega, by omega, rfl⟩)

/-- ABORT stops the engines that are busy (R143). -/
theorem execAbort_cases (s : State) :
    execAbort s = .next s ∨ execAbort s = .next (s.stopLzw .aborted) ∨ execAbort s = .next (s.stopDs .aborted) ∨
    execAbort s = .next ((s.stopLzw .aborted).stopDs .aborted) := by
  cases hl : s.status.lzwBusy <;> cases hd : s.status.dsBusy <;> simp [execAbort, hl, hd]

/-- What a command word can do, by its command (R134, R140 to R146). -/
theorem command_cases (v : Word) (s : State) :
    command v s = .next s ∨ command v s = execLzwStart s ∨ command v s = execDsStart s ∨ command v s = execAbort s ∨
    (decodeCommand v = .ack ∧ command v s = .next s.acked) ∨
    (decodeCommand v = .softReset ∧ command v s = .next s.resetRegisters) ∨ command v s = .next s.setCmderr := by
  unfold command decodeCommand
  cases classifyCommand v with
  | nop => exact .inl rfl
  | lzwStart => exact .inr (.inl rfl)
  | dsStart => exact .inr (.inr (.inl rfl))
  | abort => exact .inr (.inr (.inr (.inl rfl)))
  | ack => exact .inr (.inr (.inr (.inr (.inl ⟨rfl, rfl⟩))))
  | softReset => exact .inr (.inr (.inr (.inr (.inr (.inl ⟨rfl, rfl⟩)))))
  | illegal => exact .inr (.inr (.inr (.inr (.inr (.inr rfl)))))

/-! ## Codes -/

/-- DICT is for members only (R104). -/
theorem inDict_of_classify_dict {mcs : BitVec 8} {next c : Nat} {prevv : Bool}
    (h : classify mcs next prevv c = .dict) : inDict mcs next c := by
  unfold classify at h
  split_ifs at h
  assumption

/-- KWKWK is for the code about to be added, after a previous one (R104). -/
theorem eq_next_of_classify_kwkwk {mcs : BitVec 8} {next c : Nat} {prevv : Bool}
    (h : classify mcs next prevv c = .kwkwk) : c = next ∧ prevv = true := by
  unfold classify at h
  split_ifs at h
  assumption

/-- A sequence can be taken only if it has an index. -/
theorem State.takeSequence_ne_nil {s t : State} {c : Code} {q : List Byte} (h : s.takeSequence c q = .next t) :
    q ≠ [] := by
  rintro rfl
  cases h

/-- DICT takes the code's sequence (R186). -/
theorem execDict_next {c : Code} {s t : State} (h : execDict c s = .next t) :
    ∃ q, s.seq c = some q ∧ s.advance.takeSequence c q = .next t := by
  unfold execDict at h
  split at h
  · exact ⟨_, ‹_›, h⟩
  · cases h

/-- KWKWK takes the previous sequence with its first index added (R187). -/
theorem execKwkwk_next {c : Code} {s t : State} (h : execKwkwk c s = .next t) :
    ∃ q f, s.seq s.lzw.prev = some q ∧ s.firstOf s.lzw.prev = some f ∧
      s.advance.takeSequence c (q ++ [f]) = .next t := by
  unfold execKwkwk at h
  split at h
  · exact ⟨_, _, ‹_›, ‹_›, h⟩
  · cases h

/-- What INVALID records (R188). -/
def State.recordInvalid (c : Code) (s : State) : State :=
  { s.advance with lzw := { s.advance.lzw with errCode := c, errBitpos := s.lzw.bitpos } }

/-- A code that has been read reseeds the dictionary, stops the run, or has a sequence taken (R180, R184 to R188). -/
theorem runCode_next {c : Code} {s t : State} (h : runCode c s = .next t) :
    t = s.advance.initDict ∨ t = s.advance.stopLzw .endCode ∨
    (∃ q, (inDict s.lzw.mcs s.lzw.next.toNat c.toNat ∨ c.toNat = s.lzw.next.toNat ∧ s.lzw.prevv = true) ∧
      s.advance.takeSequence c q = .next t) ∨
    t = (s.recordInvalid c).stopLzw .invalidCode := by
  unfold runCode at h
  split at h
  next => cases h; exact .inl rfl
  next => cases h; exact .inr (.inl rfl)
  next hc =>
    obtain ⟨q, -, ht⟩ := execDict_next h
    exact .inr (.inr (.inl ⟨q, .inl (inDict_of_classify_dict hc), ht⟩))
  next hc =>
    obtain ⟨q, f, -, -, ht⟩ := execKwkwk_next h
    exact .inr (.inr (.inl ⟨_, .inr (eq_next_of_classify_kwkwk hc), ht⟩))
  next => cases h; exact .inr (.inr (.inr rfl))

/-! ## Engine steps -/

/-- An LZW step: idle, the count, exhaustion, or a code, in the order of R257. -/
theorem execLzwStep_cases (s : State) :
    (s.status.lzwBusy = false ∧ execLzwStep s = .next s) ∨
    (s.status.lzwBusy = true ∧ s.lzw.expect.toNat ≤ s.lzw.outCount.toNat ∧
      execLzwStep s = .next (s.stopLzw .countReached)) ∨
    (s.status.lzwBusy = true ∧ s.lzw.outCount.toNat < s.lzw.expect.toNat ∧
      8 * s.lzw.inLen.toNat < s.lzw.bitpos.toNat + s.lzw.width.toNat ∧
      execLzwStep s = .next (s.stopLzw .exhausted)) ∨
    (s.status.lzwBusy = true ∧ s.lzw.outCount.toNat < s.lzw.expect.toNat ∧
      s.lzw.bitpos.toNat + s.lzw.width.toNat ≤ 8 * s.lzw.inLen.toNat ∧
      execLzwStep s = runCode s.fetchCode s) := by
  unfold execLzwStep
  split_ifs with hb hc hx
  · exact .inr (.inl ⟨hb, hc, rfl⟩)
  · exact .inr (.inr (.inl ⟨hb, by omega, hx, rfl⟩))
  · exact .inr (.inr (.inr ⟨hb, by omega, by omega, rfl⟩))
  · exact .inl ⟨by simpa using hb, rfl⟩

/-- The state with the value of the current cell stored in OUT (R226). -/
def State.cellStored (s : State) : State :=
  s.setByte (Buf.out.base + s.ds.cell.toNat) (s.cellValue s.ds.cell.toNat)

/-- The DS registers with DS_CELL moved on (R226). -/
def DsRegs.nextCell (r : DsRegs) : DsRegs := { r with cell := BitVec.ofNat 32 (r.cell.toNat + 1) }

/-- A DS step: idle, a cell, or the last cell with `stop DS(OK)` (R226, R228). -/
theorem execDsCellStep_cases (s : State) :
    (s.status.dsBusy = false ∧ execDsCellStep s = .next s) ∨
    (s.status.dsBusy = true ∧ s.ds.cell.toNat + 1 ≠ s.params.tgtW * s.params.tgtH ∧
      execDsCellStep s = .next { s.cellStored with ds := s.ds.nextCell }) ∨
    (s.status.dsBusy = true ∧ s.ds.cell.toNat + 1 = s.params.tgtW * s.params.tgtH ∧
      execDsCellStep s = .next { s.cellStored.stopDs .ok with ds := s.ds.nextCell }) := by
  simp only [execDsCellStep]
  split_ifs with hb hc
  · exact .inr (.inr ⟨hb, hc, rfl⟩)
  · exact .inr (.inl ⟨hb, hc, rfl⟩)
  · exact .inl ⟨by simpa using hb, rfl⟩

end Sys2Proof.Machine
end

section
/-! PROOFS. Every operation keeps the invariant of Safety.lean, and so every step does. First what an LZW run needs of the
dictionary (10_state.md R51 to R53), then the parts of the state one by one, then the operations. -/

namespace Sys2Proof.Machine

/-! ## An LZW run -/

theorem State.LzwRun.four_le_clearCode {s : State} (h : s.LzwRun) : 4 ≤ clearCode s.lzw.mcs :=
  Nat.pow_le_pow_right (n := 2) (by decide) h.mcs_range.1

/-- What `init_dict` seeds meets the clauses on WIDTH, NEXT and the dictionary: no entry is added yet (R171). -/
theorem State.lzwRun_initDict {s : State} (hm : mcsMin ≤ s.lzw.mcs.toNat ∧ s.lzw.mcs.toNat ≤ mcsMax)
    (hi : s.lzw.inLen.toNat ≤ s.params.inBytes) (he : s.lzw.expect.toNat ≤ s.params.pixBytes)
    (ho : s.lzw.outCount.toNat ≤ s.lzw.expect.toNat) (hb : s.lzw.bitpos.toNat ≤ 8 * s.lzw.inLen.toNat) :
    s.initDict.LzwRun := by
  have h4 : 2 ^ 2 ≤ clearCode s.lzw.mcs := Nat.pow_le_pow_right (by decide) hm.1
  have h256 : clearCode s.lzw.mcs ≤ 2 ^ 8 := Nat.pow_le_pow_right (by decide) hm.2
  have hm8 : s.lzw.mcs.toNat ≤ 8 := hm.2
  have hw : s.initDict.lzw.width.toNat = s.lzw.mcs.toNat + 1 := by
    simp only [State.initDict_lzw, BitVec.toNat_ofNat]
    omega
  have hn : s.initDict.lzw.next.toNat = clearCode s.lzw.mcs + 2 := by
    simp only [State.initDict_lzw, BitVec.toNat_ofNat]
    omega
  have hcap : cap (s.lzw.mcs.toNat + 1) = 2 * clearCode s.lzw.mcs := Nat.pow_succ'
  refine ⟨hm, hi, he, ho, hb, ?_, ?_, .inl ?_, nofun, ?_⟩
  · rw [hw]
    exact ⟨le_rfl, by simp only [maxWidth]; omega⟩
  · rw [hn]
    exact ⟨le_rfl, by simp only [dictCodes]; omega⟩
  · rw [hw, hn, hcap]
    omega
  · intro c hc h2
    rw [hn] at hc
    exact absurd h2 (Nat.not_le.2 hc)

/-- `emit` never counts past EXPECT (R189). -/
theorem State.LzwRun.emit {s : State} (h : s.LzwRun) (q : List Byte) : (s.emit q).LzwRun := by
  obtain ⟨h1, h2, h3, h4, h5, h6, h7, h8, h9, h10⟩ := h
  refine ⟨by simpa, by simpa, by simpa, ?_, by simpa, by simpa, by simpa, by simpa, by simpa,
    State.chained_congr h10 (by simp) (by simp) (by simp)⟩
  rw [State.emit_outCount, State.emit_expect, State.emitCount]
  omega

/-- `add_entry` with `grow` keeps NEXT below the capacity of WIDTH and the dictionary well founded (R190 to R192). -/
theorem State.LzwRun.added {s : State} (h : s.LzwRun) {p : Code} {f : Byte} {l : Nat} (x : Byte)
    (hn : s.lzw.next.toNat < 4096) (hp : inDict s.lzw.mcs s.lzw.next.toNat p.toNat) (hf : s.firstOf p = some f)
    (hl : s.lenOf p = some l) : (s.added p x f l).LzwRun := by
  obtain ⟨f', l', hf', hl', -, hch⟩ := State.added_chained (x := x) h.entries hn h.next_range.1 h.four_le_clearCode hp
  obtain rfl : f = f' := Option.some.inj (hf.symm.trans hf')
  obtain rfl : l = l' := Option.some.inj (hl.symm.trans hl')
  obtain ⟨h1, h2, h3, h4, h5, ⟨hw, hw'⟩, ⟨hnx, hnx'⟩, hcap, hprev, -⟩ := h
  have hnext : (s.added p x f l).lzw.next.toNat = s.lzw.next.toNat + 1 := State.added_next hn
  have hw12 : s.lzw.width.toNat ≤ 12 := hw'
  have hlt : s.lzw.next.toNat < 2 ^ s.lzw.width.toNat := by
    simp only [cap, dictCodes] at hcap
    omega
  have hwidth : (s.added p x f l).lzw.width.toNat =
      if s.lzw.next.toNat + 1 ≥ 2 ^ s.lzw.width.toNat ∧ s.lzw.width.toNat < 12
        then s.lzw.width.toNat + 1 else s.lzw.width.toNat := by
    simp only [State.added]
    split_ifs
    · rw [BitVec.toNat_ofNat]
      omega
    · rfl
  refine ⟨h1, h2, h3, h4, h5, ?_, ?_, ?_, ?_, hch⟩
  · show s.lzw.mcs.toNat + 1 ≤ _ ∧ _ ≤ 12
    rw [hwidth]
    split_ifs <;> omega
  · rw [hnext]
    exact ⟨hnx.trans (Nat.le_succ _), hn⟩
  · rw [hnext, hwidth]
    simp only [cap, dictCodes, maxWidth]
    split_ifs with hg
    · rw [pow_succ]
      omega
    · by_cases h12 : s.lzw.width.toNat = 12
      · rw [h12] at hlt ⊢
        omega
      · omega
  · intro hv
    rw [hnext]
    exact (hprev hv).imp_right fun hb => ⟨hb.1, hb.2.trans (Nat.lt_succ_self _)⟩

/-- Any member may be the previous code (R193). -/
theorem State.LzwRun.setPrev {s : State} (h : s.LzwRun) {c : Code}
    (hc : inDict s.lzw.mcs s.lzw.next.toNat c.toNat) : (s.setPrev c).LzwRun := by
  obtain ⟨h1, h2, h3, h4, h5, h6, h7, h8, -, h10⟩ := h
  exact ⟨h1, h2, h3, h4, h5, h6, h7, h8, fun _ => hc, h10⟩

/-! ## The parts of the state -/

/-- Where STATUS alone changes and no engine starts, the clauses on STATUS are what is left to show. -/
theorem State.Inv.with_status {s : State} (h : s.Inv) {f : Status} (hl : f.lzwBusy = true → s.status.lzwBusy = true)
    (hd : f.dsBusy = true → s.status.dsBusy = true) (h1 : f.lzwDone = decide (f.lzwStop ≠ .none))
    (h2 : f.dsDone = decide (f.dsResult ≠ .none))
    (h3 : f.short = decide (f.lzwStop = .endCode ∨ f.lzwStop = .exhausted))
    (h4 : f.lzwBusy = true → f.lzwDone = false) (h5 : f.dsBusy = true → f.dsDone = false) :
    State.Inv { s with status := f } :=
  { params_legal := h.params_legal, mem_wf := h.mem_wf, mem_mapped := h.mem_mapped, dict_wf := h.dict_wf
    dict_codes := h.dict_codes, not_both := fun hb => h.not_both ⟨hl hb.1, hd hb.2⟩, lzw_done := h1, ds_done := h2
    short_iff := h3, lzw_clean := h4, ds_clean := h5
    lzw_run := fun hb => (h.lzw_run (hl hb)).congr rfl rfl rfl
    ds_run := fun hb => (h.ds_run (hd hb)).congr rfl rfl }

/-- Where STATUS and the DS registers stay, the clauses on the memory, the dictionary and the run are what is left to show. -/
theorem State.Inv.with_lzw {s t : State} (h : s.Inv) (hp : t.params = s.params) (hs : t.status = s.status)
    (hds : t.ds = s.ds) (hm : Memory.wf t.mem) (hmm : ∀ c ∈ t.mem, inBuffer s.params c.1 = true)
    (hd : Memory.wf t.dict) (hdc : ∀ e ∈ t.dict, e.1 < dictCodes) (hr : s.status.lzwBusy = true → t.LzwRun) : t.Inv :=
  { params_legal := hp ▸ h.params_legal, mem_wf := hm, mem_mapped := hp ▸ hmm, dict_wf := hd, dict_codes := hdc
    not_both := hs ▸ h.not_both, lzw_done := hs ▸ h.lzw_done, ds_done := hs ▸ h.ds_done
    short_iff := hs ▸ h.short_iff, lzw_clean := hs ▸ h.lzw_clean, ds_clean := hs ▸ h.ds_clean
    lzw_run := hs ▸ hr, ds_run := fun hb => (h.ds_run (hs ▸ hb)).congr hp hds }

/-- Where the DS registers alone change, the clause on the DS run is what is left to show. -/
theorem State.Inv.with_ds {s : State} (h : s.Inv) {r : DsRegs}
    (hr : s.status.dsBusy = true → State.DsRun { s with ds := r }) : State.Inv { s with ds := r } :=
  { h with lzw_run := fun hb => (h.lzw_run hb).congr rfl rfl rfl, ds_run := hr }

/-! ## Shared operations -/

theorem State.Inv.stopLzw {s : State} (h : s.Inv) {r : LzwStop} (hr : r ≠ .none)
    (he : r = .endCode ∨ r = .exhausted → s.lzw.outCount.toNat < s.lzw.expect.toNat) : (s.stopLzw r).Inv := by
  refine h.with_status nofun id ?_ h.ds_done ?_ nofun h.ds_clean
  · simp [hr]
  · by_cases hc : r = .endCode ∨ r = .exhausted
    · simp [shortAt, hc, he hc]
    · simp [shortAt, hc]

theorem State.Inv.stopDs {s : State} (h : s.Inv) {r : DsResult} (hr : r ≠ .none) : (s.stopDs r).Inv :=
  h.with_status id nofun h.lzw_done (by simp [hr]) h.short_iff h.lzw_clean nofun

theorem State.Inv.resetRegisters {s : State} (h : s.Inv) : s.resetRegisters.Inv :=
  .of_idle h.params_legal h.mem_wf h.mem_mapped List.Pairwise.nil nofun rfl rfl rfl rfl rfl

theorem State.Inv.powerOn {s : State} (h : s.Inv) : s.powerOn.Inv :=
  .of_idle h.params_legal List.Pairwise.nil nofun List.Pairwise.nil nofun rfl rfl rfl rfl rfl

/-- Stores inside the buffers keep the invariant. -/
theorem State.Inv.memWrite {s : State} (h : s.Inv) {a n : Nat} (v : Nat)
    (ha : ∀ i < n, inBuffer s.params (a + i) = true) : (s.memWrite a n v).Inv := by
  induction n generalizing a v s with
  | zero => exact h
  | succ n ih =>
    refine ih (h.setByte (ha 0 (Nat.succ_pos n)) _) _ fun i hi => ?_
    rw [State.setByte_params, Nat.add_assoc, Nat.add_comm 1 i]
    exact ha (i + 1) (Nat.succ_lt_succ hi)

/-- With no engine busy the configuration may take any value. -/
theorem State.Inv.configWrite {s : State} (h : s.Inv) (hb : s.busy = false) (off : Nat) (v : Word) :
    (s.configWrite off v).Inv := by
  obtain ⟨hl, hd⟩ := State.busy_eq_false.1 hb
  apply State.Inv.of_idle <;> simp only [State.configWrite_params, State.configWrite_mem, State.configWrite_dict,
    State.configWrite_status]
  exacts [h.params_legal, h.mem_wf, h.mem_mapped, h.dict_wf, h.dict_codes, hl, hd, h.lzw_done, h.ds_done, h.short_iff]

/-- LZW_BITPOS moves past a whole code and stays within the stream (R182, R183). -/
theorem State.Inv.advance {s : State} (h : s.Inv)
    (hc : s.lzw.bitpos.toNat + s.lzw.width.toNat ≤ 8 * s.lzw.inLen.toNat) : s.advance.Inv := by
  refine h.with_lzw rfl rfl rfl h.mem_wf h.mem_mapped h.dict_wf h.dict_codes fun hb => ?_
  obtain ⟨h1, h2, h3, h4, -, h6, h7, h8, h9, h10⟩ := h.lzw_run hb
  exact ⟨h1, h2, h3, h4, (BitVec.toNat_ofNat _ _).trans_le ((Nat.mod_le _ _).trans hc), h6, h7, h8, h9, h10⟩

theorem State.Inv.initDict {s : State} (h : s.Inv) : s.initDict.Inv := by
  refine h.with_lzw rfl rfl rfl h.mem_wf h.mem_mapped h.dict_wf h.dict_codes fun hb => ?_
  have hr := h.lzw_run hb
  exact State.lzwRun_initDict hr.mcs_range hr.inLen_le hr.expect_le hr.outCount_le hr.bitpos_le

theorem State.Inv.recordInvalid {s : State} (h : s.advance.Inv) (c : Code) : (s.recordInvalid c).Inv := by
  refine h.with_lzw rfl rfl rfl h.mem_wf h.mem_mapped h.dict_wf h.dict_codes fun hb => ?_
  obtain ⟨h1, h2, h3, h4, h5, h6, h7, h8, h9, h10⟩ := h.lzw_run hb
  exact ⟨h1, h2, h3, h4, h5, h6, h7, h8, h9, h10⟩

/-- `emit` stores inside PIX only, for EXPECT is at most PIX_BYTES (R141, R189). -/
theorem State.Inv.emit {s : State} (h : s.Inv) (hb : s.status.lzwBusy = true) (q : List Byte) : (s.emit q).Inv := by
  have hr := h.lzw_run hb
  refine h.with_lzw (by simp) (by simp) (by simp) (State.emit_wf q h.mem_wf) ?_ (by simpa using h.dict_wf)
    (by simpa using h.dict_codes) fun _ => hr.emit q
  intro c hc
  rcases State.emit_mem hc with hc | ⟨hlo, hhi⟩
  · exact h.mem_mapped c hc
  · exact inBuffer_iff.2 ⟨.pix, hlo, hhi.trans_le (Nat.add_le_add_left hr.expect_le _)⟩

theorem State.Inv.added {s : State} (h : s.Inv) (hb : s.status.lzwBusy = true) {p : Code} {f : Byte} {l : Nat} (x : Byte)
    (hn : s.lzw.next.toNat < 4096) (hp : inDict s.lzw.mcs s.lzw.next.toNat p.toNat) (hf : s.firstOf p = some f)
    (hl : s.lenOf p = some l) : (s.added p x f l).Inv := by
  refine h.with_lzw rfl rfl rfl h.mem_wf h.mem_mapped (Memory.wf_set _ _ h.dict_wf) ?_ fun _ =>
    (h.lzw_run hb).added x hn hp hf hl
  intro e he
  rcases Memory.mem_set he with rfl | he
  · exact hn
  · exact h.dict_codes e he

theorem State.Inv.setPrev {s : State} (h : s.Inv) {c : Code} (hc : inDict s.lzw.mcs s.lzw.next.toNat c.toNat) :
    (s.setPrev c).Inv :=
  h.with_lzw rfl rfl rfl h.mem_wf h.mem_mapped h.dict_wf h.dict_codes fun hb => (h.lzw_run hb).setPrev hc

@[simp] theorem State.emit_firstOf (q : List Byte) (s : State) (c : Code) : (s.emit q).firstOf c = s.firstOf c := by
  simp [State.firstOf]

@[simp] theorem State.emit_lenOf (q : List Byte) (s : State) (c : Code) : (s.emit q).lenOf c = s.lenOf c := by
  simp [State.lenOf]

/-- DICT and KWKWK: the code is a member, or it is the code at NEXT and this step adds it, since a 12-bit code at NEXT leaves room
(R180, R191, R193). -/
theorem State.Inv.takeSequence {s t : State} (h : s.Inv) (hb : s.status.lzwBusy = true) {c : Code} {q : List Byte}
    (hc : inDict s.lzw.mcs s.lzw.next.toNat c.toNat ∨ c.toNat = s.lzw.next.toNat ∧ s.lzw.prevv = true)
    (ht : s.takeSequence c q = .next t) : t.Inv := by
  have hr := h.lzw_run hb
  have he : (s.emit q).Inv := h.emit hb q
  obtain ⟨hv, hn, f, l, hf, hl, hs⟩ | ⟨hfull, hs⟩ :=
      State.takeSequence_cases (c := c) (State.takeSequence_ne_nil ht) hr.entries hr.prev_mem <;>
    cases hs.symm.trans ht
  · refine (he.added (by simpa) _ (by simpa) (by simpa using hr.prev_mem hv) (by simpa) (by simpa)).setPrev ?_
    rw [State.added_next (by simpa), State.emit_next]
    show inDict (s.emit q).lzw.mcs _ _
    rw [State.emit_mcs]
    have hnx := hr.next_range.1
    rcases hc with (hc | hc) | hc
    · exact .inl hc
    · exact .inr ⟨hc.1, by omega⟩
    · exact .inr ⟨by omega, by omega⟩
  · have hmem := hc.resolve_right fun hk => hfull ⟨hk.2, hk.1 ▸ c.isLt⟩
    exact he.setPrev (by simpa using hmem)

/-! ## Commands -/

theorem State.Inv.clearLzwRun {s : State} (h : s.Inv) (hb : s.busy = false) : s.clearLzwRun.Inv :=
  have ⟨hl, hd⟩ := State.busy_eq_false.1 hb
  .of_idle h.params_legal h.mem_wf h.mem_mapped h.dict_wf h.dict_codes hl hd rfl h.ds_done rfl

theorem State.Inv.clearDsRun {s : State} (h : s.Inv) (hb : s.busy = false) : s.clearDsRun.Inv :=
  have ⟨hl, hd⟩ := State.busy_eq_false.1 hb
  .of_idle h.params_legal h.mem_wf h.mem_mapped h.dict_wf h.dict_codes hl hd h.lzw_done rfl h.short_iff

/-- An accepted LZW_START begins a run (R141). -/
theorem State.Inv.lzwStarted {s : State} (h : s.Inv) (hb : s.busy = false)
    (hm : mcsMin ≤ s.lzw.mcs.toNat ∧ s.lzw.mcs.toNat ≤ mcsMax) (hi : s.lzw.inLen.toNat ≤ s.params.inBytes)
    (he : s.lzw.expect.toNat ≤ s.params.pixBytes) : s.lzwStarted.Inv :=
  have ⟨_, hd⟩ := State.busy_eq_false.1 hb
  { (h.clearLzwRun hb).initDict with
    not_both := fun hboth => Bool.false_ne_true (hd.symm.trans hboth.2)
    lzw_clean := fun _ => rfl
    lzw_run := fun _ => (State.lzwRun_initDict (s := s.clearLzwRun) hm hi he (Nat.zero_le _) (Nat.zero_le _)).congr
      rfl rfl rfl
    ds_run := fun hb' => absurd (hd.symm.trans hb') Bool.false_ne_true }

theorem State.Inv.execLzwStart {s t : State} (h : s.Inv) (ht : execLzwStart s = .next t) : t.Inv := by
  obtain ⟨-, he⟩ | ⟨hb, he⟩ | ⟨hb, he⟩ | ⟨hb, hm, hi, hx, he⟩ := execLzwStart_cases s <;> cases he.symm.trans ht
  · exact h.congr rfl rfl rfl rfl rfl rfl
  · exact (h.clearLzwRun hb).stopLzw nofun (by simp)
  · exact (h.clearLzwRun hb).stopLzw nofun (by simp)
  · exact h.lzwStarted hb hm hi hx

/-- A legal OUT buffer has a first cell (R7). -/
theorem cells_pos {p : Params} (h : p.Legal) : 0 < p.tgtW * p.tgtH := by
  obtain ⟨-, -, ⟨hw, -⟩, ⟨hh, -⟩, -⟩ := h
  exact Nat.mul_pos hw hh

/-- An accepted DS_START begins a run (R142). -/
theorem State.Inv.dsStarted {s : State} (h : s.Inv) (hb : s.busy = false) (hw : 1 ≤ s.ds.srcW.toNat)
    (hh : 1 ≤ s.ds.srcH.toNat) (hle : s.ds.srcW.toNat * s.ds.srcH.toNat ≤ s.params.pixBytes) : s.dsStarted.Inv :=
  have ⟨hl, _⟩ := State.busy_eq_false.1 hb
  { h.clearDsRun hb with
    not_both := fun hboth => Bool.false_ne_true (hl.symm.trans hboth.1)
    ds_clean := fun _ => rfl
    lzw_run := fun hb' => absurd (hl.symm.trans hb') Bool.false_ne_true
    ds_run := fun _ => ⟨hw, hh, hle, cells_pos h.params_legal⟩ }

theorem State.Inv.execDsStart {s t : State} (h : s.Inv) (ht : execDsStart s = .next t) : t.Inv := by
  obtain ⟨-, he⟩ | ⟨hb, he⟩ | ⟨hb, hw, hh, hle, he⟩ := execDsStart_cases s <;> cases he.symm.trans ht
  · exact h.congr rfl rfl rfl rfl rfl rfl
  · exact (h.clearDsRun hb).stopDs nofun
  · exact h.dsStarted hb hw hh hle

theorem State.Inv.execAbort {s t : State} (h : s.Inv) (ht : execAbort s = .next t) : t.Inv := by
  have hl : (s.stopLzw .aborted).Inv := h.stopLzw nofun (by simp)
  obtain he | he | he | he := execAbort_cases s <;> cases he.symm.trans ht
  exacts [h, hl, h.stopDs nofun, hl.stopDs nofun]

theorem State.Inv.acked {s : State} (h : s.Inv) : s.acked.Inv :=
  h.with_status id id rfl rfl rfl (fun _ => rfl) fun _ => rfl

theorem State.Inv.command {s t : State} (h : s.Inv) {v : Word} (ht : command v s = .next t) : t.Inv := by
  obtain he | he | he | he | ⟨-, he⟩ | ⟨-, he⟩ | he := command_cases v s <;> rw [he] at ht
  · cases ht; exact h
  · exact h.execLzwStart ht
  · exact h.execDsStart ht
  · exact h.execAbort ht
  · cases ht; exact h.acked
  · cases ht; exact h.resetRegisters
  · cases ht; exact h.congr rfl rfl rfl rfl rfl rfl

/-! ## Transactions -/

/-- A read returns a value, and may set an error flag. -/
theorem State.Inv.hostRead {s t : State} (h : s.Inv) {off : Word} {n : Nat} (ht : hostRead off n s = .next t) :
    t.Inv := by
  obtain ⟨-, he⟩ | ⟨-, he⟩ | ⟨b, -, -, he⟩ | ⟨b, -, -, he⟩ := hostRead_cases off n s <;> cases he.symm.trans ht <;>
    exact h.congr rfl rfl rfl rfl rfl rfl

theorem State.Inv.regWrite {s t : State} (h : s.Inv) {off v : Word} (ht : regWrite off v s = .next t) : t.Inv := by
  obtain ⟨-, he⟩ | ⟨-, -, -, he⟩ | ⟨-, -, hb, he⟩ | ⟨-, -, he⟩ := regWrite_cases off v s <;> rw [he] at ht
  · exact h.command ht
  · cases ht; exact h.congr rfl rfl rfl rfl rfl rfl
  · cases ht; exact h.configWrite hb _ _
  · cases ht; exact h

theorem State.Inv.hostWrite {s t : State} (h : s.Inv) {off v : Word} {n : Nat} (ht : hostWrite off n v s = .next t) :
    t.Inv := by
  obtain ⟨-, he⟩ | ⟨-, he⟩ | ⟨b, -, -, he⟩ | ⟨b, hb, -, he⟩ := hostWrite_cases off v n s <;> rw [he] at ht
  · cases ht; exact h.congr rfl rfl rfl rfl rfl rfl
  · exact h.regWrite ht
  · cases ht; exact h.congr rfl rfl rfl rfl rfl rfl
  · cases ht
    obtain ⟨-, -, hlo, hhi⟩ := (target_eq_buf h.params_legal).1 hb
    exact h.memWrite _ fun i hi => inBuffer_iff.2 ⟨b, by omega, by omega⟩

/-- A POLL's read is a read; the turns it leaves are nothing to the invariant. -/
theorem State.Inv.pollOn {s t : State} (h : s.Inv) {p : Poll} (ht : pollOn p (Machine.hostRead p.off 4 s) = .next t) :
    t.Inv := by
  obtain ⟨hf, hs | hs | hs⟩ := pollOn_frame ht <;> rw [hf] <;> exact h.congr rfl rfl rfl rfl rfl (by simp [hs])

/-! ## Engine steps -/

theorem State.Inv.runCode {s t : State} (h : s.Inv) (hb : s.status.lzwBusy = true)
    (ho : s.lzw.outCount.toNat < s.lzw.expect.toNat)
    (hc : s.lzw.bitpos.toNat + s.lzw.width.toNat ≤ 8 * s.lzw.inLen.toNat) {c : Code} (ht : runCode c s = .next t) :
    t.Inv := by
  have ha : s.advance.Inv := h.advance hc
  obtain rfl | rfl | ⟨q, hm, hq⟩ | rfl := runCode_next ht
  · exact ha.initDict
  · exact ha.stopLzw nofun fun _ => ho
  · exact ha.takeSequence hb hm hq
  · exact (ha.recordInvalid c).stopLzw nofun (by simp)

theorem State.Inv.execLzwStep {s t : State} (h : s.Inv) (ht : execLzwStep s = .next t) : t.Inv := by
  obtain ⟨-, he⟩ | ⟨-, -, he⟩ | ⟨-, ho, -, he⟩ | ⟨hb, ho, hc, he⟩ := execLzwStep_cases s <;> rw [he] at ht
  · cases ht; exact h
  · cases ht; exact h.stopLzw nofun (by simp)
  · cases ht; exact h.stopLzw nofun fun _ => ho
  · exact h.runCode hb ho hc ht

/-- The current cell is inside OUT (R226). -/
theorem State.Inv.cellStored {s : State} (h : s.Inv) (hb : s.status.dsBusy = true) : s.cellStored.Inv :=
  h.setByte (inBuffer_iff.2 ⟨.out, Nat.le_add_right _ _, Nat.add_lt_add_left (h.ds_run hb).cell_lt _⟩) _

theorem State.Inv.execDsCellStep {s t : State} (h : s.Inv) (ht : execDsCellStep s = .next t) : t.Inv := by
  obtain ⟨-, he⟩ | ⟨hb, hc, he⟩ | ⟨hb, hc, he⟩ := execDsCellStep_cases s <;> cases he.symm.trans ht
  · exact h
  · obtain ⟨hw, hh, hle, hlt⟩ := h.ds_run hb
    refine (h.cellStored hb).with_ds fun _ => ⟨hw, hh, hle, ?_⟩
    calc s.ds.nextCell.cell.toNat
      _ ≤ s.ds.cell.toNat + 1 := (BitVec.toNat_ofNat _ _).trans_le (Nat.mod_le _ _)
      _ < s.params.tgtW * s.params.tgtH := lt_of_le_of_ne hlt hc
  · exact ((h.cellStored hb).stopDs (r := .ok) nofun).with_ds nofun

/-! ## Steps -/

/-- Settles O3: every operation a step can be keeps the invariant, which says nothing of the turns. -/
theorem stepKeepsInvariant : Obligations.StepKeepsInvariant := by
  intro s t h ht
  have hu : State.Inv { s with turns := s.turns.tail } := h.congr rfl rfl rfl rfl rfl rfl
  obtain ⟨-, -, he⟩ | ⟨-, he⟩ | ⟨-, he⟩ | ⟨off, n, -, he⟩ | ⟨off, n, v, -, he⟩ | ⟨-, he⟩ | ⟨-, he⟩ | ⟨p, -, he⟩ :=
    step_cases ht
  · cases he; exact h
  · exact hu.execLzwStep he.symm
  · exact hu.execDsCellStep he.symm
  · exact hu.hostRead he.symm
  · exact hu.hostWrite he.symm
  · cases he; exact hu.resetRegisters
  · cases he; exact hu.powerOn
  · exact hu.pollOn he.symm

end Sys2Proof.Machine
end

section
/-! PROOFS. What every event keeps, whatever the state: the parameters, and that the engines are not both busy; and what every event
but ACK and the resets keeps: an error flag that is set (10_state.md R21 to R24, R28, R34 to R36). -/

namespace Sys2Proof.Machine

/-- What every event keeps. -/
structure State.Follows (s t : State) : Prop where
  /-- no event changes the parameters (R22 to R24) -/
  params_eq : t.params = s.params
  /-- no event starts the second engine (R28) -/
  both_busy : t.status.lzwBusy = true → t.status.dsBusy = true → s.status.lzwBusy = true ∧ s.status.dsBusy = true

/-- What every event but ACK and the resets keeps: an error flag that is set stays set (R34 to R36). -/
structure State.Keeps (s t : State) : Prop extends State.Follows s t where
  cmderr : s.status.cmderr = true → t.status.cmderr = true
  accerr : s.status.accerr = true → t.status.accerr = true
  buserr : s.status.buserr = true → t.status.buserr = true

/-! ## Shared operations -/

theorem State.Keeps.of_eq {s t : State} (hp : t.params = s.params) (hs : t.status = s.status) : s.Keeps t :=
  ⟨⟨hp, by rw [hs]; exact And.intro⟩, by rw [hs]; exact id, by rw [hs]; exact id, by rw [hs]; exact id⟩

theorem State.Keeps.trans {s t u : State} (h : s.Keeps t) (k : t.Keeps u) : s.Keeps u :=
  ⟨⟨k.params_eq.trans h.params_eq, fun hl hd => (k.both_busy hl hd).elim h.both_busy⟩, k.cmderr ∘ h.cmderr,
    k.accerr ∘ h.accerr, k.buserr ∘ h.buserr⟩

theorem State.keeps_setCmderr (s : State) : s.Keeps s.setCmderr := ⟨⟨rfl, And.intro⟩, fun _ => rfl, id, id⟩
theorem State.keeps_setAccerr (s : State) : s.Keeps s.setAccerr := ⟨⟨rfl, And.intro⟩, id, fun _ => rfl, id⟩
theorem State.keeps_setBuserr (s : State) : s.Keeps s.setBuserr := ⟨⟨rfl, And.intro⟩, id, id, fun _ => rfl⟩
theorem State.keeps_reply (v : Word) (s : State) : s.Keeps (s.reply v) := .of_eq rfl rfl
theorem State.keeps_stopLzw (r : LzwStop) (s : State) : s.Keeps (s.stopLzw r) := ⟨⟨rfl, nofun⟩, id, id, id⟩
theorem State.keeps_stopDs (r : DsResult) (s : State) : s.Keeps (s.stopDs r) := ⟨⟨rfl, nofun⟩, id, id, id⟩
theorem State.keeps_clearLzwRun (s : State) : s.Keeps s.clearLzwRun := ⟨⟨rfl, And.intro⟩, id, id, id⟩
theorem State.keeps_clearDsRun (s : State) : s.Keeps s.clearDsRun := ⟨⟨rfl, And.intro⟩, id, id, id⟩

theorem State.follows_acked (s : State) : s.Follows s.acked := ⟨rfl, And.intro⟩
theorem State.follows_resetRegisters (s : State) : s.Follows s.resetRegisters := ⟨rfl, nofun⟩

/-- `add_entry` changes the dictionary and the LZW registers only. -/
theorem State.addEntry_keeps {s t : State} {p : Code} {x : Byte} (h : s.addEntry p x = some t) : s.Keeps t := by
  rw [State.addEntry_eq] at h
  split at h
  · split at h
    · cases h; exact .of_eq rfl rfl
    · cases h
  · cases h; exact .of_eq rfl rfl

/-- What DICT and KWKWK share changes STATUS nowhere, even where the dictionary is not well founded. -/
theorem State.takeSequence_keeps {s t : State} {c : Code} {q : List Byte} (h : s.takeSequence c q = .next t) :
    s.Keeps t := by
  have he : s.Keeps (s.emit q) := .of_eq (by simp) (by simp)
  unfold State.takeSequence at h
  split at h
  · cases h
  · split at h
    · split at h
      next u hu => cases h; exact (he.trans (State.addEntry_keeps hu)).trans (.of_eq rfl rfl)
      next => cases h
    · cases h; exact he.trans (.of_eq rfl rfl)

/-! ## Commands -/

theorem execLzwStart_keeps {s t : State} (h : execLzwStart s = .next t) : s.Keeps t := by
  obtain ⟨-, he⟩ | ⟨-, he⟩ | ⟨-, he⟩ | ⟨hb, -, -, -, he⟩ := execLzwStart_cases s <;> cases he.symm.trans h
  · exact s.keeps_setCmderr
  · exact s.keeps_clearLzwRun.trans (State.keeps_stopLzw _ _)
  · exact s.keeps_clearLzwRun.trans (State.keeps_stopLzw _ _)
  · have ⟨_, hd⟩ := State.busy_eq_false.1 hb
    exact ⟨⟨rfl, fun _ hd' => absurd (hd.symm.trans hd') Bool.false_ne_true⟩, id, id, id⟩

theorem execDsStart_keeps {s t : State} (h : execDsStart s = .next t) : s.Keeps t := by
  obtain ⟨-, he⟩ | ⟨-, he⟩ | ⟨hb, -, -, -, he⟩ := execDsStart_cases s <;> cases he.symm.trans h
  · exact s.keeps_setCmderr
  · exact s.keeps_clearDsRun.trans (State.keeps_stopDs _ _)
  · have ⟨hl, _⟩ := State.busy_eq_false.1 hb
    exact ⟨⟨rfl, fun hl' _ => absurd (hl.symm.trans hl') Bool.false_ne_true⟩, id, id, id⟩

theorem execAbort_keeps {s t : State} (h : execAbort s = .next t) : s.Keeps t := by
  obtain he | he | he | he := execAbort_cases s <;> cases he.symm.trans h
  · exact .of_eq rfl rfl
  · exact s.keeps_stopLzw _
  · exact s.keeps_stopDs _
  · exact (s.keeps_stopLzw _).trans (State.keeps_stopDs _ _)

/-- Of the commands only ACK and SOFT_RESET clear an error flag (R144, R145). -/
theorem command_follows {v : Word} {s t : State} (h : command v s = .next t) :
    s.Keeps t ∨ (decodeCommand v = .ack ∨ decodeCommand v = .softReset) ∧ s.Follows t := by
  obtain he | he | he | he | ⟨hv, he⟩ | ⟨hv, he⟩ | he := command_cases v s <;> rw [he] at h
  · cases h; exact .inl (.of_eq rfl rfl)
  · exact .inl (execLzwStart_keeps h)
  · exact .inl (execDsStart_keeps h)
  · exact .inl (execAbort_keeps h)
  · cases h; exact .inr ⟨.inl hv, s.follows_acked⟩
  · cases h; exact .inr ⟨.inr hv, s.follows_resetRegisters⟩
  · cases h; exact .inl s.keeps_setCmderr

/-! ## Transactions -/

theorem hostRead_keeps {off : Word} {n : Nat} {s t : State} (h : hostRead off n s = .next t) : s.Keeps t := by
  obtain ⟨-, he⟩ | ⟨-, he⟩ | ⟨b, -, -, he⟩ | ⟨b, -, -, he⟩ := hostRead_cases off n s <;> cases he.symm.trans h
  · exact s.keeps_setBuserr.trans (State.keeps_reply _ _)
  · exact s.keeps_reply _
  · exact s.keeps_setAccerr.trans (State.keeps_reply _ _)
  · exact s.keeps_reply _

/-- A write of legal shape to CTRL decodes to its command (R109, R134). -/
theorem decodeTxn_ctrl {ctx : DecodeCtx} {n : Nat} (h : target ctx.params ctrlOff.toNat n = some .reg) (v : Word) :
    decodeTxn ctx (.wr ctrlOff n v) = decodeCommand v := by
  simp only [decodeTxn, h, if_true]

/-- A write that is not decoded to ACK or SOFT_RESET keeps the error flags. -/
theorem hostWrite_follows {off v : Word} {n : Nat} {s t : State} (h : hostWrite off n v s = .next t) :
    s.Keeps t ∨ (decodeTxn s.ctx (.wr off n v) = .ack ∨ decodeTxn s.ctx (.wr off n v) = .softReset) ∧ s.Follows t := by
  obtain ⟨-, he⟩ | ⟨hr, he⟩ | ⟨b, -, -, he⟩ | ⟨b, -, -, he⟩ := hostWrite_cases off v n s <;> rw [he] at h
  · cases h; exact .inl s.keeps_setBuserr
  · obtain ⟨rfl, hw⟩ | ⟨-, -, -, hw⟩ | ⟨-, -, -, hw⟩ | ⟨-, -, hw⟩ := regWrite_cases off v s <;> rw [hw] at h
    · rw [decodeTxn_ctrl (ctx := s.ctx) hr]
      exact command_follows h
    · cases h; exact .inl s.keeps_setAccerr
    · cases h; exact .inl (.of_eq (by simp) (by simp))
    · cases h; exact .inl (.of_eq rfl rfl)
  · cases h; exact .inl s.keeps_setAccerr
  · cases h; exact .inl (.of_eq (by simp) (by simp))

/-- A POLL's read sets error flags only, as any read does. -/
theorem pollOn_keeps {p : Poll} {s t : State} (h : pollOn p (hostRead p.off 4 s) = .next t) : s.Keeps t := by
  obtain ⟨v, u, hu, -, he⟩ := pollOn_hostRead p s
  rw [he] at h
  split at h <;> cases h
  · exact hostRead_keeps hu
  · exact (hostRead_keeps hu).trans (.of_eq rfl rfl)

/-! ## Engine steps -/

theorem runCode_keeps {c : Code} {s t : State} (h : runCode c s = .next t) : s.Keeps t := by
  have ha : s.Keeps s.advance := .of_eq rfl rfl
  obtain rfl | rfl | ⟨q, -, hq⟩ | rfl := runCode_next h
  · exact .of_eq rfl rfl
  · exact ha.trans (State.keeps_stopLzw _ _)
  · exact ha.trans (State.takeSequence_keeps hq)
  · have hr : s.Keeps (s.recordInvalid c) := .of_eq rfl rfl
    exact hr.trans (State.keeps_stopLzw _ _)

theorem execLzwStep_keeps {s t : State} (h : execLzwStep s = .next t) : s.Keeps t := by
  obtain ⟨-, he⟩ | ⟨-, -, he⟩ | ⟨-, -, -, he⟩ | ⟨-, -, -, he⟩ := execLzwStep_cases s <;> rw [he] at h
  · cases h; exact .of_eq rfl rfl
  · cases h; exact s.keeps_stopLzw _
  · cases h; exact s.keeps_stopLzw _
  · exact runCode_keeps h

theorem execDsCellStep_keeps {s t : State} (h : execDsCellStep s = .next t) : s.Keeps t := by
  obtain ⟨-, he⟩ | ⟨-, -, he⟩ | ⟨-, -, he⟩ := execDsCellStep_cases s <;> cases he.symm.trans h
  · exact .of_eq rfl rfl
  · exact .of_eq rfl rfl
  · exact (s.keeps_stopDs .ok).trans (.of_eq rfl rfl)

/-! ## Steps -/

theorem nextEvent_of_head {s : State} {x : Turn} (h : s.turns.head? = some x) : (nextEvent s).1 = eventOf s x := by
  obtain ⟨ts, hts⟩ := List.head?_eq_some_iff.1 h
  rw [nextEvent_of_turns_cons hts]

/-- Every step keeps the parameters and starts no second engine; every step but ACK and the resets keeps the error flags. -/
theorem step_follows {s t : State} (h : step s = .next t) :
    s.Keeps t ∨ (nextEvent s).1 ∈ [Event.run .ack, Event.run .softReset, Event.resetInput, Event.powerOn] ∧
      s.Follows t := by
  have hu : s.Keeps { s with turns := s.turns.tail } := .of_eq rfl rfl
  obtain ⟨-, -, he⟩ | ⟨-, he⟩ | ⟨-, he⟩ | ⟨off, n, -, he⟩ | ⟨off, n, v, hx, he⟩ | ⟨hx, he⟩ | ⟨hx, he⟩ | ⟨p, -, he⟩ :=
    step_cases h
  · cases he; exact .inl (.of_eq rfl rfl)
  · exact .inl (hu.trans (execLzwStep_keeps he.symm))
  · exact .inl (hu.trans (execDsCellStep_keeps he.symm))
  · exact .inl (hu.trans (hostRead_keeps he.symm))
  · refine (hostWrite_follows he.symm).imp hu.trans ?_
    rintro ⟨hd, hf⟩
    refine ⟨?_, hf.params_eq, hf.both_busy⟩
    rw [nextEvent_of_head hx, eventOf]
    obtain hd | hd := hd <;> rw [State.ctx_with_turns] at hd <;> simp [hd]
  · cases he
    exact .inr ⟨by simp [nextEvent_of_head hx, eventOf], rfl, nofun⟩
  · cases he
    exact .inr ⟨by simp [nextEvent_of_head hx, eventOf], rfl, nofun⟩
  · exact .inl (hu.trans (pollOn_keeps he.symm))

theorem State.follows_of_step {s t : State} (h : step s = .next t) : s.Follows t :=
  (step_follows h).elim State.Keeps.toFollows And.right

/-- Settles O5: ID is a constant, and CAP0 to CAP2 are words of the parameters. -/
theorem constantsNeverChange : Obligations.ConstantsNeverChange := by
  intro s t h
  have hp : t.params = s.params := (State.follows_of_step h).params_eq
  exact ⟨hp, rfl, by simp only [State.regRead, hp], by simp only [State.regRead, hp], by simp only [State.regRead, hp]⟩

/-- Settles O6: no step starts an engine while the other is busy. -/
theorem enginesNeverRunTogether : Obligations.EnginesNeverRunTogether :=
  fun _ _ hs h ht => hs ((State.follows_of_step h).both_busy ht.1 ht.2)

/-- Settles O50: a step that keeps every set flag clears none. -/
theorem onlyAckAndResetClearErrorFlags : Obligations.OnlyAckAndResetClearErrorFlags := by
  intro s t h hclear
  obtain hk | ⟨hev, -⟩ := step_follows h
  · obtain ⟨hs, ht⟩ | ⟨hs, ht⟩ | ⟨hs, ht⟩ := hclear
    · exact absurd (ht.symm.trans (hk.cmderr hs)) Bool.false_ne_true
    · exact absurd (ht.symm.trans (hk.accerr hs)) Bool.false_ne_true
    · exact absurd (ht.symm.trans (hk.buserr hs)) Bool.false_ne_true
  · exact hev

end Sys2Proof.Machine
end

section
/-! PROOFS. What a member denotes during a run (10_state.md R52, R53), and the fields of the words STATUS, CAP0 and LZW_CODESTATE
(R22, R26, R42). -/

namespace Sys2Proof.Machine

/-! ## Members -/

/-- Settles O42: a chain from `c` down to a seeded literal has at most `c - CLEAR` links, and CLEAR is at least 4. -/
theorem membersDenoteBoundedSequences : Obligations.MembersDenoteBoundedSequences := by
  intro s c h hc
  obtain ⟨q, hq, hf, hl, h1, hadded⟩ := State.seq_of_member h.entries c hc
  refine ⟨q, hq, hf, hl, h1, fun h2 => (hadded h2).2, ?_⟩
  obtain hlit | ⟨h2, -⟩ := hc
  · have : q.length = 1 := by simpa [State.lenOf, hlit] using hl.symm
    omega
  · have := (hadded h2).2
    have := h.four_le_clearCode
    have := c.isLt
    omega

/-! ## Fields of a word -/

/-- A field of a word is a digit of the number it is made from. -/
theorem toNat_field_ofNat {w i k : Nat} (h : i + k ≤ w) (n : Nat) :
    ((BitVec.ofNat w n).extractLsb' i k).toNat = n / 2 ^ i % 2 ^ k := by
  obtain ⟨d, rfl⟩ := Nat.exists_eq_add_of_le h
  rw [BitVec.extractLsb'_toNat, BitVec.toNat_ofNat, Nat.shiftRight_eq_div_pow, Nat.add_assoc, pow_add,
    Nat.mod_mul_right_div_self, Nat.mod_mod_of_dvd _ (pow_dvd_pow 2 (Nat.le_add_right k d))]

theorem field_ofNat {w i k n : Nat} {c : BitVec k} (h : i + k ≤ w) (hc : n / 2 ^ i % 2 ^ k = c.toNat) :
    (BitVec.ofNat w n).extractLsb' i k = c :=
  BitVec.eq_of_toNat_eq ((toNat_field_ofNat h n).trans hc)

theorem field_ofNat_literal {w i k n m : Nat} (h : i + k ≤ w) (hm : n / 2 ^ i % 2 ^ k = m) :
    (BitVec.ofNat w n).extractLsb' i k = BitVec.ofNat k m := by
  subst hm
  exact field_ofNat h (by rw [BitVec.toNat_ofNat, Nat.mod_mod])

theorem flag_ofNat {w i n : Nat} {b : Bool} (h : i < w) (hb : n / 2 ^ i % 2 = b.toNat) :
    (BitVec.ofNat w n).getLsbD i = b := by
  rw [BitVec.getLsbD_ofNat, decide_eq_true h, Bool.true_and, Nat.testBit_eq_decide_div_mod_eq, hb]
  cases b <;> rfl

/-- Settles O16: each field is a digit of the sum that the word is made from, for each addend is below the next one's weight. -/
theorem statusWordShowsItsFields : Obligations.StatusWordShowsItsFields := by
  refine ⟨fun t => ?_, rfl, rfl, rfl, rfl, rfl, rfl, rfl, rfl, rfl, rfl, rfl, rfl⟩
  have h0 := t.lzwBusy.toNat_lt
  have h1 := t.dsBusy.toNat_lt
  have h2 := t.lzwDone.toNat_lt
  have h3 := t.dsDone.toNat_lt
  have h4 := t.lzwStop.code.isLt
  have h8 := t.dsResult.code.isLt
  have h12 := t.short.toNat_lt
  have h16 := t.cmderr.toNat_lt
  have h17 := t.accerr.toNat_lt
  have h18 := t.buserr.toNat_lt
  refine ⟨flag_ofNat ?_ ?_, flag_ofNat ?_ ?_, flag_ofNat ?_ ?_, flag_ofNat ?_ ?_, field_ofNat ?_ ?_, field_ofNat ?_ ?_,
    flag_ofNat ?_ ?_, field_ofNat_literal ?_ ?_, flag_ofNat ?_ ?_, flag_ofNat ?_ ?_, flag_ofNat ?_ ?_,
    field_ofNat_literal ?_ ?_⟩ <;> omega

/-- Settles O17: the same for CAP0, whose parameters fit their fields in a legal block, and for LZW_CODESTATE. -/
theorem cap0AndCodestateShowTheirFields : Obligations.Cap0AndCodestateShowTheirFields := by
  constructor
  · rintro p ⟨-, -, hw, hh, hm, -⟩
    have h12 : maxWidth = 12 := rfl
    refine ⟨(toNat_field_ofNat ?_ _).trans ?_, (toNat_field_ofNat ?_ _).trans ?_, (toNat_field_ofNat ?_ _).trans ?_,
      field_ofNat_literal ?_ ?_, field_ofNat_literal ?_ ?_⟩ <;> omega
  · intro r
    have hw := r.width.isLt
    have hv := r.prevv.toNat_lt
    have hn := r.next.isLt
    refine ⟨field_ofNat ?_ ?_, flag_ofNat ?_ ?_, field_ofNat_literal ?_ ?_, field_ofNat ?_ ?_,
      field_ofNat_literal ?_ ?_⟩ <;> omega

end Sys2Proof.Machine
end

section
/-! PROOFS. What an LZW step writes, and what no step of any agent changes while an LZW run goes on (20_memory.md R79, R85, R87, R89,
70_reset_and_hazards.md R290, R291). -/

namespace Sys2Proof.Machine

/-! ## Emitting -/

/-- From `s` to `t` the LZW engine at most emitted: the run's configuration stands, OUT_COUNT did not fall and did not pass EXPECT
(R89), and every byte outside PIX[old OUT_COUNT .. new OUT_COUNT - 1] stands (R79, R87). -/
structure State.OnlyEmits (s t : State) : Prop where
  mcs_eq : t.lzw.mcs = s.lzw.mcs
  inLen_eq : t.lzw.inLen = s.lzw.inLen
  expect_eq : t.lzw.expect = s.lzw.expect
  outCount_mono : s.lzw.outCount.toNat ≤ t.lzw.outCount.toNat
  outCount_le : s.lzw.outCount.toNat ≤ s.lzw.expect.toNat → t.lzw.outCount.toNat ≤ s.lzw.expect.toNat
  byteAt_eq : ∀ x, x < Buf.pix.base + s.lzw.outCount.toNat ∨ Buf.pix.base + t.lzw.outCount.toNat ≤ x →
    t.byteAt x = s.byteAt x

/-- What touches neither the bytes nor the run's configuration and OUT_COUNT. -/
theorem State.OnlyEmits.of_eq {s t : State} (hm : t.mem = s.mem := by rfl) (hp : t.powerOns = s.powerOns := by rfl)
    (h1 : t.lzw.mcs = s.lzw.mcs := by rfl) (h2 : t.lzw.inLen = s.lzw.inLen := by rfl)
    (h3 : t.lzw.expect = s.lzw.expect := by rfl) (h4 : t.lzw.outCount = s.lzw.outCount := by rfl) : s.OnlyEmits t :=
  ⟨h1, h2, h3, h4 ▸ le_rfl, h4 ▸ id, fun x _ => State.byteAt_congr hm hp x⟩

theorem State.OnlyEmits.trans {s t u : State} (h : s.OnlyEmits t) (k : t.OnlyEmits u) : s.OnlyEmits u where
  mcs_eq := k.mcs_eq.trans h.mcs_eq
  inLen_eq := k.inLen_eq.trans h.inLen_eq
  expect_eq := k.expect_eq.trans h.expect_eq
  outCount_mono := h.outCount_mono.trans k.outCount_mono
  outCount_le ho := h.expect_eq ▸ k.outCount_le (h.expect_eq ▸ h.outCount_le ho)
  byteAt_eq x hx := by
    have hst := h.outCount_mono
    have htu := k.outCount_mono
    exact (k.byteAt_eq x (by omega)).trans (h.byteAt_eq x (by omega))

theorem State.onlyEmits_emit (q : List Byte) (s : State) : s.OnlyEmits (s.emit q) := by
  have hc : (s.emit q).lzw.outCount.toNat = s.lzw.outCount.toNat + s.emitCount q := s.emit_outCount q
  refine ⟨by simp, by simp, by simp, by omega, fun ho => ?_, fun x hx => ?_⟩
  · rw [hc, State.emitCount]
    omega
  · rw [State.emit_byteAt, if_neg (by omega)]

/-! ## Codes -/

/-- All that `add_entry` can do, whatever the dictionary holds (R190, R191). -/
theorem State.addEntry_some {s t : State} {p : Code} {x : Byte} (h : s.addEntry p x = some t) :
    t = s ∨ ∃ f l, t = s.added p x f l := by
  rw [State.addEntry_eq] at h
  split at h
  · split at h
    · cases h; exact .inr ⟨_, _, rfl⟩
    · cases h
  · cases h; exact .inl rfl

/-- All that DICT and KWKWK share, whatever the dictionary holds (R180). -/
theorem State.takeSequence_next {s t : State} {c : Code} {q : List Byte} (h : s.takeSequence c q = .next t) :
    t = (s.emit q).setPrev c ∨ ∃ p x f l, t = ((s.emit q).added p x f l).setPrev c := by
  unfold State.takeSequence at h
  split at h
  · cases h
  · split at h
    · split at h
      next u hu =>
        cases h
        obtain rfl | ⟨f, l, rfl⟩ := State.addEntry_some hu
        · exact .inl rfl
        · exact .inr ⟨_, _, f, l, rfl⟩
      next => cases h
    · cases h; exact .inl rfl

theorem State.takeSequence_onlyEmits {s t : State} {c : Code} {q : List Byte} (h : s.takeSequence c q = .next t) :
    s.OnlyEmits t := by
  obtain rfl | ⟨p, x, f, l, rfl⟩ := State.takeSequence_next h
  · exact (s.onlyEmits_emit q).trans .of_eq
  · exact (s.onlyEmits_emit q).trans .of_eq

theorem runCode_onlyEmits {c : Code} {s t : State} (h : runCode c s = .next t) : s.OnlyEmits t := by
  obtain rfl | rfl | ⟨q, -, hq⟩ | rfl := runCode_next h
  · exact .of_eq
  · exact .of_eq
  · have ha : s.OnlyEmits s.advance := .of_eq
    exact ha.trans (State.takeSequence_onlyEmits hq)
  · exact .of_eq

/-! ## Steps of the LZW engine -/

theorem execLzwStep_onlyEmits {s t : State} (h : execLzwStep s = .next t) : s.OnlyEmits t := by
  obtain ⟨-, he⟩ | ⟨-, -, he⟩ | ⟨-, -, -, he⟩ | ⟨-, -, -, he⟩ := execLzwStep_cases s <;> rw [he] at h
  · cases h; exact .of_eq
  · cases h; exact .of_eq
  · cases h; exact .of_eq
  · exact runCode_onlyEmits h

/-- Settles O48: an LZW step at most emits. -/
theorem lzwStepWritesOnlyEmittedPix : Obligations.LzwStepWritesOnlyEmittedPix := by
  intro s t h
  have he : s.OnlyEmits t := execLzwStep_onlyEmits h
  exact ⟨he.outCount_mono, he.outCount_le, he.byteAt_eq⟩

/-! ## Steps of the other agents during a run -/

/-- A command given during an LZW run ends the run or leaves it alone: the starts are refused (R141 to R146). -/
theorem command_onlyEmits {v : Word} {s t : State} (hb : s.busy = true) (h : command v s = .next t)
    (ht : t.status.lzwBusy = true) : s.OnlyEmits t := by
  have hne : s.busy ≠ false := by simp [hb]
  obtain he | he | he | he | ⟨-, he⟩ | ⟨-, he⟩ | he := command_cases v s <;> rw [he] at h
  · cases h; exact .of_eq
  · obtain ⟨-, he⟩ | ⟨hi, -⟩ | ⟨hi, -⟩ | ⟨hi, -⟩ := execLzwStart_cases s
    · cases he.symm.trans h; exact .of_eq
    all_goals exact absurd hi hne
  · obtain ⟨-, he⟩ | ⟨hi, -⟩ | ⟨hi, -⟩ := execDsStart_cases s
    · cases he.symm.trans h; exact .of_eq
    all_goals exact absurd hi hne
  · obtain he | he | he | he := execAbort_cases s <;> cases he.symm.trans h <;> exact .of_eq
  · cases h; exact .of_eq
  · cases h; cases ht
  · cases h; exact .of_eq

theorem hostRead_onlyEmits {off : Word} {n : Nat} {s t : State} (h : hostRead off n s = .next t) : s.OnlyEmits t := by
  obtain ⟨v, u, hu, -, hf⟩ := hostRead_next off n s
  cases hu.symm.trans h
  rw [hf]
  exact .of_eq

/-- While an engine is busy a write reaches neither a buffer nor the configuration (R135, R137). -/
theorem hostWrite_onlyEmits {off v : Word} {n : Nat} {s t : State} (hb : s.busy = true)
    (h : hostWrite off n v s = .next t) (ht : t.status.lzwBusy = true) : s.OnlyEmits t := by
  have hne : s.busy ≠ false := by simp [hb]
  obtain ⟨-, he⟩ | ⟨-, he⟩ | ⟨b, -, -, he⟩ | ⟨b, -, hi, -⟩ := hostWrite_cases off v n s
  · cases he.symm.trans h; exact .of_eq
  · rw [he] at h
    obtain ⟨-, hw⟩ | ⟨-, -, -, hw⟩ | ⟨-, -, hi, -⟩ | ⟨-, -, hw⟩ := regWrite_cases off v s
    · exact command_onlyEmits hb (hw ▸ h) ht
    · cases hw.symm.trans h; exact .of_eq
    · exact absurd hi hne
    · cases hw.symm.trans h; exact .of_eq
  · cases he.symm.trans h; exact .of_eq
  · exact absurd hi hne

theorem pollOn_onlyEmits {p : Poll} {s t : State} (h : pollOn p (hostRead p.off 4 s) = .next t) : s.OnlyEmits t := by
  rw [(pollOn_frame h).1]
  exact .of_eq

/-- While an LZW run goes on, whatever agent moves, PIX is all that is written: the DS engine is idle (R28, R268), and the host's
writes are refused. -/
theorem step_onlyEmits {s t : State} (hl : s.status.lzwBusy = true) (hd : s.status.dsBusy = false) (h : step s = .next t)
    (ht : t.status.lzwBusy = true) : s.OnlyEmits t := by
  have hu : s.OnlyEmits { s with turns := s.turns.tail } := .of_eq
  have hb : State.busy { s with turns := s.turns.tail } = true := by simp [State.busy, hl]
  obtain ⟨-, -, he⟩ | ⟨-, he⟩ | ⟨-, he⟩ | ⟨off, n, -, he⟩ | ⟨off, n, v, -, he⟩ | ⟨-, he⟩ | ⟨-, he⟩ | ⟨p, -, he⟩ :=
    step_cases h
  · cases he; exact .of_eq
  · exact hu.trans (execLzwStep_onlyEmits he.symm)
  · obtain ⟨-, hs⟩ | ⟨hd', -⟩ | ⟨hd', -⟩ := execDsCellStep_cases { s with turns := s.turns.tail }
    · cases he.trans hs; exact hu
    all_goals exact absurd (hd.symm.trans hd') Bool.false_ne_true
  · exact hu.trans (hostRead_onlyEmits he.symm)
  · exact hu.trans (hostWrite_onlyEmits hb he.symm ht)
  · cases he; cases ht
  · cases he; cases ht
  · exact hu.trans (pollOn_onlyEmits he.symm)

/-- IN lies below PIX in every legal block (R71). -/
theorem inp_lt_pix_base {p : Params} (h : p.Legal) {k : Nat} (hk : k < p.inBytes) : Buf.inp.base + k < Buf.pix.base := by
  obtain ⟨⟨-, hin⟩, -⟩ := h
  simp only [Buf.base]
  omega

/-- Settles O49: a step that the run outlives at most emits, and IN lies below all that is emitted. -/
theorem runInputIsFixed : Obligations.RunInputIsFixed := by
  intro s t hi hl h ht
  have hd : s.status.dsBusy = false := by simpa [hl] using hi.not_both
  have he : s.OnlyEmits t := step_onlyEmits hl hd h ht
  refine ⟨he.mcs_eq, he.inLen_eq, he.expect_eq, fun k hk => he.byteAt_eq _ (.inl ?_)⟩
  exact Nat.lt_add_right _ (inp_lt_pix_base hi.params_legal hk)

end Sys2Proof.Machine
end

section
/-! PROOFS. Host accesses to the buffers: what a read may change (20_memory.md R80), and that a read sees the bytes written, whatever
widths wrote them (R73, R75). -/

namespace Sys2Proof.Machine

/-! ## Reads -/

/-- The target of a legal access is the region of its first byte (R138). -/
theorem regionOf_of_target {p : Params} {off n : Nat} {r : Region} (h : target p off n = some r) :
    regionOf p off = some r := by
  unfold target at h
  split at h
  · split at h
    next hr => split at h <;> cases h; exact hr
    next hr => split at h <;> cases h; exact hr
    next => cases h
  · cases h

theorem legalShape_of_target {p : Params} {off n : Nat} {r : Region} (h : target p off n = some r) :
    legalShape p off n = true :=
  legalShape_iff.2 ⟨r, h⟩

/-- Settles O26: no target is BUSERR, a buffer while busy is ACCERR, and the two other reads set no flag. -/
theorem readsHaveNoSideEffect : Obligations.ReadsHaveNoSideEffect := by
  intro s off n
  rw [exec_decodeTxn_rd]
  obtain ⟨ht, he⟩ | ⟨ht, he⟩ | ⟨b, ht, hb, he⟩ | ⟨b, ht, hb, he⟩ := hostRead_cases off n s <;> rw [he]
  · have hs : legalShape s.params off.toNat n = false := by simp [legalShape, ht]
    exact ⟨0#32, false, true, by simp [State.reply, State.setBuserr], by simp [hs]⟩
  · refine ⟨s.regRead off.toNat, false, false, by simp [State.reply], ?_⟩
    simp [legalShape_of_target ht, regionOf_of_target ht]
  · refine ⟨0#32, true, false, by simp [State.reply, State.setAccerr], ?_⟩
    simp [legalShape_of_target ht, regionOf_of_target ht, hb]
  · refine ⟨BitVec.ofNat 32 (s.memRead off.toNat n), false, false, by simp [State.reply], ?_⟩
    simp [legalShape_of_target ht, hb]

/-! ## Accesses inside a buffer -/

/-- A read inside a buffer with no engine busy returns its bytes (R132). -/
theorem hostRead_inside {s : State} {b : Buf} {off : Word} {n : Nat} (hp : s.params.Legal) (hb : s.busy = false)
    (hn : n = 1 ∨ n = 2 ∨ n = 4) (h : Claims.InsideBuffer s.params b off.toNat n) :
    hostRead off n s = .next { s with rdata := some (BitVec.ofNat 32 (s.memRead off.toNat n)) } := by
  obtain ⟨hlo, hhi, hal⟩ := h
  simp only [hostRead, (target_eq_buf hp).2 ⟨hn, hal, hlo, hhi⟩, hb]
  rfl

/-- A write inside a buffer with no engine busy stores its bytes (R136). -/
theorem hostWrite_inside {s : State} {b : Buf} {off : Word} {n : Nat} (v : Word) (hp : s.params.Legal)
    (hb : s.busy = false) (hn : n = 1 ∨ n = 2 ∨ n = 4) (h : Claims.InsideBuffer s.params b off.toNat n) :
    hostWrite off n v s = .next (s.memWrite off.toNat n v.toNat) := by
  obtain ⟨hlo, hhi, hal⟩ := h
  simp only [hostWrite, (target_eq_buf hp).2 ⟨hn, hal, hlo, hhi⟩, hb]
  rfl

/-- The rows RD8, RD16 and RD32 are the read of their width. -/
theorem exec_read_row {off : Word} {n : Nat} {r : Instr}
    (h : (n, r) ∈ [(1, Instr.rd8 off), (2, Instr.rd16 off), (4, Instr.rd32 off)]) (s : State) :
    (n = 1 ∨ n = 2 ∨ n = 4) ∧ exec r s = hostRead off n s := by
  simp only [List.mem_cons, Prod.mk.injEq, List.not_mem_nil, or_false] at h
  obtain ⟨rfl, rfl⟩ | ⟨rfl, rfl⟩ | ⟨rfl, rfl⟩ := h <;> exact ⟨by decide, rfl⟩

/-- The rows WR8, WR16 and WR32 are the write of their width. -/
theorem exec_write_row {off v : Word} {n : Nat} {w : Instr}
    (h : (n, w) ∈ [(1, Instr.wr8 off v), (2, Instr.wr16 off v), (4, Instr.wr32 off v)]) (s : State) :
    (n = 1 ∨ n = 2 ∨ n = 4) ∧ exec w s = hostWrite off n v s := by
  simp only [List.mem_cons, Prod.mk.injEq, List.not_mem_nil, or_false] at h
  obtain ⟨rfl, rfl⟩ | ⟨rfl, rfl⟩ | ⟨rfl, rfl⟩ := h <;> exact ⟨by decide, rfl⟩

/-! ## The bytes of a word -/

/-- Byte `i` of a word, as a field of it. -/
theorem byteOf_toNat (v : Word) (i : Nat) : byteOf v.toNat i = v.extractLsb' (8 * i) 8 := by
  rw [byteOf, BitVec.extractLsb', Nat.shiftRight_eq_div_pow, pow_mul]
  rfl

/-- Byte `i` of the word read is the byte at offset `a + i` (R73). -/
theorem State.extractLsb'_memRead (s : State) {a n i : Nat} (hn : n ≤ 4) (hi : i < n) :
    (BitVec.ofNat 32 (s.memRead a n)).extractLsb' (8 * i) 8 = s.byteAt (a + i) := by
  apply field_ofNat (by omega)
  rw [pow_mul]
  exact s.memRead_byte a hi

/-- The word read is zero-extended from its width (R112). -/
theorem State.toNat_memRead_lt (s : State) (a n : Nat) : (BitVec.ofNat 32 (s.memRead a n)).toNat < 2 ^ (8 * n) := by
  calc (BitVec.ofNat 32 (s.memRead a n)).toNat
    _ ≤ s.memRead a n := (BitVec.toNat_ofNat _ _).trans_le (Nat.mod_le _ _)
    _ < 256 ^ n := s.memRead_lt a n
    _ = 2 ^ (8 * n) := (pow_mul 2 8 n).symm

/-- Settles O25: the read returns the bytes that stand after the write, and the write stored the low bytes of its value. -/
theorem mixedWidthReadSeesWrittenBytes : Obligations.MixedWidthReadSeesWrittenBytes := by
  intro s b off v hp hb n w hw hin
  obtain ⟨hn, hexec⟩ := exec_write_row hw s
  refine ⟨s.memWrite off.toNat n v.toNat, hexec.trans (hostWrite_inside v hp hb hn hin), ?_⟩
  intro b' a m r hr hin'
  obtain ⟨hm, hexec'⟩ := exec_read_row hr (s.memWrite off.toNat n v.toNat)
  refine ⟨BitVec.ofNat 32 ((s.memWrite off.toNat n v.toNat).memRead a.toNat m), ?_, State.toNat_memRead_lt _ _ _, ?_⟩
  · exact hexec'.trans (hostRead_inside (by simpa using hp) (by simpa [State.busy] using hb) hm (by simpa using hin'))
  · intro i hi
    rw [State.extractLsb'_memRead _ (by omega) hi, State.byteAt_memWrite, byteOf_toNat]

end Sys2Proof.Machine
end

section
/-! PROOFS. Codes in a stream of bytes: the bits of a code (30_encoding.md R101), the document's 3-byte window (R102), and packing
(R115). -/

namespace Sys2Proof.Machine

/-! ## The bits of a code -/

/-- A stream bit, as a number, is that bit of its byte (R101). -/
theorem streamBit_eq (byteAt : Nat → Byte) (p : Nat) :
    streamBit byteAt p = ((byteAt (p / 8)).getLsbD (p % 8)).toNat := by
  rw [streamBit, Nat.and_one_is_mod, Nat.shiftRight_eq_div_pow, ← Nat.toNat_testBit, BitVec.testBit_toNat]

/-- Every bit of a code: stream bit `P + i` inside its width, and 0 past it. -/
theorem testBit_codeAt (byteAt : Nat → Byte) (P W i : Nat) :
    (codeAt byteAt P W).testBit i = (decide (i < W) && (byteAt ((P + i) / 8)).getLsbD ((P + i) % 8)) := by
  induction W with
  | zero => simp [codeAt]
  | succ W ih =>
    rw [codeAt, Nat.testBit_or, ih, Nat.testBit_shiftLeft, streamBit_eq, Nat.testBit_bool_toNat]
    obtain h | rfl | h := Nat.lt_trichotomy i W
    · simp [h, Nat.lt_succ_of_lt h, Nat.not_le.2 h]
    · simp
    · simp [Nat.not_lt.2 h.le, Nat.not_lt.2 (Nat.succ_le_of_lt h), Nat.sub_ne_zero_of_lt h]

theorem codeAt_lt (byteAt : Nat → Byte) (P W : Nat) : codeAt byteAt P W < 2 ^ W :=
  Nat.lt_pow_two_of_testBit _ fun i hi => by rw [testBit_codeAt, decide_eq_false (Nat.not_lt.2 hi), Bool.false_and]

/-- Settles O14: the bits of a code are read off one by one. -/
theorem codeBitsAreStreamBits : Obligations.CodeBitsAreStreamBits := by
  intro byteAt P W
  exact ⟨codeAt_lt byteAt P W, fun i hi => by rw [testBit_codeAt, decide_eq_true hi, Bool.true_and]⟩

/-- A code depends on the bytes that its bits lie in only. -/
theorem codeAt_congr {f g : Nat → Byte} {P W : Nat} (h : ∀ i < W, f ((P + i) / 8) = g ((P + i) / 8)) :
    codeAt f P W = codeAt g P W := by
  refine Nat.eq_of_testBit_eq fun i => ?_
  rw [testBit_codeAt, testBit_codeAt]
  by_cases hi : i < W
  · rw [h i hi]
  · simp [hi]

/-! ## The document's window -/

/-- Every bit of a window read whose bits lie in the window's three bytes (R102). -/
theorem testBit_windowCode {byteAt : Nat → Byte} {P W i : Nat} (h : P % 8 + W ≤ 24) :
    (windowCode byteAt P W).testBit i = (decide (i < W) && (byteAt ((P + i) / 8)).getLsbD ((P + i) % 8)) := by
  simp only [windowCode, Nat.testBit_and, Nat.testBit_shiftRight, Nat.testBit_or, Nat.testBit_shiftLeft,
    Nat.testBit_two_pow_sub_one, BitVec.testBit_toNat]
  by_cases hi : i < W
  swap
  · simp [hi]
  rw [decide_eq_true hi, Bool.and_true, Bool.true_and]
  obtain hb | hb | hb : P % 8 + i < 8 ∨ 8 ≤ P % 8 + i ∧ P % 8 + i < 16 ∨ 16 ≤ P % 8 + i := by omega
  · rw [show (P + i) / 8 = P / 8 by omega, show (P + i) % 8 = P % 8 + i by omega]
    simp [Nat.not_le.2 hb, show ¬ 16 ≤ P % 8 + i by omega]
  · rw [show (P + i) / 8 = P / 8 + 1 by omega, show (P + i) % 8 = P % 8 + i - 8 by omega]
    simp [hb.1, Nat.not_le.2 hb.2, BitVec.getLsbD_of_ge]
  · rw [show (P + i) / 8 = P / 8 + 2 by omega, show (P + i) % 8 = P % 8 + i - 16 by omega]
    simp [hb, show 8 ≤ P % 8 + i by omega, show 8 ≤ P % 8 + i - 8 by omega, BitVec.getLsbD_of_ge]

/-- A code of at most 12 bits is what the window reads, for with at most 7 bits before it it fits in 24 (R102). -/
theorem codeAt_eq_windowCode (byteAt : Nat → Byte) (P : Nat) {W : Nat} (hW : W ≤ maxWidth) :
    codeAt byteAt P W = windowCode byteAt P W := by
  have hfit : P % 8 + W ≤ 24 := by
    simp only [maxWidth] at hW
    omega
  exact Nat.eq_of_testBit_eq fun i => by rw [testBit_codeAt, testBit_windowCode hfit]

/-- Settles O15: the bytes past the stream hold no bit of a code that lies in it, so any value may stand for them. -/
theorem codeReadEqualsWindow : Obligations.CodeReadEqualsWindow := by
  intro byteAt len P W hW hlen
  rw [← codeAt_eq_windowCode _ P hW]
  refine codeAt_congr fun i hi => ?_
  rw [if_pos (by omega)]

/-! ## Packing -/

/-- Byte `k` of the bytes of a value (R73). -/
theorem getD_leBytes {n k : Nat} (h : k < n) (v : Nat) : (leBytes n v).getD k 0 = byteOf v k := by
  induction n generalizing k v with
  | zero => omega
  | succ n ih =>
    cases k with
    | zero => simp [leBytes, byteOf]
    | succ k =>
      rw [leBytes, List.getD_cons_succ, ih (Nat.lt_of_succ_lt_succ h), byteOf, byteOf, Nat.div_div_eq_div_mul, pow_succ']

/-- Bit `j` of byte `k` of a value is the value's bit `8k + j`. -/
theorem getLsbD_byteOf (v k : Nat) {j : Nat} (h : j < 8) : (byteOf v k).getLsbD j = v.testBit (8 * k + j) := by
  rw [byteOf, BitVec.getLsbD_ofNat, decide_eq_true h, Bool.true_and, show 256 = 2 ^ 8 by rfl, ← pow_mul,
    Nat.testBit_div_two_pow, Nat.add_comm]

/-- A packed code is read back at its value (R101, R115). -/
theorem codeAt_leBytes {W c : Nat} (h : c < 2 ^ W) :
    codeAt (fun k => (leBytes ((W + 7) / 8) c).getD k 0) 0 W = c := by
  refine Nat.eq_of_testBit_eq fun i => ?_
  rw [testBit_codeAt, Nat.zero_add]
  by_cases hi : i < W
  · rw [getD_leBytes (by omega), getLsbD_byteOf _ _ (Nat.mod_lt _ (by decide)), Nat.div_add_mod]
    simp [hi]
  · have hc : c < 2 ^ i := h.trans_le (Nat.pow_le_pow_right (by decide) (Nat.not_lt.1 hi))
    simp [hi, Nat.testBit_lt_two_pow hc]

end Sys2Proof.Machine
end

section
/-! PROOFS. Decoding: which commands, code classes and rows the words, codes and transactions are (30_encoding.md R104, R109 to R111,
40_host_interface.md R130), and that decoding inverts encoding. -/

namespace Sys2Proof.Machine

/-! ## Command words -/

theorem illegalWord_iff {w : Word} :
    illegalWord w = true ↔ w.toNat / 16 ≠ 0 ∨ 5 ≤ w.toNat % 16 ∧ w.toNat % 16 ≤ 14 := by
  simp only [illegalWord, Bool.or_eq_true, Bool.and_eq_true, decide_eq_true_eq]

/-- The same by the fields RSVD, bits 31:4, and OP, bits 3:0 (R109). -/
theorem illegalWord_iff_fields {w : Word} :
    illegalWord w = true ↔
      w.extractLsb' 4 28 ≠ 0#28 ∨ 5#4 ≤ w.extractLsb' 0 4 ∧ w.extractLsb' 0 4 ≤ 0xE#4 := by
  have hw := w.isLt
  rw [illegalWord_iff, ne_eq (BitVec.extractLsb' 4 28 w), BitVec.toNat_eq, BitVec.le_def, BitVec.le_def, BitVec.extractLsb'_toNat,
    BitVec.extractLsb'_toNat, Nat.shiftRight_eq_div_pow, Nat.shiftRight_eq_div_pow]
  simp only [BitVec.toNat_ofNat]
  omega

/-- A word is illegal, or it is one of the six OP values (R109, R110). -/
theorem illegalWord_or_legal (w : Word) :
    illegalWord w = true ∨ w = 0#32 ∨ w = 1#32 ∨ w = 2#32 ∨ w = 3#32 ∨ w = 4#32 ∨ w = 0xF#32 := by
  simp only [illegalWord_iff, BitVec.toNat_eq, BitVec.toNat_ofNat]
  omega

theorem decodeCommand_of_illegalWord {w : Word} (h : illegalWord w = true) : decodeCommand w = .illegalCmd w := by
  have hop := illegalWord_iff.1 h
  have hc : classifyCommand w = .illegal := by
    unfold classifyCommand
    iterate 6 rw [if_neg (by omega)]
  rw [decodeCommand, hc]

/-- Settles O12: an illegal word is none of the six OP values, and each OP value is its own row. -/
theorem commandWordsDecode : Obligations.CommandWordsDecode := by
  intro w
  rw [← illegalWord_iff_fields]
  obtain hw | rfl | rfl | rfl | rfl | rfl | rfl := illegalWord_or_legal w
  · have hne : ∀ v : Word, illegalWord v = false → w ≠ v := fun v hv heq => by simp [← heq, hw] at hv
    simp only [decodeCommand_of_illegalWord hw, hw, reduceCtorEq, false_iff, true_and]
    exact ⟨hne _ rfl, hne _ rfl, hne _ rfl, hne _ rfl, hne _ rfl, hne _ rfl⟩
  all_goals decide

/-! ## Code classes -/

/-- The class of a code, with its whole condition: with R104's order written out, no code meets two of them. -/
theorem classify_cases (mcs : BitVec 8) (next : Nat) (prevv : Bool) (c : Nat) :
    (classify mcs next prevv c = .clear ∧ c = 2 ^ mcs.toNat) ∨
    (classify mcs next prevv c = .endCode ∧ c = 2 ^ mcs.toNat + 1) ∨
    (classify mcs next prevv c = .dict ∧ (c < 2 ^ mcs.toNat ∨ (2 ^ mcs.toNat + 2 ≤ c ∧ c < next))) ∨
    (classify mcs next prevv c = .kwkwk ∧ 2 ^ mcs.toNat + 2 ≤ c ∧ c = next ∧ prevv = true) ∨
    (classify mcs next prevv c = .invalid ∧
      2 ^ mcs.toNat + 2 ≤ c ∧ (next < c ∨ (c = next ∧ prevv = false))) := by
  unfold classify
  split_ifs with hclear hend hdict hkwkwk <;> simp only [clearCode, endCode, inDict] at *
  · exact .inl ⟨trivial, hclear⟩
  · exact .inr (.inl ⟨trivial, hend⟩)
  · exact .inr (.inr (.inl ⟨trivial, hdict⟩))
  · exact .inr (.inr (.inr (.inl ⟨trivial, by omega, hkwkwk⟩)))
  · have hge : 2 ^ mcs.toNat + 2 ≤ c := by omega
    refine .inr (.inr (.inr (.inr ⟨trivial, hge, ?_⟩)))
    by_cases hn : c = next
    · exact .inr ⟨hn, by simpa [hn] using hkwkwk⟩
    · exact .inl (by omega)

/-- Settles O13: every code meets the condition of its class, and no two conditions meet. -/
theorem codeClassesAreTheirConditions : Obligations.CodeClassesAreTheirConditions := by
  intro mcs next prevv c
  obtain ⟨hk, hc⟩ | ⟨hk, hc⟩ | ⟨hk, hc⟩ | ⟨hk, hc⟩ | ⟨hk, hc⟩ := classify_cases mcs next prevv c <;>
    cases prevv <;>
    simp only [hk, reduceCtorEq, true_iff, false_iff, true_and, and_true, and_false, or_false] at hc ⊢ <;>
    omega

/-! ## Codes in a stream -/

/-- The row of a class. -/
def codeRow : CodeClass → Code → Instr
  | .clear => .clear
  | .endCode => .endCode
  | .dict => .dict
  | .kwkwk => .kwkwk
  | .invalid => .invalid

theorem decodeCode_eq (ctx : DecodeCtx) (c : Code) :
    decodeCode ctx c = codeRow (classify ctx.mcs ctx.next.toNat ctx.prevv c.toNat) c := by
  unfold decodeCode
  cases classify ctx.mcs ctx.next.toNat ctx.prevv c.toNat <;> rfl

theorem codeApplies_iff {ctx : DecodeCtx} {k : CodeClass} {c : Code} :
    codeApplies ctx k c = true ↔
      c.toNat < 2 ^ ctx.width.toNat ∧ classify ctx.mcs ctx.next.toNat ctx.prevv c.toNat = k := by
  simp only [codeApplies, Bool.and_eq_true, decide_eq_true_eq]

/-- A code that fits the current width is read back from its packing, and is the row of its class (R100, R101, R104). -/
theorem decode_packCode {ctx : DecodeCtx} {k : CodeClass} {c : Code} (h : codeApplies ctx k c = true) :
    decode ctx (packCode ctx.width.toNat c) = .ok (codeRow k c) := by
  obtain ⟨hfit, hclass⟩ := codeApplies_iff.1 h
  rw [packCode, decode, if_neg (by rw [Laws.leBytes_length]; omega), codeAt_leBytes hfit, BitVec.ofNat_toNat,
    BitVec.setWidth_eq, decodeCode_eq, hclass]

/-! ## Transactions -/

theorem toBuffer_iff {p : Params} {off : Word} {n : Nat} :
    toBuffer p off n = true ↔ ∃ b, target p off.toNat n = some (.buf b) := by
  unfold toBuffer
  split <;> simp_all

theorem toReg_iff {p : Params} {off : Word} : toReg p off = true ↔ target p off.toNat 4 = some .reg := by
  unfold toReg
  split <;> simp_all

theorem not_legalShape_iff {p : Params} {off n : Nat} : (!legalShape p off n) = true ↔ target p off n = none := by
  simp [legalShape]

section
variable {ctx : DecodeCtx} {off v : Word} {n : Nat}

theorem decodeTxn_illegal {t : Txn} (h : Instr.wf ctx.params (.busIllegal t) = true) :
    decodeTxn ctx t = .busIllegal t := by
  cases t <;> simp only [decodeTxn, not_legalShape_iff.1 h]

theorem decodeTxn_rd_reg (h : toReg ctx.params off = true) : decodeTxn ctx (.rd off 4) = .rd32Reg off := by
  simp only [decodeTxn, toReg_iff.1 h]

theorem decodeTxn_wr_reg (h : toReg ctx.params off = true) (hc : off ≠ ctrlOff) :
    decodeTxn ctx (.wr off 4 v) = if isConfigOff off.toNat && ctx.busy then .wr32CfgBusy off v else .wr32Reg off v := by
  simp only [decodeTxn, toReg_iff.1 h, if_neg hc]

theorem decodeTxn_rd_buffer (h : toBuffer ctx.params off n = true) :
    decodeTxn ctx (.rd off n) =
      if ctx.busy then .rdBusy off n else if n = 1 then .rd8 off else if n = 2 then .rd16 off else .rd32 off := by
  obtain ⟨b, hb⟩ := toBuffer_iff.1 h
  simp only [decodeTxn, hb]

theorem decodeTxn_wr_buffer (h : toBuffer ctx.params off n = true) :
    decodeTxn ctx (.wr off n v) =
      if ctx.busy then .wrBusy off n v else if n = 1 then .wr8 off v else if n = 2 then .wr16 off v else .wr32 off v := by
  obtain ⟨b, hb⟩ := toBuffer_iff.1 h
  simp only [decodeTxn, hb]

end

/-- A command word written to CTRL is its command's row, whatever the block's parameters (R108, R109). -/
theorem decodeTxn_ctrlWrite (ctx : DecodeCtx) (w : Word) : decodeTxn ctx (ctrlWrite w) = decodeCommand w :=
  decodeTxn_ctrl (target_eq_reg.2 (by decide)) w

/-- CTRL is no configuration register. -/
theorem ne_ctrlOff_of_isConfigOff {off : Word} (h : isConfigOff off.toNat = true) : off ≠ ctrlOff := by
  rintro rfl
  exact absurd h (by decide)

/-! ## Decode inverts encode -/

/-- Settles O9, row by row: a command word through CTRL, a code through its packing, a transaction through its target and BUSY. -/
theorem decodeInvertsEncode : Obligations.DecodeInvertsEncode := by
  intro ctx i hwf ha
  have hbus {t : Txn} {j : Instr} (h : decodeTxn ctx t = j) : decode ctx (.bus t) = .ok j := decode_bus_eq_ok.2 h
  cases i with
  | nop | lzwStart | dsStart | abort | ack | softReset => exact hbus (decodeTxn_ctrlWrite ctx _)
  | illegalCmd w => exact hbus ((decodeTxn_ctrlWrite ctx w).trans (decodeCommand_of_illegalWord hwf))
  | clear c | endCode c | dict c | kwkwk c | invalid c => exact decode_packCode ha
  | rd32Reg off => exact hbus (decodeTxn_rd_reg hwf)
  | rd8 off | rd16 off | rd32 off =>
    have hb : ctx.busy = false := Laws.eq_false_of_not ha
    exact hbus ((decodeTxn_rd_buffer hwf).trans (by simp [hb]))
  | wr8 off v | wr16 off v | wr32 off v =>
    have hb : ctx.busy = false := Laws.eq_false_of_not ha
    exact hbus ((decodeTxn_wr_buffer hwf).trans (by simp [hb]))
  | rdBusy off n => exact hbus ((decodeTxn_rd_buffer hwf).trans (if_pos ha))
  | wrBusy off n v => exact hbus ((decodeTxn_wr_buffer hwf).trans (if_pos ha))
  | wr32Reg off v =>
    obtain ⟨hreg, hc⟩ := Bool.and_eq_true_iff.1 hwf
    have hcfg : (isConfigOff off.toNat && ctx.busy) = false := Laws.eq_false_of_not ha
    exact hbus ((decodeTxn_wr_reg hreg (of_decide_eq_true hc)).trans (by rw [hcfg]; rfl))
  | wr32CfgBusy off v =>
    have hcfg : isConfigOff off.toNat = true := hwf
    have hb : ctx.busy = true := ha
    exact hbus ((decodeTxn_wr_reg (toReg_iff.2 (target_config hcfg)) (ne_ctrlOff_of_isConfigOff hcfg)).trans
      (by rw [hcfg, hb]; rfl))
  | busIllegal t => exact hbus (decodeTxn_illegal hwf)
  | lzwStep | dsCellStep => rfl

/-- Settles O11 by running the decoder on the words the spec writes out. -/
theorem specWordsDecode : Obligations.SpecWordsDecode := by
  unfold Obligations.SpecWordsDecode
  decide

end Sys2Proof.Machine
end

section
/-! PROOFS. The host's pseudo-instructions (30_encoding.md R114): what they expand to, how a POLL goes on, and that WAITIDLE ends, for
an engine's every step brings its run nearer to its end (41_lzw_decode.md R194, 42_downscale_quantize.md R228,
70_reset_and_hazards.md R297). -/

namespace Sys2Proof.Machine

/-! ## Expansions -/

theorem fillTxns_length (b : Buf) (k : Nat) (xs : List Byte) : (fillTxns b k xs).length = xs.length := by
  induction xs generalizing k with
  | nil => rfl
  | cons x xs ih => rw [fillTxns, List.length_cons, ih, List.length_cons]

/-- FILL writes byte `i` at offset `k + i` of the buffer. -/
theorem fillTxns_getElem? (b : Buf) (k : Nat) {xs : List Byte} {i : Nat} (h : i < xs.length) :
    (fillTxns b k xs)[i]? =
      some (.wr (BitVec.ofNat 32 (b.base + (k + i))) 1 (BitVec.ofNat 32 (xs.getD i 0#8).toNat)) := by
  induction xs generalizing k i with
  | nil => cases h
  | cons x xs ih =>
    cases i with
    | zero =>
      rw [List.getD_cons_zero, BitVec.ofNat_toNat]
      rfl
    | succ i =>
      rw [fillTxns, List.getElem?_cons_succ, ih (k + 1) (Nat.lt_of_succ_lt_succ h), List.getD_cons_succ,
        Nat.add_right_comm k 1 i, Nat.add_assoc k i 1]

theorem dumpTxns_length (b : Buf) (k n : Nat) : (dumpTxns b k n).length = n := by
  induction n generalizing k with
  | zero => rfl
  | succ n ih => rw [dumpTxns, List.length_cons, ih]

/-- DUMP reads the byte at offset `k + i` of the buffer. -/
theorem dumpTxns_getElem? (b : Buf) (k : Nat) {n i : Nat} (h : i < n) :
    (dumpTxns b k n)[i]? = some (.rd (BitVec.ofNat 32 (b.base + (k + i))) 1) := by
  induction n generalizing k i with
  | zero => cases h
  | succ n ih =>
    cases i with
    | zero => rfl
    | succ i =>
      rw [dumpTxns, List.getElem?_cons_succ, ih (k + 1) (Nat.lt_of_succ_lt_succ h), Nat.add_right_comm k 1 i,
        Nat.add_assoc k i 1]

theorem pollDone_iff {mask value r : Word} : pollDone mask value r = true ↔ r &&& mask = value :=
  beq_iff_eq

/-- Bits 1:0 of STATUS are the BUSY bits (R26), so WAITIDLE ends exactly on a read with no engine busy (R292). -/
theorem status_and_mask_eq_zero_iff (s : State) : s.status.word &&& 0x3#32 = 0x0#32 ↔ s.busy = false := by
  have hlow : (s.status.word &&& 0x3#32).toNat = s.status.lzwBusy.toNat + 2 * s.status.dsBusy.toNat := by
    have hl := s.status.lzwBusy.toNat_lt
    have hd := s.status.dsBusy.toNat_lt
    rw [BitVec.toNat_and, Status.word, BitVec.toNat_ofNat, show (0x3#32).toNat = 2 ^ 2 - 1 by rfl,
      Nat.and_two_pow_sub_one_eq_mod]
    omega
  rw [BitVec.toNat_eq, hlow, State.busy]
  cases s.status.lzwBusy <;> cases s.status.dsBusy <;> decide

/-- Settles O58: the expansions are as listed, element by element, and WAITIDLE looks at the BUSY bits. -/
theorem pseudoInstructionsExpand : Obligations.PseudoInstructionsExpand := by
  refine ⟨fun _ => rfl, fun _ => rfl, fun _ _ _ _ => rfl, fun _ => rfl, fun _ _ _ => rfl, fun _ _ _ => rfl,
    fun b k xs => ⟨fillTxns_length b k xs, fun i => fillTxns_getElem? b k⟩,
    fun b k n => ⟨dumpTxns_length b k n, fun i => dumpTxns_getElem? b k⟩, fun _ _ _ _ => ⟨rfl, pollDone_iff⟩, fun s => ?_⟩
  rw [Bool.eq_iff_iff, Bool.not_eq_true', ← status_and_mask_eq_zero_iff]
  exact pollDone_iff

/-! ## POLL -/

/-- A read keeps the turns and the BUSY bits. -/
theorem hostRead_busy {off : Word} {n : Nat} {s t : State} (h : hostRead off n s = .next t) :
    t.turns = s.turns ∧ t.status.lzwBusy = s.status.lzwBusy ∧ t.status.dsBusy = s.status.dsBusy := by
  obtain ⟨-, he⟩ | ⟨-, he⟩ | ⟨b, -, -, he⟩ | ⟨b, -, -, he⟩ := hostRead_cases off n s <;> cases he.symm.trans h <;>
    exact ⟨rfl, rfl, rfl⟩

/-- A POLL's turn: its read, and then the end of the loop or its next round (R114). -/
theorem step_of_poll_read {s : State} {p : Poll} {ts : List Turn} (h : s.turns = .poll p :: ts) :
    ∃ (v : Word) (t : State), hostRead p.off 4 { s with turns := ts } = .next t ∧ t.rdata = some v ∧
      step s = if v &&& p.mask = p.value then .next t else .next (t.repeatPoll p) := by
  obtain ⟨v, t, hr, hv, hp⟩ := pollOn_hostRead p { s with turns := ts }
  refine ⟨v, t, hr, hv, ?_⟩
  rw [← hp, step_of_poll_turn h rfl, exec_decodeTxn_rd]

theorem State.repeatPoll_of_round {p : Poll} {agents : List Agent} {more : List (List Agent)}
    (h : p.between = agents :: more) (s : State) :
    s.repeatPoll p = { s with turns := agents.map Agent.turn ++ .poll { p with between := more } :: s.turns } := by
  simp only [State.repeatPoll, h]

theorem State.repeatPoll_of_lzwBusy {p : Poll} {s : State} (h : p.between = []) (hl : s.status.lzwBusy = true) :
    s.repeatPoll p = { s with turns := .lzw :: .poll p :: s.turns } := by
  simp only [State.repeatPoll, h, hl, if_true]

theorem State.repeatPoll_of_dsBusy {p : Poll} {s : State} (h : p.between = []) (hl : s.status.lzwBusy = false)
    (hd : s.status.dsBusy = true) : s.repeatPoll p = { s with turns := .ds :: .poll p :: s.turns } := by
  simp [State.repeatPoll, h, hl, hd]

theorem State.repeatPoll_of_not_busy {p : Poll} {s : State} (h : p.between = []) (hl : s.status.lzwBusy = false)
    (hd : s.status.dsBusy = false) : s.repeatPoll p = { s with turns := .poll p :: s.turns } := by
  simp [State.repeatPoll, h, hl, hd]

/-- Settles O59: the read keeps the BUSY bits, so the round after it is the one that they and the listed rounds say. -/
theorem pollRepeatsUntilItMatches : Obligations.PollRepeatsUntilItMatches := by
  intro s p ts h
  obtain ⟨v, t, hr, hv, hs⟩ := step_of_poll_read h
  obtain ⟨ht, hl, hd⟩ : t.turns = ts ∧ t.status.lzwBusy = s.status.lzwBusy ∧ t.status.dsBusy = s.status.dsBusy :=
    hostRead_busy hr
  refine ⟨v, t, (exec_decodeTxn_rd _ _ _ _).trans hr, hv, ht, fun hm => hs.trans (if_pos hm), fun hm => ?_⟩
  rw [hs, if_neg hm, ← ht]
  refine ⟨fun agents more hb => ?_, fun hb hl' => ?_, fun hb hl' hd' => ?_, fun hb hi => ?_⟩
  · rw [State.repeatPoll_of_round hb]
  · rw [State.repeatPoll_of_lzwBusy hb (hl.trans hl')]
  · rw [State.repeatPoll_of_dsBusy hb (hl.trans hl') (hd.trans hd')]
  · obtain ⟨hl', hd'⟩ := State.busy_eq_false.1 hi
    rw [State.repeatPoll_of_not_busy hb (hl.trans hl') (hd.trans hd')]

/-! ## Engine steps complete -/

/-- What a code that has been read leaves, whatever its class: LZW_BITPOS past the code, and of the rest what tells whose turn
comes next. -/
structure State.PassedCode (s t : State) : Prop where
  bitpos_eq : t.lzw.bitpos = s.advance.lzw.bitpos
  dsBusy_eq : t.status.dsBusy = s.status.dsBusy
  turns_eq : t.turns = s.turns

theorem State.takeSequence_passedCode {s t : State} {c : Code} {q : List Byte}
    (h : s.advance.takeSequence c q = .next t) : s.PassedCode t := by
  obtain rfl | ⟨p, x, f, l, rfl⟩ := State.takeSequence_next h <;>
    refine ⟨?_, ?_, ?_⟩ <;> simp [State.added]

theorem runCode_passedCode {c : Code} {s t : State} (h : runCode c s = .next t) : s.PassedCode t := by
  obtain rfl | rfl | ⟨q, -, hq⟩ | rfl := runCode_next h
  · exact ⟨rfl, rfl, rfl⟩
  · exact ⟨rfl, rfl, rfl⟩
  · exact State.takeSequence_passedCode hq
  · exact ⟨rfl, rfl, rfl⟩

/-- With a well-founded dictionary a sequence can be taken (R52, R190). -/
theorem State.LzwRun.takeSequence_completes {s : State} (h : s.LzwRun) (c : Code) {q : List Byte} (hq : q ≠ []) :
    ∃ t, s.advance.takeSequence c q = .next t := by
  have hch : s.advance.Chained := State.chained_congr h.entries rfl rfl rfl
  obtain ⟨-, -, f, l, -, -, ht⟩ | ⟨-, ht⟩ := State.takeSequence_cases (s := s.advance) (c := c) hq hch h.prev_mem
  · exact ⟨_, ht⟩
  · exact ⟨_, ht⟩

/-- During a run every code can be taken: DICT and KWKWK are for members, which have sequences (R52, R104). -/
theorem State.LzwRun.runCode_completes {s : State} (h : s.LzwRun) (c : Code) : ∃ t, runCode c s = .next t := by
  unfold runCode
  split
  next => exact ⟨_, rfl⟩
  next => exact ⟨_, rfl⟩
  next hc =>
    obtain ⟨q, hq, -, -, hpos, -⟩ := State.seq_of_member h.entries c (inDict_of_classify_dict hc)
    simp only [execDict, hq]
    exact h.takeSequence_completes c (List.ne_nil_of_length_pos hpos)
  next hc =>
    have hprev := h.prev_mem (eq_next_of_classify_kwkwk hc).2
    obtain ⟨q, hq, hf, -, -, -⟩ := State.seq_of_member h.entries s.lzw.prev hprev
    simp only [execKwkwk, hq, hf]
    exact h.takeSequence_completes c (by simp)
  next => exact ⟨_, rfl⟩

/-- From a state with the invariant an LZW step completes, and uses up no turn. -/
theorem State.Inv.execLzwStep_completes {s : State} (h : s.Inv) :
    ∃ t, Machine.execLzwStep s = .next t ∧ t.turns = s.turns := by
  obtain ⟨-, he⟩ | ⟨-, -, he⟩ | ⟨-, -, -, he⟩ | ⟨hb, -, -, he⟩ := execLzwStep_cases s
  · exact ⟨_, he, rfl⟩
  · exact ⟨_, he, rfl⟩
  · exact ⟨_, he, rfl⟩
  · obtain ⟨t, ht⟩ := (h.lzw_run hb).runCode_completes s.fetchCode
    exact ⟨t, he.trans ht, (runCode_passedCode ht).turns_eq⟩

/-- A DS step completes, and uses up no turn. -/
theorem execDsCellStep_completes (s : State) : ∃ t, execDsCellStep s = .next t ∧ t.turns = s.turns := by
  obtain ⟨-, he⟩ | ⟨-, -, he⟩ | ⟨-, -, he⟩ := execDsCellStep_cases s <;> exact ⟨_, he, rfl⟩

/-! ## An engine's step brings its run nearer to its end -/

/-- What the busy engine has left: the bits of the stream and the step that stops (R194), or the cells (R228). -/
def State.work (s : State) : Nat :=
  if s.status.lzwBusy then 8 * s.lzw.inLen.toNat + 1 - s.lzw.bitpos.toNat
  else if s.status.dsBusy then s.params.tgtW * s.params.tgtH - s.ds.cell.toNat
  else 0

theorem State.work_of_lzwBusy {s : State} (h : s.status.lzwBusy = true) :
    s.work = 8 * s.lzw.inLen.toNat + 1 - s.lzw.bitpos.toNat :=
  if_pos h

theorem State.work_of_dsBusy {s : State} (hl : s.status.lzwBusy = false) (hd : s.status.dsBusy = true) :
    s.work = s.params.tgtW * s.params.tgtH - s.ds.cell.toNat := by
  simp [State.work, hl, hd]

theorem State.work_of_not_busy {s : State} (hl : s.status.lzwBusy = false) (hd : s.status.dsBusy = false) :
    s.work = 0 := by
  simp [State.work, hl, hd]

theorem State.Inv.dsBusy_eq_false {s : State} (h : s.Inv) (hl : s.status.lzwBusy = true) : s.status.dsBusy = false := by
  simpa [hl] using h.not_both

/-- LZW_BITPOS moves on by WIDTH, with no wrap, for the stream has at most `8 * 2^20` bits (R7, R183). -/
theorem State.Inv.toNat_advance_bitpos {s : State} (h : s.Inv) (hb : s.status.lzwBusy = true)
    (hc : s.lzw.bitpos.toNat + s.lzw.width.toNat ≤ 8 * s.lzw.inLen.toNat) :
    s.advance.lzw.bitpos.toNat = s.lzw.bitpos.toNat + s.lzw.width.toNat := by
  obtain ⟨⟨-, hin⟩, -⟩ := h.params_legal
  have hle := (h.lzw_run hb).inLen_le
  rw [State.advance_lzw, BitVec.toNat_ofNat]
  exact Nat.mod_eq_of_lt (by omega)

theorem State.LzwRun.width_pos {s : State} (h : s.LzwRun) : 0 < s.lzw.width.toNat :=
  Nat.lt_of_lt_of_le (Nat.succ_pos _) h.width_range.1

/-- A step of a run that stops leaves no work; one that goes on has read a code of at least one bit (R194). -/
theorem State.Inv.work_lt_of_lzwStep {s t : State} (h : s.Inv) (hb : s.status.lzwBusy = true)
    (ht : Machine.execLzwStep s = .next t) : t.work < s.work := by
  have hr := h.lzw_run hb
  have hd := h.dsBusy_eq_false hb
  have hpos : 0 < s.work := by
    have := hr.bitpos_le
    rw [State.work_of_lzwBusy hb]
    omega
  obtain ⟨hi, -⟩ | ⟨-, -, he⟩ | ⟨-, -, -, he⟩ | ⟨-, -, hc, he⟩ := execLzwStep_cases s
  · exact absurd (hi.symm.trans hb) Bool.false_ne_true
  · cases he.symm.trans ht
    exact (State.work_of_not_busy (s := s.stopLzw _) rfl hd).trans_lt hpos
  · cases he.symm.trans ht
    exact (State.work_of_not_busy (s := s.stopLzw _) rfl hd).trans_lt hpos
  · rw [he] at ht
    have hpass := runCode_passedCode ht
    cases hl : t.status.lzwBusy with
    | false => exact (State.work_of_not_busy hl (hpass.dsBusy_eq.trans hd)).trans_lt hpos
    | true =>
      have := hr.width_pos
      rw [State.work_of_lzwBusy hl, State.work_of_lzwBusy hb, (runCode_onlyEmits ht).inLen_eq, hpass.bitpos_eq,
        h.toNat_advance_bitpos hb hc]
      omega

/-- DS_CELL moves on by one, with no wrap (R7, R226). -/
theorem State.Inv.toNat_nextCell {s : State} (h : s.Inv) (hb : s.status.dsBusy = true) :
    s.ds.nextCell.cell.toNat = s.ds.cell.toNat + 1 := by
  have hlt := (h.ds_run hb).cell_lt
  obtain ⟨-, -, -, -, -, hcells⟩ := h.params_legal
  exact (BitVec.toNat_ofNat _ _).trans (Nat.mod_eq_of_lt (by omega))

/-- A cell is done, or it was the last one and no work is left (R228). -/
theorem State.Inv.work_lt_of_dsStep {s t : State} (h : s.Inv) (hl : s.status.lzwBusy = false)
    (hb : s.status.dsBusy = true) (ht : Machine.execDsCellStep s = .next t) : t.work < s.work := by
  have hlt := (h.ds_run hb).cell_lt
  have hnext := h.toNat_nextCell hb
  rw [State.work_of_dsBusy hl hb]
  obtain ⟨hi, -⟩ | ⟨-, -, he⟩ | ⟨-, -, he⟩ := execDsCellStep_cases s
  · exact absurd (hi.symm.trans hb) Bool.false_ne_true
  · have heq := Host.Outcome.next.inj (he.symm.trans ht)
    rw [State.work_of_dsBusy (s := t) (heq ▸ hl) (heq ▸ hb), ← heq]
    show s.params.tgtW * s.params.tgtH - s.ds.nextCell.cell.toNat < _
    omega
  · have heq := Host.Outcome.next.inj (he.symm.trans ht)
    rw [State.work_of_not_busy (s := t) (heq ▸ hl) (heq ▸ rfl)]
    exact Nat.sub_pos_of_lt hlt

/-! ## WAITIDLE -/

/-- The block gets, in finitely many steps, to the later turns `ts` with no engine busy, as the last value read says. -/
def State.ComesToIdle (ts : List Turn) (s : State) : Prop :=
  ∃ (k : Nat) (t : State), Host.Core.run Sys2Proof.core k s = .next t ∧ t.turns = ts ∧ t.busy = false ∧
    t.rdata = some t.status.word

theorem State.comesToIdle_of_step {ts : List Turn} {s u : State} (hs : step s = .next u) (hu : u.ComesToIdle ts) :
    s.ComesToIdle ts := by
  obtain ⟨k, t, hk, ht⟩ := hu
  exact ⟨k + 1, t, (run_succ Sys2Proof.core hs).trans hk, ht⟩

/-- The turn of an agent other than the host completes and keeps the invariant. -/
theorem State.Inv.step_of_agent {s : State} (h : s.Inv) {a : Agent} {ts : List Turn} (hts : s.turns = a.turn :: ts) :
    ∃ u, step s = .next u ∧ u.Inv ∧ u.turns = ts := by
  have hu : State.Inv { s with turns := ts } := h.congr rfl rfl rfl rfl rfl rfl
  obtain ⟨u, hs, hut⟩ : ∃ u, step s = .next u ∧ u.turns = ts := by
    cases a with
    | lzw =>
      obtain ⟨u, he, hut⟩ := hu.execLzwStep_completes
      exact ⟨u, (step_of_lzw_turn hts).trans he, hut⟩
    | ds =>
      obtain ⟨u, he, hut⟩ := execDsCellStep_completes { s with turns := ts }
      exact ⟨u, (step_of_ds_turn hts).trans he, hut⟩
    | resetInput => exact ⟨State.resetInput { s with turns := ts }, by rw [step, nextEvent_of_turns_cons hts]; rfl, rfl⟩
    | powerOn => exact ⟨State.powerOn { s with turns := ts }, by rw [step, nextEvent_of_turns_cons hts]; rfl, rfl⟩
  exact ⟨u, hs, stepKeepsInvariant s u h hs, hut⟩

/-- A round of agents' turns comes to an end. -/
theorem State.Inv.comesToIdle_of_round {ts rest : List Turn}
    (hrest : ∀ u : State, u.Inv → u.turns = rest → u.ComesToIdle ts) {agents : List Agent} {s : State} (h : s.Inv)
    (hs : s.turns = agents.map Agent.turn ++ rest) : s.ComesToIdle ts := by
  induction agents generalizing s with
  | nil => exact hrest s h hs
  | cons a agents ih =>
    obtain ⟨u, hu, hui, hut⟩ := h.step_of_agent hs
    exact State.comesToIdle_of_step hu (ih hui hut)

/-- A step of the busy engine keeps the invariant and lessens its work. -/
theorem State.Inv.step_of_busy_agent {s : State} (h : s.Inv) {a : Agent} {ts : List Turn} (hts : s.turns = a.turn :: ts)
    (ha : a = .lzw ∧ s.status.lzwBusy = true ∨ a = .ds ∧ s.status.lzwBusy = false ∧ s.status.dsBusy = true) :
    ∃ u, step s = .next u ∧ u.Inv ∧ u.turns = ts ∧ u.work < s.work := by
  have hi : State.Inv { s with turns := ts } := h.congr rfl rfl rfl rfl rfl rfl
  obtain ⟨u, hs, hu, hut⟩ := h.step_of_agent hts
  refine ⟨u, hs, hu, hut, ?_⟩
  obtain ⟨rfl, hl⟩ | ⟨rfl, hl, hd⟩ := ha
  · exact hi.work_lt_of_lzwStep hl ((step_of_lzw_turn hts).symm.trans hs)
  · exact hi.work_lt_of_dsStep hl hd ((step_of_ds_turn hts).symm.trans hs)

/-- With no round left it is the busy engine that moves before the next read (R297). -/
theorem State.repeatPoll_of_busy {p : Poll} {s : State} (h : p.between = []) (hb : s.busy = true) :
    ∃ a : Agent, s.repeatPoll p = { s with turns := a.turn :: .poll p :: s.turns } ∧
      (a = .lzw ∧ s.status.lzwBusy = true ∨ a = .ds ∧ s.status.lzwBusy = false ∧ s.status.dsBusy = true) := by
  cases hl : s.status.lzwBusy with
  | true => exact ⟨.lzw, State.repeatPoll_of_lzwBusy h hl, .inl ⟨rfl, rfl⟩⟩
  | false =>
    have hd : s.status.dsBusy = true := by simpa [State.busy, hl] using hb
    exact ⟨.ds, State.repeatPoll_of_dsBusy h hl hd, .inr ⟨rfl, rfl, hd⟩⟩

/-- A read of STATUS returns its word, busy or not (R131). -/
theorem hostRead_status (s : State) : hostRead 0x14#32 4 s = .next (s.reply s.status.word) := by
  rw [hostRead, target_eq_reg.2 (by decide)]
  rfl

/-- The state after a read of STATUS, with the later turns to come. -/
def State.statusRead (ts : List Turn) (s : State) : State := State.reply s.status.word { s with turns := ts }

theorem State.Inv.statusRead {s : State} (h : s.Inv) (ts : List Turn) : (s.statusRead ts).Inv :=
  h.congr rfl rfl rfl rfl rfl rfl

/-- WAITIDLE reads STATUS, so its read ends the loop exactly with no engine busy. -/
theorem step_of_waitIdle {s : State} {between : List (List Agent)} {ts : List Turn}
    (h : s.turns = .poll (waitIdle between) :: ts) :
    step s = if s.busy = false then .next (s.statusRead ts)
      else .next ((s.statusRead ts).repeatPoll (waitIdle between)) := by
  obtain ⟨v, t, hr, hv, hs⟩ := step_of_poll_read h
  obtain rfl : s.statusRead ts = t := Host.Outcome.next.inj ((hostRead_status { s with turns := ts }).symm.trans hr)
  obtain rfl : s.status.word = v := Option.some.inj hv
  exact hs.trans (if_congr (status_and_mask_eq_zero_iff s) rfl rfl)

/-- WAITIDLE ends at a read with no engine busy, so what is left to show is that it ends when its next round comes to an end. -/
theorem State.comesToIdle_of_read {s : State} {between : List (List Agent)} {ts : List Turn}
    (hs : s.turns = .poll (waitIdle between) :: ts)
    (hround : s.busy = true → ((s.statusRead ts).repeatPoll (waitIdle between)).ComesToIdle ts) : s.ComesToIdle ts := by
  have hstep := step_of_waitIdle hs
  cases hb : s.busy with
  | false => exact State.comesToIdle_of_step (hstep.trans (if_pos hb)) ⟨0, s.statusRead ts, rfl, rfl, hb, rfl⟩
  | true => exact State.comesToIdle_of_step (hstep.trans (if_neg (by simp [hb]))) (hround hb)

/-- With no round listed WAITIDLE ends: the busy engine moves between the reads, and each of its steps lessens its work. -/
theorem State.Inv.comesToIdle_of_waitIdle_nil {ts : List Turn} {s : State} (h : s.Inv)
    (hs : s.turns = .poll (waitIdle []) :: ts) : s.ComesToIdle ts := by
  induction hn : s.work using Nat.strong_induction_on generalizing s with
  | _ n ih =>
    subst hn
    refine State.comesToIdle_of_read hs fun hb => ?_
    obtain ⟨a, hround, ha⟩ := State.repeatPoll_of_busy (p := waitIdle []) (s := s.statusRead ts) rfl hb
    rw [hround]
    have hi : State.Inv { s.statusRead ts with turns := a.turn :: .poll (waitIdle []) :: ts } :=
      h.congr rfl rfl rfl rfl rfl rfl
    obtain ⟨u, hu, hui, hut, hlt⟩ := hi.step_of_busy_agent rfl ha
    exact State.comesToIdle_of_step hu (ih u.work hlt hui hut rfl)

/-- WAITIDLE ends: each listed round comes to an end, and there are finitely many. -/
theorem State.Inv.comesToIdle_of_waitIdle {ts : List Turn} {between : List (List Agent)} {s : State} (h : s.Inv)
    (hs : s.turns = .poll (waitIdle between) :: ts) : s.ComesToIdle ts := by
  induction between generalizing s with
  | nil => exact h.comesToIdle_of_waitIdle_nil hs
  | cons agents more ih =>
    refine State.comesToIdle_of_read hs fun _ => ?_
    rw [State.repeatPoll_of_round rfl]
    exact State.Inv.comesToIdle_of_round (rest := .poll (waitIdle more) :: ts) (fun u => ih)
      ((h.statusRead ts).congr rfl rfl rfl rfl rfl rfl) rfl

/-- Settles O60: the listed rounds are finitely many, and after them every round brings the busy engine's run nearer to its end. -/
theorem waitIdleEnds : Obligations.WaitIdleEnds :=
  fun _ _ _ => State.Inv.comesToIdle_of_waitIdle

end Sys2Proof.Machine
end

section
/-! PROOFS. The host's transactions by where they go (40_host_interface.md R130 to R138): to a register, to a buffer, to a busy block,
or nowhere; and that a transaction is the encoding of its row (30_encoding.md R111). -/

namespace Sys2Proof.Machine

/-! ## Registers -/

/-- The offsets that hold a configuration register (R135). -/
theorem isConfigOff_iff {off : Nat} : isConfigOff off = true ↔ off ∈ [0x20, 0x24, 0x28, 0x50, 0x54] := by
  simp only [isConfigOff, Bool.or_eq_true, beq_iff_eq, List.mem_cons, List.not_mem_nil, or_false, or_assoc]

/-- An aligned read of REG returns the register's word, busy or not (R131). -/
theorem hostRead_reg {off : Word} (hlt : off.toNat < 0x100) (hal : off.toNat % 4 = 0) (s : State) :
    hostRead off 4 s = .next (s.reply (s.regRead off.toNat)) := by
  rw [hostRead, target_eq_reg.2 ⟨rfl, hal, hlt⟩]

/-- An aligned write of REG is a register write (R134). -/
theorem hostWrite_reg {off : Word} (hlt : off.toNat < 0x100) (hal : off.toNat % 4 = 0) (v : Word) (s : State) :
    hostWrite off 4 v s = regWrite off v s := by
  rw [hostWrite, target_eq_reg.2 ⟨rfl, hal, hlt⟩]

theorem hostWrite_config {off : Word} (h : isConfigOff off.toNat = true) (v : Word) (s : State) :
    hostWrite off 4 v s = if s.busy then .next s.setAccerr else .next (s.configWrite off.toNat v) := by
  rw [hostWrite, target_config h]
  simp only [regWrite, if_neg (ne_ctrlOff_of_isConfigOff h), if_pos h]

/-- A configuration write with no engine busy takes the register's field (R134). -/
theorem hostWrite_config_idle {off : Word} {s : State} (h : isConfigOff off.toNat = true) (hb : s.busy = false) (v : Word) :
    hostWrite off 4 v s = .next (s.configWrite off.toNat v) :=
  (hostWrite_config h v s).trans (if_neg (by simp [hb]))

/-- A configuration write is refused while an engine is busy (R135). -/
theorem hostWrite_config_busy {off : Word} {s : State} (h : isConfigOff off.toNat = true) (hb : s.busy = true) (v : Word) :
    hostWrite off 4 v s = .next s.setAccerr :=
  (hostWrite_config h v s).trans (if_pos hb)

/-- A write to CTRL performs its command (R134). -/
theorem regWrite_ctrl (v : Word) (s : State) : regWrite ctrlOff v s = command v s := if_pos rfl

/-- A write to a register that is neither CTRL nor for configuration is ignored (R134). -/
theorem regWrite_ignored {off : Word} (hc : off ≠ ctrlOff) (hcfg : ¬ isConfigOff off.toNat = true) (v : Word) (s : State) :
    regWrite off v s = .next s := by
  rw [regWrite, if_neg hc, if_neg hcfg]

/-- An offset past the last register is a hole (R20, R49). -/
theorem State.regRead_past (s : State) {off : Nat} (h : 0x5C ≤ off) : s.regRead off = 0#32 := by
  unfold State.regRead
  split
  -- the last alternative of the lookup is the only one whose offset is not below 0x5C
  case h_18 => rfl
  all_goals omega

/-- Settles O18: REG is read whatever BUSY is, and the word read is looked up by the offset. -/
theorem registerReadAnswersItsWord : Obligations.RegisterReadAnswersItsWord := by
  refine ⟨fun s off hlt hal => hostRead_reg hlt hal s, fun s => ?_⟩
  have hw {k : Nat} (hk : k ≤ 32) (x : BitVec k) : (x.setWidth 32).toNat = x.toNat := BitVec.toNat_setWidth_of_le hk
  refine ⟨rfl, rfl, rfl, rfl, rfl, rfl, hw (by decide) _, rfl, rfl, rfl, rfl, rfl, hw (by decide) _, hw (by decide) _, rfl,
    hw (by decide) _, hw (by decide) _, rfl, rfl, rfl, fun off hlo hhi => ?_, fun off => s.regRead_past⟩
  interval_cases off <;> rfl

/-- Settles O21: a register write is the command at CTRL, the field or ACCERR at a configuration register, and nothing elsewhere. -/
theorem registerWriteFollowsItsRule : Obligations.RegisterWriteFollowsItsRule := by
  intro s v
  refine ⟨fun hb => ?_, fun hb off hoff => hostWrite_config_busy (isConfigOff_iff.2 hoff) hb v, ?_, ?_⟩
  · have hset (off : Word) (h : isConfigOff off.toNat = true) := hostWrite_config_idle h hb v
    exact ⟨hset 0x20#32 rfl, hset 0x24#32 rfl, hset 0x28#32 rfl, hset 0x50#32 rfl, hset 0x54#32 rfl⟩
  · exact ((hostWrite_reg (by decide) (by decide) v s).trans (regWrite_ctrl v s)).trans (exec_decodeCommand v s).symm
  · intro off hlt hal hoff
    rw [List.mem_cons, not_or, ← isConfigOff_iff] at hoff
    obtain ⟨hne, hcfg⟩ := hoff
    exact (hostWrite_reg hlt hal v s).trans (regWrite_ignored (fun h => hne (congrArg BitVec.toNat h)) hcfg v s)

/-! ## Buffers -/

theorem target_of_inside {p : Params} {b : Buf} {off n : Nat} (hp : p.Legal) (hn : n = 1 ∨ n = 2 ∨ n = 4)
    (h : Claims.InsideBuffer p b off n) : target p off n = some (.buf b) := by
  obtain ⟨hlo, hhi, hal⟩ := h
  exact (target_eq_buf hp).2 ⟨hn, hal, hlo, hhi⟩

theorem State.memRead_one (s : State) (a : Nat) : s.memRead a 1 = (s.byteAt a).toNat := rfl

theorem State.memRead_two (s : State) (a : Nat) :
    s.memRead a 2 = (s.byteAt a).toNat + 2 ^ 8 * (s.byteAt (a + 1)).toNat := rfl

theorem State.memRead_four (s : State) (a : Nat) :
    s.memRead a 4 = (s.byteAt a).toNat + 2 ^ 8 * (s.byteAt (a + 1)).toNat + 2 ^ 16 * (s.byteAt (a + 2)).toNat +
      2 ^ 24 * (s.byteAt (a + 3)).toNat := by
  simp only [State.memRead, Nat.add_assoc, Nat.reduceAdd]
  omega

/-- A byte that nothing has written since power-on is the free draw (R282). -/
theorem State.byteAt_unwritten {s : State} {a : Nat} (h : Memory.get? a s.mem = none) :
    s.byteAt a = Config.powerOnByte s.powerOns a := by
  rw [State.byteAt, h]

/-- Settles O19: each row reads the bytes of its width, the first with the least weight. -/
theorem bufferReadAnswersItsBytes : Obligations.BufferReadAnswersItsBytes := by
  intro s b off hp hb
  refine ⟨fun h => ?_, fun h => ?_, fun h => ?_, fun a => State.byteAt_unwritten⟩
  · rw [← State.memRead_one]
    exact hostRead_inside hp hb (by decide) h
  · rw [← State.memRead_two]
    exact hostRead_inside hp hb (by decide) h
  · rw [← State.memRead_four]
    exact hostRead_inside hp hb (by decide) h

/-- A store to a buffer changes memory only. -/
theorem State.memWrite_eq (a n v : Nat) (s : State) : s.memWrite a n v = { s with mem := (s.memWrite a n v).mem } := by
  induction n generalizing a v s with
  | zero => rfl
  | succ n ih => exact ih (a + 1) (v / 256) (s.setByte a (BitVec.ofNat 8 v))

theorem State.storedBytes_memWrite (s : State) (a n : Nat) (v : Word) :
    Claims.StoredBytes s (s.memWrite a n v.toNat) a n v :=
  ⟨s.memWrite_eq a n v.toNat, fun x => s.byteAt_memWrite a n v.toNat x⟩

/-- Settles O22: each row stores the low bytes of its width. -/
theorem bufferWriteStoresItsBytes : Obligations.BufferWriteStoresItsBytes := by
  intro s b off v hp hb
  have hstored {n : Nat} (hn : n = 1 ∨ n = 2 ∨ n = 4) (h : Claims.InsideBuffer s.params b off.toNat n) :
      ∃ t, hostWrite off n v s = .next t ∧ Claims.StoredBytes s t off.toNat n v :=
    ⟨_, hostWrite_inside v hp hb hn h, s.storedBytes_memWrite off.toNat n v⟩
  exact ⟨hstored (by decide), hstored (by decide), hstored (by decide)⟩

/-- Settles O20: the target says where the access goes, and BUSY that it is refused there. -/
theorem busyAccessIsRefused : Obligations.BusyAccessIsRefused := by
  intro s off v hp hb
  refine ⟨fun b n hn h => ?_, fun hoff => hostWrite_config_busy (isConfigOff_iff.2 hoff) hb v⟩
  have ht := target_of_inside hp hn h
  constructor
  · show hostRead off n s = .next (s.setAccerr.reply 0#32)
    simp only [hostRead, ht, hb, if_true]
  · show hostWrite off n v s = .next s.setAccerr
    simp only [hostWrite, ht, hb, if_true]

/-! ## Shapes -/

/-- An access has no target exactly where its shape is bad (R138). -/
theorem target_eq_none_iff_not_shapeOk {p : Params} (hp : p.Legal) {off n : Nat} :
    target p off n = none ↔ ¬ Claims.ShapeOk p off n := by
  rw [target_eq_none hp, not_iff_not]
  constructor
  · rintro (⟨rfl, hal, hlt⟩ | ⟨b, hn, hal, hin⟩)
    · exact ⟨by decide, hal, .inl ⟨by omega, rfl⟩⟩
    · exact ⟨hn, hal, .inr ⟨b, hin⟩⟩
  · rintro ⟨hn, hal, ⟨hlt, rfl⟩ | ⟨b, hin⟩⟩
    · exact .inl ⟨rfl, hal, by omega⟩
    · exact .inr ⟨b, hn, hal, hin⟩

/-- Settles O23: a bad shape has no target, and BUSY is not looked at. -/
theorem badShapeSetsBuserr : Obligations.BadShapeSetsBuserr := by
  intro s off n hp h
  have ht := (target_eq_none_iff_not_shapeOk hp).2 h
  constructor
  · show hostRead off n s = .next (s.setBuserr.reply 0#32)
    rw [hostRead, ht]
  · intro v
    show hostWrite off n v s = .next s.setBuserr
    rw [hostWrite, ht]

/-! ## The procedure of R130 -/

theorem State.busy_eq_true {s : State} : s.busy = true ↔ s.status.lzwBusy = true ∨ s.status.dsBusy = true := by
  simp only [State.busy, Bool.or_eq_true]

theorem legalShape_eq_false {p : Params} {off n : Nat} (h : target p off n = none) : legalShape p off n = false :=
  Laws.eq_false_of_not (not_legalShape_iff.2 h)

/-- The procedure's three tests are the target of the access, and BUSY for a buffer. -/
theorem accessTests_eq {α : Type} (s : State) (off n : Nat) (bad reg refused done : α) :
    (if legalShape s.params off n = false then bad else if regionOf s.params off = some .reg then reg
      else if s.status.lzwBusy = true ∨ s.status.dsBusy = true then refused else done) =
    match target s.params off n with
    | none => bad
    | some .reg => reg
    | some (.buf _) => if s.busy then refused else done := by
  match ht : target s.params off n with
  | none => rw [if_pos (legalShape_eq_false ht)]
  | some .reg => rw [if_neg (by simp [legalShape_of_target ht]), if_pos (regionOf_of_target ht)]
  | some (.buf b) =>
    rw [if_neg (by simp [legalShape_of_target ht]), if_neg (by simp [regionOf_of_target ht])]
    simp only [State.busy_eq_true]

/-- Settles O24: every row runs `hostRead` or `hostWrite`, which make the procedure's tests through the target. -/
theorem transactionFollowsProcedure : Obligations.TransactionFollowsProcedure := by
  intro s x
  cases x with
  | rd off n => exact (exec_decodeTxn_rd s.ctx off n s).trans (accessTests_eq s off.toNat n _ _ _ _).symm
  | wr off n v => exact (exec_decodeTxn_wr s off v n).trans (accessTests_eq s off.toNat n _ _ _ _).symm

/-! ## Encode inverts decode -/

theorem encode_decodeCommand (ctx : DecodeCtx) (v : Word) : encode ctx (decodeCommand v) = .bus (ctrlWrite v) := by
  obtain hv | rfl | rfl | rfl | rfl | rfl | rfl := illegalWord_or_legal v
  · rw [decodeCommand_of_illegalWord hv, encode]
  all_goals rfl

/-- Settles O10: a row of a register has size 4, and the row of an idle buffer's access is named after its size. -/
theorem encodeInvertsDecodeOfTransactions : Obligations.EncodeInvertsDecodeOfTransactions := by
  intro ctx t
  cases t with
  | rd off n =>
    simp only [decodeTxn]
    split
    · rfl
    next ht =>
      obtain ⟨rfl, -⟩ := target_eq_reg.1 ht
      rfl
    next ht =>
      obtain rfl | rfl | rfl := target_size ht <;> split <;> rfl
  | wr off n v =>
    simp only [decodeTxn]
    split
    · rfl
    next ht =>
      obtain ⟨rfl, -⟩ := target_eq_reg.1 ht
      split_ifs with hc hcfg
      · rw [encode_decodeCommand, hc, ctrlWrite]
      · rfl
      · rfl
    next ht =>
      obtain rfl | rfl | rfl := target_size ht <;> split <;> rfl

end Sys2Proof.Machine
end

section
/-! PROOFS. The commands, each by its rule (40_host_interface.md R140 to R146, 60_exceptions.md R256, R258). -/

namespace Sys2Proof.Machine

/-- Settles O27: NOP answers the state it met (R140). -/
theorem nopChangesNothing : Obligations.NopChangesNothing := fun _ => rfl

/-- Settles O28: an illegal word is its own row, which sets CMDERR. -/
theorem illegalCommandSetsCmderr : Obligations.IllegalCommandSetsCmderr := by
  intro s w hw
  exact ⟨decodeCommand_of_illegalWord (illegalWord_iff.2 (by omega)), rfl⟩

/-! ## LZW_START -/

theorem execLzwStart_of_busy {s : State} (hb : s.busy = true) : execLzwStart s = .next s.setCmderr :=
  if_pos hb

section
variable {s : State} (hb : s.busy = false)
include hb

/-- LZW_START with no engine busy, its checks on the registers as they stand: clearing the last run keeps what they look at. -/
theorem execLzwStart_of_idle :
    execLzwStart s =
      if s.lzw.mcs.toNat < mcsMin ∨ s.lzw.mcs.toNat > mcsMax then .next (s.clearLzwRun.stopLzw .badMcs)
      else if s.lzw.inLen.toNat > s.params.inBytes ∨ s.lzw.expect.toNat > s.params.pixBytes then
        .next (s.clearLzwRun.stopLzw .badLength)
      else .next s.lzwStarted := by
  rw [execLzwStart, hb]
  rfl

theorem execLzwStart_badMcs (hm : ¬ (mcsMin ≤ s.lzw.mcs.toNat ∧ s.lzw.mcs.toNat ≤ mcsMax)) :
    execLzwStart s = .next (s.clearLzwRun.stopLzw .badMcs) := by
  rw [execLzwStart_of_idle hb, if_pos (by omega)]

theorem execLzwStart_badLength (hm : mcsMin ≤ s.lzw.mcs.toNat ∧ s.lzw.mcs.toNat ≤ mcsMax)
    (hl : s.params.inBytes < s.lzw.inLen.toNat ∨ s.params.pixBytes < s.lzw.expect.toNat) :
    execLzwStart s = .next (s.clearLzwRun.stopLzw .badLength) := by
  rw [execLzwStart_of_idle hb, if_neg (by omega), if_pos hl]

theorem execLzwStart_accepted (hm : mcsMin ≤ s.lzw.mcs.toNat ∧ s.lzw.mcs.toNat ≤ mcsMax)
    (hi : s.lzw.inLen.toNat ≤ s.params.inBytes) (he : s.lzw.expect.toNat ≤ s.params.pixBytes) :
    execLzwStart s = .next s.lzwStarted := by
  rw [execLzwStart_of_idle hb, if_neg (by omega), if_neg (by omega)]

end

/-- WIDTH and NEXT hold what a seeded dictionary gives them (R171). -/
theorem State.lzwStarted_width {s : State} (hm : s.lzw.mcs.toNat ≤ 8) :
    s.lzwStarted.lzw.width.toNat = s.lzw.mcs.toNat + 1 :=
  (BitVec.toNat_ofNat _ 4).trans (Nat.mod_eq_of_lt (show s.lzw.mcs.toNat + 1 < 2 ^ 4 by omega))

theorem State.lzwStarted_next {s : State} (hm : s.lzw.mcs.toNat ≤ 8) :
    s.lzwStarted.lzw.next.toNat = 2 ^ s.lzw.mcs.toNat + 2 := by
  have hpow : 2 ^ s.lzw.mcs.toNat ≤ 2 ^ 8 := Nat.pow_le_pow_right (by decide) hm
  exact (BitVec.toNat_ofNat _ 13).trans (Nat.mod_eq_of_lt (show 2 ^ s.lzw.mcs.toNat + 2 < 2 ^ 13 by omega))

/-- Settles O29: one rule per outcome of the checks, in their order. -/
theorem lzwStartFollowsItsRule : Obligations.LzwStartFollowsItsRule := by
  refine fun s => ⟨execLzwStart_of_busy, execLzwStart_badMcs, fun hb hlo hhi => execLzwStart_badLength hb ⟨hlo, hhi⟩, ?_⟩
  intro hb hlo hhi hi he
  exact ⟨s.lzwStarted, execLzwStart_accepted hb ⟨hlo, hhi⟩ hi he, rfl, State.lzwStarted_width hhi,
    State.lzwStarted_next hhi⟩

/-! ## DS_START -/

theorem execDsStart_of_busy {s : State} (hb : s.busy = true) : execDsStart s = .next s.setCmderr :=
  if_pos hb

/-- DS_START with no engine busy, its check on the registers as they stand. -/
theorem execDsStart_of_idle {s : State} (hb : s.busy = false) :
    execDsStart s =
      if s.ds.srcW.toNat = 0 ∨ s.ds.srcH.toNat = 0 ∨ s.ds.srcW.toNat * s.ds.srcH.toNat > s.params.pixBytes then
        .next (s.clearDsRun.stopDs .badDims)
      else .next s.dsStarted := by
  rw [execDsStart, hb]
  rfl

/-- Settles O30: one rule per outcome of the check. -/
theorem dsStartFollowsItsRule : Obligations.DsStartFollowsItsRule := by
  have hzero (x : BitVec 16) : x.toNat = 0 ↔ x = 0#16 := (BitVec.toNat_eq (x := x) (y := 0#16)).symm
  refine fun s => ⟨execDsStart_of_busy, fun hb hbad => ?_, fun hb hw hh hsize => ?_⟩
  · exact (execDsStart_of_idle hb).trans (if_pos (by rwa [hzero, hzero]))
  · exact (execDsStart_of_idle hb).trans (if_neg (by simp only [hzero, hw, hh, false_or]; omega))

/-! ## ABORT, ACK, SOFT_RESET -/

/-- ABORT by the two BUSY bits (R143). -/
theorem execAbort_eq (s : State) :
    execAbort s = .next (match s.status.lzwBusy, s.status.dsBusy with
      | false, false => s
      | true, false => s.stopLzw .aborted
      | false, true => s.stopDs .aborted
      | true, true => (s.stopLzw .aborted).stopDs .aborted) := by
  cases hl : s.status.lzwBusy <;> cases hd : s.status.dsBusy <;> simp [execAbort, hl, hd]

/-- Settles O31: the BUSY bits say which of the two stops are made, and an aborted run is not short (R33). -/
theorem abortStopsTheBusyEngine : Obligations.AbortStopsTheBusyEngine := by
  refine fun s => ⟨fun hb => ?_, fun hl hd => ?_, fun hl hd => ?_, fun hl hd => ?_⟩
  · obtain ⟨hl, hd⟩ := State.busy_eq_false.1 hb
    exact (execAbort_eq s).trans (by rw [hl, hd])
  all_goals exact (execAbort_eq s).trans (by rw [hl, hd]; rfl)

/-- Settles O32: ACK leaves the block in `State.acked` (R144). -/
theorem ackClearsStickyFields : Obligations.AckClearsStickyFields :=
  fun s => show execAck s = .next s.acked from rfl

/-- A register's word depends on the parameters, STATUS and the engines' registers only (R20). -/
theorem State.regRead_congr {s t : State} (hp : t.params = s.params) (hs : t.status = s.status) (hl : t.lzw = s.lzw)
    (hd : t.ds = s.ds) (off : Nat) : t.regRead off = s.regRead off := by
  simp only [State.regRead, hp, hs, hl, hd]

/-- Settles O33: the registers take their reset values, and memory is not touched. -/
theorem softResetIsPowerOnButBuffers : Obligations.SoftResetIsPowerOnButBuffers :=
  fun s => ⟨s.resetRegisters, rfl, rfl, State.regRead_congr rfl rfl rfl rfl, State.byteAt_congr rfl rfl⟩

end Sys2Proof.Machine
end

section
/-! PROOFS. An LZW step, test by test, and the codes that emit nothing: CLEAR, END and INVALID (41_lzw_decode.md R180 to R185,
R188). -/

namespace Sys2Proof.Machine
open Claims

/-! ## The tests of a step -/

theorem execLzwStep_of_idle {s : State} (hb : s.status.lzwBusy = false) : execLzwStep s = .next s :=
  if_neg (by simp [hb])

theorem runCode_eq_exec (c : Code) (s : State) : runCode c s = exec (codeRow (s.classOf c) c) s := by
  unfold runCode
  cases s.classOf c <;> rfl

section
variable {s : State} (hb : s.status.lzwBusy = true)
include hb

theorem execLzwStep_countReached (ho : s.lzw.expect.toNat ≤ s.lzw.outCount.toNat) :
    execLzwStep s = .next (s.stopLzw .countReached) := by
  rw [execLzwStep, if_pos hb, if_pos ho]

theorem execLzwStep_exhausted (ho : s.lzw.outCount.toNat < s.lzw.expect.toNat) (hc : ¬ CodeLeft s) :
    execLzwStep s = .next (s.stopLzw .exhausted) := by
  rw [execLzwStep, if_pos hb, if_neg (Nat.not_le.2 ho), if_pos (Nat.not_le.1 hc)]

/-- With a code left the step is the row of the class of the code fetched (R183). -/
theorem execLzwStep_code (ho : s.lzw.outCount.toNat < s.lzw.expect.toNat) (hc : CodeLeft s) :
    execLzwStep s = exec (codeRow (s.classOf s.fetchCode) s.fetchCode) s := by
  rw [execLzwStep, if_pos hb, if_neg (Nat.not_le.2 ho), if_neg (Nat.not_lt.2 hc), runCode_eq_exec]

end

/-- Settles O43: one rule per test, in their order; SHORT of the two stops is what R33 computes. -/
theorem lzwStepStopsInOrder : Obligations.LzwStepStopsInOrder := by
  refine fun s => ⟨execLzwStep_countReached, fun hb ho hc => ?_, execLzwStep_of_idle⟩
  refine (execLzwStep_exhausted hb ho hc).trans ?_
  simp [State.stopLzw, shortAt, ho]

/-! ## The code in the stream -/

theorem length_inStream (s : State) : (inStream s).length = s.lzw.inLen.toNat := by
  simp [inStream]

theorem getD_inStream {s : State} {k : Nat} (h : k < s.lzw.inLen.toNat) :
    (inStream s).getD k 0#8 = s.bufByte .inp k := by
  simp [inStream, h]

/-- A whole code lies in the valid bytes, so it is the same code read from them alone (R38, R182). -/
theorem codeAt_inStream {s : State} (hc : CodeLeft s) :
    codeAt (fun k => (inStream s).getD k 0#8) s.lzw.bitpos.toNat s.lzw.width.toNat =
      codeAt (s.bufByte .inp) s.lzw.bitpos.toNat s.lzw.width.toNat := by
  have hle : s.lzw.bitpos.toNat + s.lzw.width.toNat ≤ 8 * s.lzw.inLen.toNat := hc
  exact codeAt_congr fun i hi => getD_inStream (by omega)

theorem decode_inStream {s : State} (hc : CodeLeft s) :
    decode s.ctx (.stream (inStream s) s.lzw.bitpos.toNat) = .ok (codeRow (s.classOf s.fetchCode) s.fetchCode) := by
  have hfetch := congrArg (BitVec.ofNat 12) (codeAt_inStream hc)
  rw [decode, length_inStream, decodeCode_eq]
  exact (if_neg (Nat.not_lt.2 hc)).trans (congrArg (fun c => Except.ok (codeRow (s.classOf c) c)) hfetch)

theorem decode_inStream_partial {s : State} (hc : ¬ CodeLeft s) :
    decode s.ctx (.stream (inStream s) s.lzw.bitpos.toNat) = .error .partialCode := by
  rw [decode, length_inStream]
  exact if_pos (Nat.not_le.1 hc)

/-- Settles O8: the stream decodes to an instruction exactly where the step's own test leaves a code to read. -/
theorem lzwStepRunsDecodedCode : Obligations.LzwStepRunsDecodedCode := by
  intro s hb ho
  by_cases hc : CodeLeft s
  · rw [decode_inStream hc]
    exact ⟨fun i hi => Except.ok.inj hi ▸ execLzwStep_code hb ho hc, nofun⟩
  · rw [decode_inStream_partial hc]
    exact ⟨nofun, fun _ _ => execLzwStep_exhausted hb ho hc⟩

/-! ## CLEAR, END and INVALID -/

/-- CLEAR seeds WIDTH and NEXT as LZW_START does (R171). -/
theorem State.initDict_width {s : State} (hm : s.lzw.mcs.toNat ≤ 8) :
    s.initDict.lzw.width.toNat = s.lzw.mcs.toNat + 1 :=
  State.lzwStarted_width hm

theorem State.initDict_next {s : State} (hm : s.lzw.mcs.toNat ≤ 8) :
    s.initDict.lzw.next.toNat = 2 ^ s.lzw.mcs.toNat + 2 :=
  State.lzwStarted_next hm

/-- Settles O35: CLEAR is `init_dict` past the code. -/
theorem clearReseedsTheDictionary : Obligations.ClearReseedsTheDictionary := by
  refine fun s c => ⟨(codeClassesAreTheirConditions ..).1, fun h hb hc _ => ⟨s.advance.initDict, rfl, rfl, ?_⟩⟩
  have hm : s.lzw.mcs.toNat ≤ 8 := (h.lzw_run hb).mcs_range.2
  exact ⟨h.toNat_advance_bitpos hb hc, State.initDict_width (s := s.advance) hm,
    State.initDict_next (s := s.advance) hm⟩

/-- Settles O36: END is a stop past the code. -/
theorem endStopsTheRun : Obligations.EndStopsTheRun :=
  fun s _ => ⟨(codeClassesAreTheirConditions ..).2.1, fun h hb hc _ =>
    ⟨s.advance.stopLzw .endCode, rfl, rfl, h.toNat_advance_bitpos hb hc⟩⟩

/-- Settles O39: INVALID is a stop past the code, with the code and its position recorded. -/
theorem invalidStopsTheRun : Obligations.InvalidStopsTheRun :=
  fun s c => ⟨(codeClassesAreTheirConditions ..).2.2.2.2, fun h hb hc _ =>
    ⟨(s.recordInvalid c).stopLzw .invalidCode, rfl, rfl, h.toNat_advance_bitpos hb hc⟩⟩

end Sys2Proof.Machine
end

section
/-! PROOFS. The codes that emit: `emit` (41_lzw_decode.md R189), `add_entry` (R190 to R192), and DICT and KWKWK, which make the same
use of both (R186, R187, R193). -/

namespace Sys2Proof.Machine
open Claims

/-! ## emit -/

/-- A state that has what `emit` leaves in OUT_COUNT and memory has emitted. -/
theorem emitted_of_emit {s t : State} {q : List Byte} (ho : t.lzw.outCount = (s.emit q).lzw.outCount)
    (hm : t.mem = (s.emit q).mem) (hp : t.powerOns = s.powerOns) : Emitted s t q := by
  have hbyte (x : Nat) : t.byteAt x = (s.emit q).byteAt x := State.byteAt_congr hm (by simpa using hp) x
  refine ⟨by rw [ho, State.emit_outCount]; rfl, fun i hi => ?_, fun x hx => ?_⟩
  · rw [hbyte, State.emit_byteAt, if_pos ⟨Nat.le_add_right _ _, Nat.add_lt_add_left hi _⟩, Nat.add_sub_cancel_left]
  · rw [hbyte, State.emit_byteAt, if_neg (fun h => hx.elim h.1.not_gt h.2.not_ge)]

/-- Settles O40: with OUT_COUNT past EXPECT nothing would be emitted, so the hypothesis is not needed. -/
theorem emitIsCutAtTheExpectedCount : Obligations.EmitIsCutAtTheExpectedCount :=
  fun q s _ => ⟨emitted_of_emit rfl rfl (by simp), State.emit_frame q s⟩

/-! ## add_entry -/

/-- WIDTH after an entry is stored (R192). -/
theorem State.added_width {s : State} {p : Code} {x f : Byte} {l : Nat} (hw : s.lzw.width.toNat ≤ 12) :
    (s.added p x f l).lzw.width.toNat =
      if s.lzw.next.toNat + 1 ≥ 2 ^ s.lzw.width.toNat ∧ s.lzw.width.toNat < 12
        then s.lzw.width.toNat + 1 else s.lzw.width.toNat := by
  simp only [State.added]
  split_ifs
  · rw [BitVec.toNat_ofNat]
    omega
  · rfl

/-- Settles O41: with room `add_entry` leaves `State.added`; FIRST and LEN of `p` are its sequence's (R52). -/
theorem addedEntryDenotesItsSequence : Obligations.AddedEntryDenotesItsSequence := by
  intro s p x h hp
  refine ⟨fun hn => ?_, fun hn => (s.addEntry_eq p x).trans (if_neg (Nat.not_lt.2 hn.ge))⟩
  obtain ⟨q, hq, hf, hl, -, -, hlen⟩ := membersDenoteBoundedSequences s p h hp
  have hclear := h.next_range.1
  refine ⟨q, s.added p x (q.headD 0#8) q.length, _, hq, ?_, State.added_seq_new h.entries hn hclear hp hq,
    Memory.get?_set_same _ _ _, rfl, rfl, rfl, ?_, fun d hd => Memory.get?_set_other hd _ _,
    fun d hd => State.added_seq_old h.entries hn hd hclear, State.added_next hn, State.added_width h.width_range.2, rfl⟩
  · exact (s.addEntry_eq p x).trans (by rw [if_pos (show _ < 4096 from hn), hf, hl])
  · exact (BitVec.toNat_ofNat _ 12).trans (Nat.mod_eq_of_lt (by omega))

/-! ## DICT and KWKWK -/

theorem entryAdded_added {s : State} (h : s.LzwRun) (hv : s.lzw.prevv = true) (hn : s.lzw.next.toNat < 4096)
    (x f : Byte) (l : Nat) : EntryAdded s (s.added s.lzw.prev x f l) x := by
  have hp := h.prev_mem hv
  obtain ⟨q, hq, -⟩ := State.seq_of_member h.entries _ hp
  rw [EntryAdded, if_pos ⟨hv, hn⟩]
  exact ⟨State.added_next hn, State.added_width h.width_range.2,
    ⟨q, hq, State.added_seq_new h.entries hn h.next_range.1 hp hq⟩, fun d hd => Memory.get?_set_other hd _ _⟩

theorem entryAdded_of_not_room {s t : State} (h : ¬ (s.lzw.prevv = true ∧ s.lzw.next.toNat < 4096)) (x : Byte)
    (hn : t.lzw.next = s.lzw.next) (hw : t.lzw.width = s.lzw.width) (hd : t.dict = s.dict) : EntryAdded s t x := by
  exact (if_neg h).mpr ⟨hn, hw, hd⟩

@[simp] theorem State.setPrev_seq (c : Code) (s : State) (d : Code) : (s.setPrev c).seq d = s.seq d := rfl

/-- During a run, past a whole code, a sequence is taken as R186, R187 and R193 say. -/
theorem State.Inv.takeSequence_took {s : State} (h : s.Inv) (hb : s.status.lzwBusy = true) (hc : CodeLeft s) (c : Code)
    {q : List Byte} (hq : q ≠ []) : ∃ t, s.advance.takeSequence c q = .next t ∧ TookSequence s t c q := by
  have ha : s.advance.LzwRun := (h.advance hc).lzw_run hb
  have hpos := h.toNat_advance_bitpos hb hc
  have he : (s.advance.emit q).LzwRun := ha.emit q
  have hframe := State.emit_frame q s.advance
  have hseq (d : Code) : (s.advance.emit q).seq d = s.seq d := State.seq_congr (by simp) (by simp) (by simp) d
  obtain ⟨hv, hn, f, l, -, -, ht⟩ | ⟨hfull, ht⟩ := State.takeSequence_cases (c := c) hq ha.entries ha.prev_mem
  · refine ⟨_, ht, ?_, ?_, by simpa [State.added] using hpos,
      emitted_of_emit (s := s.advance) rfl rfl (by simp [State.added]), ?_, fun d hd => ?_⟩
    · rw [hframe]; rfl
    · rw [hframe]; rfl
    · have hadded := entryAdded_added he (by simpa using hv) (by simpa using hn) (q.headD 0#8) f l
      simpa [EntryAdded, hseq] using hadded
    · rw [State.setPrev_seq, ← hseq]
      exact State.added_seq_old he.entries (by simpa using hn) (by simpa using hd) (by simpa using ha.next_range.1)
  · refine ⟨_, ht, ?_, ?_, by simpa using hpos, emitted_of_emit (s := s.advance) rfl rfl (by simp),
      entryAdded_of_not_room hfull _ (by simp) (by simp) (by simp), fun d _ => hseq d⟩
    · rw [hframe]; rfl
    · rw [hframe]; rfl

theorem execDict_of_seq {s : State} {c : Code} {q : List Byte} (hq : s.seq c = some q) :
    execDict c s = s.advance.takeSequence c q := by
  simp only [execDict, hq]

theorem execKwkwk_of_seq {s : State} {p : List Byte} {f : Byte} (hp : s.seq s.lzw.prev = some p)
    (hf : s.firstOf s.lzw.prev = some f) (c : Code) : execKwkwk c s = s.advance.takeSequence c (p ++ [f]) := by
  simp only [execKwkwk, hp, hf]

theorem headD_append {p : List Byte} (h : p ≠ []) (q : List Byte) : (p ++ q).headD 0#8 = p.headD 0#8 := by
  obtain ⟨x, xs, rfl⟩ := List.exists_cons_of_ne_nil h
  rfl

/-- Settles O37: a member denotes a sequence (R52), and DICT takes it. -/
theorem dictEmitsItsSequence : Obligations.DictEmitsItsSequence := by
  refine fun s c => ⟨(codeClassesAreTheirConditions ..).2.2.1, fun h hb hc hk => ?_⟩
  obtain ⟨q, hq, -, -, hpos, -⟩ := State.seq_of_member (h.lzw_run hb).entries c (inDict_of_classify_dict hk)
  have hne : q ≠ [] := List.ne_nil_of_length_pos hpos
  obtain ⟨t, ht, htook⟩ := h.takeSequence_took hb hc c hne
  exact ⟨q, t, hq, hne, (execDict_of_seq hq).trans ht, htook⟩

/-- Settles O38: the entry KWKWK adds is at its own code, for a 12-bit code at NEXT leaves room (R187, R190). -/
theorem kwkwkRepeatsThePreviousSequence : Obligations.KwkwkRepeatsThePreviousSequence := by
  refine fun s c => ⟨(codeClassesAreTheirConditions ..).2.2.2.1, fun h hb hc hk => ?_⟩
  obtain ⟨hcn, hv⟩ := eq_next_of_classify_kwkwk hk
  have hr := h.lzw_run hb
  obtain ⟨p, hp, hf, -, hpos, -⟩ := State.seq_of_member hr.entries s.lzw.prev (hr.prev_mem hv)
  have hne : p ≠ [] := List.ne_nil_of_length_pos hpos
  obtain ⟨t, ht, htook⟩ := h.takeSequence_took hb hc c (q := p ++ [p.headD 0#8]) (by simp)
  obtain ⟨-, -, -, -, hadded, -⟩ := id htook
  have hroom : s.lzw.prevv = true ∧ s.lzw.next.toNat < dictCodes := ⟨hv, hcn ▸ c.isLt⟩
  obtain ⟨hnext, -, ⟨p', hp', hnew⟩, -⟩ := (if_pos hroom).mp hadded
  obtain rfl : p = p' := Option.some.inj (hp.symm.trans hp')
  refine ⟨p, t, hp, hne, (execKwkwk_of_seq hp hf c).trans ht, htook, ?_, hnext⟩
  rwa [← hcn, BitVec.ofNat_toNat, BitVec.setWidth_eq, headD_append hne] at hnew

end Sys2Proof.Machine
end

section
/-! PROOFS. An LZW step reads at most one code, and so an LZW run stops (41_lzw_decode.md R180, R183, R194). -/

namespace Sys2Proof.Machine
open Claims

/-! ## One code -/

theorem State.takeSequence_status {s t : State} {c : Code} {q : List Byte} (h : s.takeSequence c q = .next t) :
    t.status = s.status := by
  obtain rfl | ⟨p, x, f, l, rfl⟩ := State.takeSequence_next h <;> simp [State.added]

/-- What no code changes. -/
theorem runCode_frame {c : Code} {s t : State} (h : runCode c s = .next t) :
    t = { s with status := t.status, lzw := t.lzw, dict := t.dict, mem := t.mem } := by
  obtain rfl | rfl | ⟨q, -, hq⟩ | rfl := runCode_next h
  · rfl
  · rfl
  · obtain rfl | ⟨p, x, f, l, rfl⟩ := State.takeSequence_next hq <;> rw [State.emit_frame q s.advance] <;> rfl
  · rfl

/-- Of the codes END and INVALID stop the run (R184 to R188). -/
theorem runCode_stops_iff {c : Code} {s t : State} (hb : s.status.lzwBusy = true) (h : runCode c s = .next t) :
    t.status.lzwBusy = false ↔ s.classOf c = .endCode ∨ s.classOf c = .invalid := by
  rw [runCode_eq_exec] at h
  cases hk : s.classOf c <;> rw [hk] at h
  case clear => cases h; simp [hb]
  case endCode => cases h; simp
  case dict =>
    obtain ⟨q, -, hq⟩ := execDict_next h
    simp [State.takeSequence_status hq, hb]
  case kwkwk =>
    obtain ⟨q, f, -, -, hq⟩ := execKwkwk_next h
    simp [State.takeSequence_status hq, hb]
  case invalid => cases h; simp

/-- WIDTH is at least 3 during a run, for MCS is at least 2 (R141, R171). -/
theorem State.LzwRun.three_le_width {s : State} (h : s.LzwRun) : 3 ≤ s.lzw.width.toNat :=
  (Nat.succ_le_succ h.mcs_range.1).trans h.width_range.1

/-- Every code moves LZW_BITPOS past itself (R183). -/
theorem State.Inv.runCode_bitpos {s t : State} (h : s.Inv) (hb : s.status.lzwBusy = true) (hc : CodeLeft s) {c : Code}
    (ht : Machine.runCode c s = .next t) : t.lzw.bitpos.toNat = s.lzw.bitpos.toNat + s.lzw.width.toNat := by
  rw [(runCode_passedCode ht).bitpos_eq, h.toNat_advance_bitpos hb hc]

/-- Settles O44: the step runs the code it fetches. -/
theorem lzwStepReadsOneCode : Obligations.LzwStepReadsOneCode := by
  intro s h hb ho hc
  have hr := h.lzw_run hb
  obtain ⟨t, ht⟩ := hr.runCode_completes s.fetchCode
  have hem := runCode_onlyEmits ht
  exact ⟨t, (execLzwStep_code hb ho hc).trans ((runCode_eq_exec _ s).symm.trans ht), h.runCode_bitpos hb hc ht,
    hr.three_le_width, runCode_stops_iff hb ht, runCode_frame ht, hem.mcs_eq, hem.inLen_eq, hem.expect_eq⟩

/-! ## A run -/

/-- A step of a run stops it with a reason (R251), or moves LZW_BITPOS on by a code (R183, R194). -/
theorem State.Inv.lzwStep_stops_or_reads {s t : State} (h : s.Inv) (hb : s.status.lzwBusy = true)
    (ht : Machine.execLzwStep s = .next t) :
    (∃ (r : LzwStop) (u : State), r ≠ .none ∧ u.status = s.status ∧ t = u.stopLzw r) ∨
    (t.status.lzwBusy = true ∧ t.lzw.bitpos.toNat = s.lzw.bitpos.toNat + s.lzw.width.toNat) := by
  obtain ⟨hi, -⟩ | ⟨-, -, he⟩ | ⟨-, -, -, he⟩ | ⟨-, -, hc, he⟩ := execLzwStep_cases s
  · exact absurd (hi.symm.trans hb) Bool.false_ne_true
  · cases he.symm.trans ht; exact .inl ⟨.countReached, s, by decide, rfl, rfl⟩
  · cases he.symm.trans ht; exact .inl ⟨.exhausted, s, by decide, rfl, rfl⟩
  · have hrun : Machine.runCode s.fetchCode s = .next t := he.symm.trans ht
    have hpos := h.runCode_bitpos hb hc hrun
    obtain rfl | rfl | ⟨q, -, hq⟩ | rfl := runCode_next hrun
    · exact .inr ⟨hb, hpos⟩
    · exact .inl ⟨.endCode, s.advance, by decide, rfl, rfl⟩
    · exact .inr ⟨by rw [State.takeSequence_status hq]; exact hb, hpos⟩
    · exact .inl ⟨.invalidCode, s.recordInvalid s.fetchCode, by decide, rfl, rfl⟩

/-- Once the LZW engine stops no engine is busy (R28). -/
theorem State.Inv.not_busy_of_stop {s u : State} (h : s.Inv) (hb : s.status.lzwBusy = true) (hu : u.status = s.status)
    (r : LzwStop) : (u.stopLzw r).busy = false :=
  State.busy_eq_false.2 ⟨rfl, (congrArg Status.dsBusy hu).trans (h.dsBusy_eq_false hb)⟩

/-- With no turn left an idle block stays as it is (R281). -/
theorem run_of_idle {s : State} (hts : s.turns = []) (hb : s.busy = false) (k : Nat) :
    Host.Core.run Sys2Proof.core k s = .next s := by
  induction k with
  | zero => rfl
  | succ k ih => exact (run_succ Sys2Proof.core (step_of_no_turn_not_busy hts hb)).trans ih

/-- A run left to itself has stopped once it has taken a third as many steps as bits were left, and one more (R194). -/
theorem State.Inv.lzwRun_stops {s : State} (h : s.Inv) (hb : s.status.lzwBusy = true) (hts : s.turns = []) {n : Nat}
    (hn : 8 * s.lzw.inLen.toNat < s.lzw.bitpos.toNat + 3 * n) :
    ∃ t, Host.Core.run Sys2Proof.core n s = .next t ∧ t.status.lzwBusy = false ∧ t.status.lzwDone = true ∧
      t.status.lzwStop ≠ .none := by
  induction n generalizing s with
  | zero =>
    have hle := (h.lzw_run hb).bitpos_le
    omega
  | succ n ih =>
    obtain ⟨u, hu, huts⟩ := h.execLzwStep_completes
    have hstep : step s = .next u := (step_of_no_turn_lzwBusy hts hb).trans hu
    rw [run_succ Sys2Proof.core hstep]
    obtain ⟨r, v, hr, hv, rfl⟩ | ⟨hbu, hpos⟩ := h.lzwStep_stops_or_reads hb hu
    · exact ⟨_, run_of_idle (huts.trans hts) (h.not_busy_of_stop hb hv r) n, rfl, rfl, hr⟩
    · have hw := (h.lzw_run hb).three_le_width
      refine ih (h.execLzwStep hu) hbu (huts.trans hts) ?_
      rw [(execLzwStep_onlyEmits hu).inLen_eq]
      omega

/-- Settles O45: each step that does not stop the run reads at least 3 of the stream's bits. -/
theorem lzwRunTerminates : Obligations.LzwRunTerminates := by
  intro s h hb
  have hr := h.lzw_run hb
  obtain ⟨u, hu, -⟩ := h.execLzwStep_completes
  refine ⟨hr.bitpos_le, ⟨u, hu, ?_⟩, fun hts => ?_⟩
  · obtain ⟨r, v, -, -, rfl⟩ | ⟨-, hpos⟩ := h.lzwStep_stops_or_reads hb hu
    · exact .inl rfl
    · exact .inr ⟨hpos, hr.three_le_width⟩
  · obtain ⟨t, ht⟩ := h.lzwRun_stops hb hts (n := 8 * s.lzw.inLen.toNat / 3 + 1) (by omega)
    exact ⟨_, t, le_rfl, ht⟩

end Sys2Proof.Machine
end

section
/-! PROOFS. The document's decoder, one code at a time (41_lzw_decode.md section 4.3): what a code that has been read does, by what
the table holds. -/

namespace Sys2Proof.Claims

/-! ## The table -/

theorem Doc.lookup_of_lt {mcs c : Nat} (h : c < 2 ^ mcs) (T : List (List Byte)) :
    Doc.lookup mcs T c = some [BitVec.ofNat 8 c] :=
  if_pos h

/-- From CLEAR + 2 up a code's sequence stands in the table. -/
theorem Doc.lookup_added (mcs k : Nat) (T : List (List Byte)) : Doc.lookup mcs T (2 ^ mcs + 2 + k) = T[k]? := by
  rw [Doc.lookup, if_neg (by omega), if_neg (by omega), Nat.add_sub_cancel_left]

theorem Doc.lookup_reserved {mcs c : Nat} {T : List (List Byte)} (h : c = 2 ^ mcs ∨ c = 2 ^ mcs + 1) :
    Doc.lookup mcs T c = none := by
  rw [Doc.lookup, if_neg (by omega), if_pos (by omega)]

theorem Doc.lookup_of_le {mcs c : Nat} {T : List (List Byte)} (h : 2 ^ mcs + 2 + T.length ≤ c) :
    Doc.lookup mcs T c = none := by
  obtain ⟨k, rfl⟩ := Nat.exists_eq_add_of_le (Nat.le_of_add_right_le h)
  rw [Doc.lookup_added, List.getElem?_eq_none (by omega)]

theorem Doc.lookup_append_of_ne {mcs c : Nat} {T : List (List Byte)} (h : c ≠ 2 ^ mcs + 2 + T.length) (e : List Byte) :
    Doc.lookup mcs (T ++ [e]) c = Doc.lookup mcs T c := by
  by_cases hc : c < 2 ^ mcs + 2
  · simp only [Doc.lookup, hc, if_true]
  · obtain ⟨k, rfl⟩ := Nat.exists_eq_add_of_le (Nat.not_lt.1 hc)
    rw [Doc.lookup_added, Doc.lookup_added, List.getElem?_append]
    split_ifs with hk
    · rfl
    · rw [List.getElem?_eq_none (by simp; omega), List.getElem?_eq_none (by omega)]

theorem Doc.lookup_append_length (mcs : Nat) (T : List (List Byte)) (e : List Byte) :
    Doc.lookup mcs (T ++ [e]) (2 ^ mcs + 2 + T.length) = some e := by
  rw [Doc.lookup_added, List.getElem?_concat_length]

theorem Doc.tableWith_of_none {d : Doc} (h : d.prev = none) (q : List Byte) : d.tableWith q = d.table := by
  rw [Doc.tableWith, h]

theorem Doc.tableWith_of_some {d : Doc} {p : List Byte} (h : d.prev = some p) (q : List Byte) :
    d.tableWith q = d.table ++ [p ++ [q.headD 0#8]] := by
  rw [Doc.tableWith, h]

theorem Doc.length_le_tableWith (d : Doc) (q : List Byte) : d.table.length ≤ (d.tableWith q).length := by
  match hp : d.prev with
  | none => rw [Doc.tableWith_of_none hp]
  | some p => simp [Doc.tableWith_of_some hp]

/-- A registered sequence changes what no other code denotes. -/
theorem Doc.lookup_tableWith_of_ne {mcs c : Nat} {d : Doc} (h : c ≠ 2 ^ mcs + 2 + d.table.length) (q : List Byte) :
    Doc.lookup mcs (d.tableWith q) c = Doc.lookup mcs d.table c := by
  match hp : d.prev with
  | none => rw [Doc.tableWith_of_none hp]
  | some p => rw [Doc.tableWith_of_some hp, Doc.lookup_append_of_ne h]

/-! ## Steps -/

/-- The decoder with the code at its position read (R183). -/
def Doc.passed (d : Doc) : Doc := { d with pos := d.pos + d.width }

theorem Doc.passed_take_width (d : Doc) (mcs : Nat) (q : List Byte) :
    (d.passed.take mcs q).width =
      if d.prev.isSome = true ∧ 2 ^ mcs + 2 + (d.tableWith q).length ≥ 2 ^ d.width ∧ d.width < 12
        then d.width + 1 else d.width := rfl

/-- The decoder with CLEAR read: as at its start, but for the output and the position (R184). -/
def Doc.cleared (mcs : Nat) (d : Doc) : Doc := { Doc.start mcs with out := d.out, pos := d.pos + d.width }

/-- The decoder goes on, and the next code is `c`. -/
structure Doc.Reads (expect : Nat) (bytes : List Byte) (d : Doc) (c : Nat) : Prop where
  count : d.out.length < expect
  left : d.pos + d.width ≤ 8 * bytes.length
  code : windowCode (fun k => bytes.getD k 0#8) d.pos d.width = c

theorem Doc.step_countReached {mcs expect : Nat} {bytes : List Byte} {d : Doc} (h : expect ≤ d.out.length) :
    Doc.step mcs expect bytes d = .error .countReached :=
  if_pos h

theorem Doc.step_exhausted {mcs expect : Nat} {bytes : List Byte} {d : Doc} (h : d.out.length < expect)
    (hx : 8 * bytes.length < d.pos + d.width) : Doc.step mcs expect bytes d = .error .exhausted := by
  rw [Doc.step, if_neg (Nat.not_le.2 h), if_pos hx]

section
variable {mcs expect c : Nat} {bytes : List Byte} {d : Doc}

/-- A code that is read goes by its value and the table. -/
theorem Doc.step_of_reads (h : d.Reads expect bytes c) : Doc.step mcs expect bytes d =
    if c = 2 ^ mcs then .ok (d.cleared mcs)
    else if c = 2 ^ mcs + 1 then .error .endCode
    else
      match Doc.lookup mcs d.table c, d.prev with
      | some q, _ => .ok (d.passed.take mcs q)
      | none, some p =>
        if c = 2 ^ mcs + 2 + d.table.length then .ok (d.passed.take mcs (p ++ [p.headD 0#8]))
        else .error .invalidCode
      | none, none => .error .invalidCode := by
  obtain ⟨hcount, hleft, rfl⟩ := h
  rw [Doc.step, if_neg (Nat.not_le.2 hcount), if_neg (Nat.not_lt.2 hleft)]
  rfl

theorem Doc.step_clear (h : d.Reads expect bytes (2 ^ mcs)) :
    Doc.step mcs expect bytes d = .ok (d.cleared mcs) := by
  rw [Doc.step_of_reads h, if_pos rfl]

theorem Doc.step_endCode (h : d.Reads expect bytes (2 ^ mcs + 1)) : Doc.step mcs expect bytes d = .error .endCode := by
  rw [Doc.step_of_reads h, if_neg (Nat.succ_ne_self _), if_pos rfl]

/-- A code that is in the table emits its sequence. -/
theorem Doc.step_lookup (h : d.Reads expect bytes c) {q : List Byte} (hq : Doc.lookup mcs d.table c = some q) :
    Doc.step mcs expect bytes d = .ok (d.passed.take mcs q) := by
  have hne : ¬ (c = 2 ^ mcs ∨ c = 2 ^ mcs + 1) := fun hc => by simp [Doc.lookup_reserved hc] at hq
  rw [Doc.step_of_reads h, if_neg (fun hc => hne (.inl hc)), if_neg (fun hc => hne (.inr hc)), hq]

/-- The code about to be registered emits the previous sequence with its first index added. -/
theorem Doc.step_next (h : d.Reads expect bytes (2 ^ mcs + 2 + d.table.length)) {p : List Byte} (hp : d.prev = some p) :
    Doc.step mcs expect bytes d = .ok (d.passed.take mcs (p ++ [p.headD 0#8])) := by
  rw [Doc.step_of_reads h, if_neg (by omega), if_neg (by omega), Doc.lookup_of_le le_rfl, hp]
  exact if_pos rfl

/-- Any other code stops the decoder. -/
theorem Doc.step_invalid (h : d.Reads expect bytes c) (hc : 2 ^ mcs + 2 + d.table.length ≤ c)
    (hp : d.prev = none ∨ c ≠ 2 ^ mcs + 2 + d.table.length) : Doc.step mcs expect bytes d = .error .invalidCode := by
  rw [Doc.step_of_reads h, if_neg (by omega), if_neg (by omega), Doc.lookup_of_le hc]
  match hv : d.prev with
  | none => rfl
  | some p => exact if_neg (hp.resolve_left (by simp [hv]))

end

theorem Doc.run_of_error {mcs expect : Nat} {bytes : List Byte} {d : Doc} {r : Machine.LzwStop}
    (h : Doc.step mcs expect bytes d = .error r) (n : Nat) :
    Doc.run mcs expect bytes (n + 1) d = some (r, d.out) := by
  rw [Doc.run, h]

theorem Doc.run_of_ok {mcs expect : Nat} {bytes : List Byte} {d e : Doc}
    (h : Doc.step mcs expect bytes d = .ok e) (n : Nat) :
    Doc.run mcs expect bytes (n + 1) d = Doc.run mcs expect bytes n e := by
  rw [Doc.run, h]

end Sys2Proof.Claims
end

section
/-! PROOFS. An LZW run against the document's decoder on the same bytes (41_lzw_decode.md section 4.3, R180 to R194,
90_conflicts.md C3): a relation between their states that every code keeps, and what a whole run gives. -/

namespace Sys2Proof.Machine
open Claims

/-! ## The output -/

/-- The block has put out `out`, cut at EXPECT (R189). -/
structure State.Shows (s : State) (out : List Byte) : Prop where
  outCount_eq : s.lzw.outCount.toNat = min out.length s.lzw.expect.toNat
  pix_eq : ∀ i < s.lzw.outCount.toNat, s.bufByte .pix i = out.getD i 0#8

theorem State.Shows.congr {s t : State} {out : List Byte} (h : s.Shows out)
    (ho : t.lzw.outCount = s.lzw.outCount := by rfl) (he : t.lzw.expect = s.lzw.expect := by rfl)
    (hm : t.mem = s.mem := by rfl) (hp : t.powerOns = s.powerOns := by rfl) : t.Shows out := by
  refine ⟨by rw [ho, he, h.outCount_eq], fun i hi => ?_⟩
  rw [ho] at hi
  exact (State.byteAt_congr hm hp _).trans (h.pix_eq i hi)

/-- Full output is the same for both: OUT_COUNT stays at EXPECT (R181). -/
theorem State.Shows.expect_le_iff {s : State} {out : List Byte} (h : s.Shows out) :
    s.lzw.expect.toNat ≤ s.lzw.outCount.toNat ↔ s.lzw.expect.toNat ≤ out.length := by
  rw [h.outCount_eq]
  omega

theorem State.Shows.emitted {s t : State} {out q : List Byte} (h : s.Shows out) (ht : Emitted s t q)
    (hx : t.lzw.expect = s.lzw.expect) : t.Shows (out ++ q) := by
  obtain ⟨hcount, hnew, hold⟩ := ht
  have ho := h.outCount_eq
  refine ⟨by rw [hcount, hx, ho, List.length_append]; omega, fun i hi => ?_⟩
  obtain hlt | hge := Nat.lt_or_ge i s.lzw.outCount.toNat
  · rw [List.getD_append _ _ _ _ (by omega), ← h.pix_eq i hlt]
    exact hold _ (.inl (Nat.add_lt_add_left hlt _))
  · obtain ⟨k, rfl⟩ := Nat.exists_eq_add_of_le hge
    have hlen : out.length = s.lzw.outCount.toNat := by omega
    rw [List.getD_append_right _ _ _ _ (by omega), hlen, Nat.add_sub_cancel_left, ← hnew k (by omega), State.bufByte,
      Nat.add_assoc]

/-! ## The relation -/

/-- The block's run stands where the document's decoder stands. Its dictionary is the table up to the 4096 codes there are. -/
structure State.Matches (s : State) (d : Doc) : Prop extends s.Shows d.out where
  width_eq : d.width = s.lzw.width.toNat
  pos_eq : d.pos = s.lzw.bitpos.toNat
  next_eq : s.lzw.next.toNat = min 4096 (2 ^ s.lzw.mcs.toNat + 2 + d.table.length)
  seq_eq : ∀ c : Code, inDict s.lzw.mcs s.lzw.next.toNat c.toNat →
    s.seq c = Doc.lookup s.lzw.mcs.toNat d.table c.toNat
  prev_eq : d.prev = if s.lzw.prevv = true then s.seq s.lzw.prev else none

/-- A seeded dictionary is the empty table (R171). -/
theorem State.matches_of_seeded {s : State} {d : Doc} (hm : s.lzw.mcs.toNat ≤ 8) (hshows : s.Shows d.out)
    (hwidth : s.lzw.width.toNat = s.lzw.mcs.toNat + 1) (hnext : s.lzw.next.toNat = 2 ^ s.lzw.mcs.toNat + 2)
    (hprev : s.lzw.prevv = false) (hpos : s.lzw.bitpos.toNat = d.pos)
    (hd : d = { Doc.start s.lzw.mcs.toNat with out := d.out, pos := d.pos }) : s.Matches d := by
  have hpow : 2 ^ s.lzw.mcs.toNat ≤ 2 ^ 8 := Nat.pow_le_pow_right (by decide) hm
  rw [hd]
  refine ⟨hshows, hwidth.symm, hpos.symm, ?_, fun c hc => ?_, by simp [hprev, Doc.start]⟩
  · rw [hnext]
    exact (Nat.min_eq_right (show 2 ^ s.lzw.mcs.toNat + 2 ≤ 4096 by omega)).symm
  · have hlit : c.toNat < 2 ^ s.lzw.mcs.toNat := hc.resolve_right (by simp only [clearCode]; omega)
    rw [Doc.lookup_of_lt hlit]
    exact if_pos hlit

section
variable {s : State} {d : Doc} (h : s.Matches d)
include h

/-- Where there is room NEXT is the decoder's next code. -/
theorem State.Matches.next_of_room (hn : s.lzw.next.toNat < 4096) :
    s.lzw.next.toNat = 2 ^ s.lzw.mcs.toNat + 2 + d.table.length := by
  have := h.next_eq
  omega

theorem State.Matches.next_le : s.lzw.next.toNat ≤ 2 ^ s.lzw.mcs.toNat + 2 + d.table.length := by
  have := h.next_eq
  omega

theorem State.Matches.prev_none (hv : s.lzw.prevv = false) : d.prev = none := by
  rw [h.prev_eq, hv]
  rfl

theorem State.Matches.prev_some (hv : s.lzw.prevv = true) : d.prev = s.seq s.lzw.prev := by
  rw [h.prev_eq, if_pos hv]

/-- Where no entry is added there is no previous sequence, or the dictionary is full and WIDTH is the last one (R191, R192). -/
theorem State.Matches.first_or_full (hr : s.LzwRun) (hroom : ¬ (s.lzw.prevv = true ∧ s.lzw.next.toNat < dictCodes)) :
    d.prev = none ∨ s.lzw.next.toNat = 4096 ∧ s.lzw.width.toNat = 12 := by
  cases hv : s.lzw.prevv with
  | false => exact .inl (h.prev_none hv)
  | true =>
    have hfull : s.lzw.next.toNat = 4096 := hr.next_range.2.antisymm (Nat.not_lt.1 fun hn => hroom ⟨hv, hn⟩)
    refine .inr ⟨hfull, hr.next_cap.elim (fun hlt => ?_) And.right⟩
    have hle : cap s.lzw.width.toNat ≤ 2 ^ 12 := Nat.pow_le_pow_right (by decide) hr.width_range.2
    omega

/-- A member keeps its sequence in both (R190). -/
theorem State.Matches.seq_eq_tableWith {c : Code} (hc : inDict s.lzw.mcs s.lzw.next.toNat c.toNat) (q : List Byte) :
    s.seq c = Doc.lookup s.lzw.mcs.toNat (d.tableWith q) c.toNat := by
  have hle := h.next_le
  have hne : c.toNat ≠ 2 ^ s.lzw.mcs.toNat + 2 + d.table.length := by
    simp only [inDict, clearCode] at hc
    omega
  rw [Doc.lookup_tableWith_of_ne hne, h.seq_eq c hc]

/-- Where there is room both register the same sequence. -/
theorem State.Matches.tableWith_of_room (hv : s.lzw.prevv = true) {p : List Byte} (hp : s.seq s.lzw.prev = some p)
    (q : List Byte) : d.tableWith q = d.table ++ [p ++ [q.headD 0#8]] :=
  Doc.tableWith_of_some ((h.prev_some hv).trans hp) q

/-- Both widths grow alike (R192). -/
theorem State.Matches.take_width {t : State} {q : List Byte} {x : Byte} (hr : s.LzwRun) (ht : EntryAdded s t x) :
    (d.passed.take s.lzw.mcs.toNat q).width = t.lzw.width.toNat := by
  rw [Doc.passed_take_width]
  by_cases hroom : s.lzw.prevv = true ∧ s.lzw.next.toNat < dictCodes
  · obtain ⟨-, hwidth, ⟨p, hp, -⟩, -⟩ := (if_pos hroom).mp ht
    rw [hwidth, h.next_of_room hroom.2, h.tableWith_of_room hroom.1 hp, h.prev_some hroom.1, hp, h.width_eq]
    simp [Nat.add_assoc]
  · obtain ⟨-, hwidth, -⟩ := (if_neg hroom).mp ht
    rw [hwidth, ← h.width_eq]
    refine if_neg fun hg => ?_
    obtain hnone | ⟨-, hw⟩ := h.first_or_full hr hroom
    · simp [hnone] at hg
    · have := h.width_eq
      omega

/-- Both tables grow alike, and the block's ends at 4096 codes (R190, R191). -/
theorem State.Matches.take_next {t : State} {q : List Byte} {x : Byte} (hr : s.LzwRun) (ht : EntryAdded s t x) :
    t.lzw.next.toNat = min 4096 (2 ^ s.lzw.mcs.toNat + 2 + (d.tableWith q).length) := by
  by_cases hroom : s.lzw.prevv = true ∧ s.lzw.next.toNat < dictCodes
  · obtain ⟨hnext, -, ⟨p, hp, -⟩, -⟩ := (if_pos hroom).mp ht
    have hn : s.lzw.next.toNat < 4096 := hroom.2
    rw [hnext, h.tableWith_of_room hroom.1 hp, List.length_append, List.length_singleton, ← Nat.add_assoc,
      ← h.next_of_room hn]
    omega
  · obtain ⟨hnext, -⟩ := (if_neg hroom).mp ht
    rw [hnext, h.next_eq]
    obtain hnone | ⟨hfull, -⟩ := h.first_or_full hr hroom
    · rw [Doc.tableWith_of_none hnone]
    · have hle : d.table.length ≤ (d.tableWith q).length := Doc.length_le_tableWith d q
      have := h.next_eq
      omega

/-- Every member denotes the same in both, the code just added among them. -/
theorem State.Matches.take_seq {t : State} {q : List Byte} (ht : EntryAdded s t (q.headD 0#8))
    (hold : ∀ c : Code, inDict s.lzw.mcs s.lzw.next.toNat c.toNat → t.seq c = s.seq c) (c : Code)
    (hc : inDict s.lzw.mcs t.lzw.next.toNat c.toNat) :
    t.seq c = Doc.lookup s.lzw.mcs.toNat (d.tableWith q) c.toNat := by
  by_cases hmem : inDict s.lzw.mcs s.lzw.next.toNat c.toNat
  · rw [hold c hmem, h.seq_eq_tableWith hmem q]
  by_cases hroom : s.lzw.prevv = true ∧ s.lzw.next.toNat < dictCodes
  · obtain ⟨hnext, -, ⟨p, hp, hnew⟩, -⟩ := (if_pos hroom).mp ht
    have hcn : c.toNat = s.lzw.next.toNat := by
      simp only [inDict] at hc hmem
      omega
    rw [← hcn, BitVec.ofNat_toNat, BitVec.setWidth_eq] at hnew
    rw [hnew, hcn, h.next_of_room hroom.2, h.tableWith_of_room hroom.1 hp, Doc.lookup_append_length]
  · obtain ⟨hnext, -⟩ := (if_neg hroom).mp ht
    exact absurd (hnext ▸ hc) hmem

/-- A sequence taken by both keeps the relation. -/
theorem State.Matches.take {t : State} {c : Code} {q : List Byte} (hr : s.LzwRun) (ht : TookSequence s t c q)
    (hq : t.seq c = some q) : t.Matches (d.passed.take s.lzw.mcs.toNat q) := by
  obtain ⟨-, hlzw, hpos, hem, hadd, hold⟩ := ht
  have hmcs : t.lzw.mcs = s.lzw.mcs := by rw [hlzw]
  have hexpect : t.lzw.expect = s.lzw.expect := by rw [hlzw]
  have hprev : t.lzw.prev = c ∧ t.lzw.prevv = true := by rw [hlzw]; exact ⟨rfl, rfl⟩
  refine ⟨h.toShows.emitted hem hexpect, h.take_width hr hadd, ?_, ?_, fun c' hc' => ?_, ?_⟩
  · rw [hpos, ← h.pos_eq, ← h.width_eq]
    rfl
  · rw [hmcs]
    exact h.take_next hr hadd
  · rw [hmcs] at hc' ⊢
    exact h.take_seq hadd hold c' hc'
  · rw [hprev.1, if_pos hprev.2, hq]
    rfl

end

end Sys2Proof.Machine
end

section
/-! PROOFS. An LZW run gives what the document's decoder gives (41_lzw_decode.md section 4.3, R180 to R194): step by step, and then
as a whole. -/

namespace Sys2Proof.Machine
open Claims

/-! ## The stream -/

theorem State.LzwRun.toNat_fetchCode {s : State} (h : s.LzwRun) (hc : CodeLeft s) :
    s.fetchCode.toNat = windowCode (fun k => (inStream s).getD k 0#8) s.lzw.bitpos.toNat s.lzw.width.toNat := by
  have hw := h.width_range.2
  rw [← codeAt_eq_windowCode _ _ hw, codeAt_inStream hc]
  exact (BitVec.toNat_ofNat _ _).trans
    (Nat.mod_eq_of_lt ((codeAt_lt ..).trans_le (Nat.pow_le_pow_right (by decide) hw)))

/-- What an LZW step writes lies above the stream (R71). -/
theorem State.OnlyEmits.inStream_eq {s t : State} (h : s.OnlyEmits t) (hp : s.params.Legal)
    (hle : s.lzw.inLen.toNat ≤ s.params.inBytes) : inStream t = inStream s := by
  rw [inStream, inStream, h.inLen_eq]
  refine List.map_congr_left fun k hk => h.byteAt_eq _ (.inl (Nat.lt_add_right _ (inp_lt_pix_base hp ?_)))
  exact (List.mem_range.1 hk).trans_le hle

/-- The code the engine fetches is the one the decoder reads (R102). -/
theorem State.Matches.reads {s : State} {d : Doc} (h : s.Matches d) (hr : s.LzwRun)
    (ho : s.lzw.outCount.toNat < s.lzw.expect.toNat) (hc : CodeLeft s) :
    d.Reads s.lzw.expect.toNat (inStream s) s.fetchCode.toNat := by
  refine ⟨Nat.not_le.1 (h.expect_le_iff.not.1 (Nat.not_le.2 ho)), ?_, ?_⟩
  · rw [h.pos_eq, h.width_eq, length_inStream]
    exact hc
  · rw [h.pos_eq, h.width_eq, hr.toNat_fetchCode hc]

/-! ## A step -/

/-- The decoder stops, and the block with it, or both go on. -/
def StepsAlike (s t : State) (d : Doc) : Except LzwStop Doc → Prop
  | .error r => ∃ u : State, t = u.stopLzw r ∧ u.status = s.status ∧ u.Shows d.out
  | .ok e => t.status.lzwBusy = true ∧ t.Matches e

section
variable {s : State} {d : Doc} (h : s.Inv) (hb : s.status.lzwBusy = true) (hm : s.Matches d)
include h hb hm

/-- A sequence taken by the block is taken by the decoder. -/
theorem stepsAlike_of_took {t : State} {c : Code} {q : List Byte} (ht : TookSequence s t c q) (hq : t.seq c = some q) :
    StepsAlike s t d (.ok (d.passed.take s.lzw.mcs.toNat q)) :=
  ⟨by rw [ht.1]; exact hb, hm.take (h.lzw_run hb) ht hq⟩

/-- A code that both read does the same in both, by its class (R184 to R188). -/
theorem code_stepsAlike (ho : s.lzw.outCount.toNat < s.lzw.expect.toNat) (hc : CodeLeft s) :
    ∃ t, exec (codeRow (s.classOf s.fetchCode) s.fetchCode) s = .next t ∧
      StepsAlike s t d (Doc.step s.lzw.mcs.toNat s.lzw.expect.toNat (inStream s) d) := by
  have hr := h.lzw_run hb
  have hreads := hm.reads hr ho hc
  have hpos := h.toNat_advance_bitpos hb hc
  have hle := hm.next_le
  obtain ⟨hclear, hend, -, hkwkwk, hinvalid⟩ :=
    codeClassesAreTheirConditions s.lzw.mcs s.lzw.next.toNat s.lzw.prevv s.fetchCode.toNat
  cases hk : s.classOf s.fetchCode with
  | clear =>
    rw [hclear.1 hk] at hreads
    have hm8 : s.lzw.mcs.toNat ≤ 8 := hr.mcs_range.2
    rw [Doc.step_clear hreads]
    refine ⟨s.advance.initDict, rfl, hb, State.matches_of_seeded hm8 hm.toShows.congr
      (State.initDict_width (s := s.advance) hm8) (State.initDict_next (s := s.advance) hm8) rfl ?_ rfl⟩
    rw [Doc.cleared, hm.pos_eq, hm.width_eq]
    exact hpos
  | endCode =>
    rw [hend.1 hk] at hreads
    rw [Doc.step_endCode hreads]
    exact ⟨_, rfl, s.advance, rfl, rfl, hm.toShows.congr⟩
  | dict =>
    obtain ⟨q, t, hq, -, ht, htook⟩ := (dictEmitsItsSequence s s.fetchCode).2 h hb hc hk
    have hmem := inDict_of_classify_dict hk
    obtain ⟨-, -, -, -, -, hold⟩ := id htook
    rw [Doc.step_lookup hreads ((hm.seq_eq _ hmem).symm.trans hq)]
    exact ⟨t, ht, stepsAlike_of_took h hb hm htook ((hold _ hmem).trans hq)⟩
  | kwkwk =>
    obtain ⟨p, t, hp, -, ht, htook, hq, -⟩ := (kwkwkRepeatsThePreviousSequence s s.fetchCode).2 h hb hc hk
    obtain ⟨-, hcn, hv⟩ := hkwkwk.1 hk
    rw [hcn, hm.next_of_room (hcn ▸ s.fetchCode.isLt)] at hreads
    rw [Doc.step_next hreads ((hm.prev_some hv).trans hp)]
    exact ⟨t, ht, stepsAlike_of_took h hb hm htook hq⟩
  | invalid =>
    obtain ⟨-, hbad⟩ := hinvalid.1 hk
    have hlt := s.fetchCode.isLt
    have hnext := hm.next_of_room (by omega)
    rw [Doc.step_invalid hreads (by omega) (hbad.symm.imp (fun hv => hm.prev_none hv.2) (by omega))]
    exact ⟨_, rfl, s.recordInvalid s.fetchCode, rfl, rfl, hm.toShows.congr⟩

/-- A step of the run is a step of the decoder, its tests in the same order (R181, R182, R257). -/
theorem execLzwStep_stepsAlike :
    ∃ t, execLzwStep s = .next t ∧
      StepsAlike s t d (Doc.step s.lzw.mcs.toNat s.lzw.expect.toNat (inStream s) d) := by
  obtain ho | ho := le_or_gt s.lzw.expect.toNat s.lzw.outCount.toNat
  · rw [Doc.step_countReached (hm.expect_le_iff.1 ho)]
    exact ⟨_, execLzwStep_countReached hb ho, s, rfl, rfl, hm.toShows⟩
  by_cases hc : CodeLeft s
  · rw [execLzwStep_code hb ho hc]
    exact code_stepsAlike h hb hm ho hc
  · rw [Doc.step_exhausted (Nat.not_le.1 (hm.expect_le_iff.not.1 (Nat.not_le.2 ho))) ?_]
    · exact ⟨_, execLzwStep_exhausted hb ho hc, s, rfl, rfl, hm.toShows⟩
    · rw [hm.pos_eq, hm.width_eq, length_inStream]
      exact Nat.not_le.1 hc

end

/-! ## A run -/

/-- A run left to itself stops when the decoder does, and has put out the same. -/
theorem State.Inv.run_matches {s : State} {d : Doc} (h : s.Inv) (hb : s.status.lzwBusy = true) (hts : s.turns = [])
    (hm : s.Matches d) {n : Nat} (hn : 8 * s.lzw.inLen.toNat < s.lzw.bitpos.toNat + 3 * n) :
    ∃ (t : State) (r : LzwStop) (out : List Byte), Host.Core.run Sys2Proof.core n s = .next t ∧
      Doc.run s.lzw.mcs.toNat s.lzw.expect.toNat (inStream s) n d = some (r, out) ∧
      t.status.lzwBusy = false ∧ t.status.lzwStop = r ∧ t.Shows out ∧ t.lzw.expect = s.lzw.expect := by
  induction n generalizing s d with
  | zero =>
    have hle := (h.lzw_run hb).bitpos_le
    omega
  | succ n ih =>
    have hr := h.lzw_run hb
    obtain ⟨t, ht, halike⟩ := execLzwStep_stepsAlike h hb hm
    obtain ⟨t', ht', htts⟩ := h.execLzwStep_completes
    cases ht'.symm.trans ht
    have hem := execLzwStep_onlyEmits ht
    rw [run_succ Sys2Proof.core ((step_of_no_turn_lzwBusy hts hb).trans ht)]
    match hd : Doc.step s.lzw.mcs.toNat s.lzw.expect.toNat (inStream s) d with
    | .error r =>
      rw [hd] at halike
      obtain ⟨u, rfl, hu, hshows⟩ := halike
      exact ⟨_, r, d.out, run_of_idle (htts.trans hts) (h.not_busy_of_stop hb hu r) n, Doc.run_of_error hd n, rfl, rfl,
        hshows.congr, hem.expect_eq⟩
    | .ok e =>
      rw [hd] at halike
      obtain ⟨hbt, hmt⟩ := halike
      obtain ⟨r, u, -, -, rfl⟩ | ⟨-, hpos⟩ := h.lzwStep_stops_or_reads hb ht
      · cases hbt
      have hw := hr.three_le_width
      obtain ⟨v, r, out, hv⟩ := ih (h.execLzwStep ht) hbt (htts.trans hts) hmt (by rw [hem.inLen_eq]; omega)
      rw [hem.mcs_eq, hem.expect_eq, hem.inStream_eq h.params_legal hr.inLen_le] at hv
      rw [Doc.run_of_ok hd]
      exact ⟨v, r, out, hv⟩

/-- An accepted start meets the decoder at its own start (R141, R171). -/
theorem State.lzwStarted_matches {s : State} (hm : s.lzw.mcs.toNat ≤ 8) :
    s.lzwStarted.Matches (Doc.start s.lzw.mcs.toNat) :=
  State.matches_of_seeded hm ⟨(Nat.zero_min _).symm, nofun⟩ (State.lzwStarted_width hm) (State.lzwStarted_next hm) rfl rfl
    rfl

/-- Settles O46: the relation holds at the start and is kept by every step. -/
theorem lzwRunRefinesDocument : Obligations.LzwRunRefinesDocument := by
  rintro s h ⟨hb, hts, hlo, hhi, hin, hex⟩
  have hstart := h.lzwStarted hb ⟨hlo, hhi⟩ hin hex
  obtain ⟨t, r, out, hrun, hdoc, hbusy, hstop, hshows, hexpect⟩ :=
    hstart.run_matches rfl hts (State.lzwStarted_matches hhi) (n := runBound s)
      (show 8 * s.lzw.inLen.toNat < 0 + 3 * (8 * s.lzw.inLen.toNat / 3 + 1) by omega)
  refine ⟨s.lzwStarted, t, r, out, execLzwStart_accepted hb ⟨hlo, hhi⟩ hin hex, hrun, hdoc, hbusy, hstop, ?_,
    hshows.pix_eq⟩
  rw [hshows.outCount_eq, hexpect]
  rfl

end Sys2Proof.Machine
end

section
/-! PROOFS. Decoding what an LZW encoder of the same conventions wrote gives its indices back (41_lzw_decode.md R196, R181). -/

namespace Sys2Proof.Machine

/-- A code anywhere in the bytes of a number is a digit of it (R101, R115). -/
theorem codeAt_leBytes_at {n P W : Nat} (h : P + W ≤ 8 * n) (v : Nat) :
    codeAt (fun k => (leBytes n v).getD k 0) P W = v / 2 ^ P % 2 ^ W := by
  refine Nat.eq_of_testBit_eq fun i => ?_
  rw [testBit_codeAt, Nat.testBit_mod_two_pow, Nat.testBit_div_two_pow]
  by_cases hi : i < W
  · rw [getD_leBytes (by omega), getLsbD_byteOf _ _ (Nat.mod_lt _ (by decide)), Nat.div_add_mod, Nat.add_comm]
  · simp [hi]

end Sys2Proof.Machine

namespace Sys2Proof.Claims
open Machine

/-! ## The encoder -/

/-- An encoder looks at the width, the table and the previous sequence only. -/
theorem encodes_congr {mcs : Nat} {d e : Doc} {x : List Byte} {cs : List (Nat × Nat)} (h : Encodes mcs d x cs)
    (hw : e.width = d.width) (ht : e.table = d.table) (hp : e.prev = d.prev) : Encodes mcs e x cs := by
  induction cs generalizing d e x with
  | nil => exact h
  | cons cw cs ih =>
    have htable (q : List Byte) : e.tableWith q = d.tableWith q := by rw [Doc.tableWith, Doc.tableWith, hp, ht]
    obtain ⟨hwidth, hfit, hcode⟩ := h
    refine ⟨hwidth.trans hw.symm, hfit, hcode.imp_right (Or.imp_right ?_)⟩
    rintro ⟨q, y, hx, hq, hlookup, hrest⟩
    refine ⟨q, y, hx, hq, htable q ▸ hlookup, ih hrest ?_ (htable q) rfl⟩
    simp only [Doc.take, htable, hw, hp]

/-- What every decoder state met from the start has (R42, R52). -/
structure Doc.Ok (d : Doc) : Prop where
  width_le : d.width ≤ maxWidth
  prev_ne_nil : ∀ p, d.prev = some p → p ≠ []

theorem Doc.ok_of_seeded {mcs : Nat} (hm : mcs ≤ 8) {d : Doc} (hw : d.width = mcs + 1) (hp : d.prev = none) : d.Ok :=
  ⟨hw.trans_le (show mcs + 1 ≤ 12 by omega), by simp [hp]⟩

theorem Doc.Ok.take {d : Doc} (h : d.Ok) (mcs : Nat) {q : List Byte} (hq : q ≠ []) : (d.passed.take mcs q).Ok := by
  refine ⟨?_, fun p hp => Option.some.inj hp ▸ hq⟩
  have hle : d.width ≤ 12 := h.width_le
  show _ ≤ 12
  rw [Doc.passed_take_width]
  split_ifs <;> omega

/-- A code whose sequence begins what is left is taken with that sequence, be it in the table or about to be registered. -/
theorem Doc.step_encoded {mcs expect c : Nat} {bytes : List Byte} {d : Doc} (h : d.Ok) (hr : d.Reads expect bytes c)
    {q : List Byte} (hq : Doc.lookup mcs (d.tableWith q) c = some q) :
    Doc.step mcs expect bytes d = .ok (d.passed.take mcs q) := by
  by_cases hc : c = 2 ^ mcs + 2 + d.table.length
  swap
  · exact Doc.step_lookup hr ((Doc.lookup_tableWith_of_ne hc q).symm.trans hq)
  subst hc
  match hp : d.prev with
  | none =>
    rw [Doc.tableWith_of_none hp, Doc.lookup_of_le le_rfl] at hq
    cases hq
  | some p =>
    rw [Doc.tableWith_of_some hp, Doc.lookup_append_length, Option.some.injEq] at hq
    have hhead : q.headD 0#8 = p.headD 0#8 := by rw [← hq, headD_append (h.prev_ne_nil p hp)]
    rw [Doc.step_next hr hp, ← hhead, hq]

/-! ## Reading what was packed -/

/-- The codes `cs` stand packed in the bytes from the decoder's position up (R101). -/
structure Doc.Packs (d : Doc) (n v : Nat) (cs : List (Nat × Nat)) : Prop where
  packed_eq : v / 2 ^ d.pos = packed cs
  fits : d.pos + (cs.map Prod.snd).sum ≤ 8 * n

section
variable {d : Doc} {n v c : Nat} {cs : List (Nat × Nat)} (h : d.Packs n v ((c, d.width) :: cs)) (hc : c < 2 ^ d.width)
include h hc

theorem Doc.Packs.reads (hd : d.Ok) {expect : Nat} (ho : d.out.length < expect) : d.Reads expect (leBytes n v) c := by
  obtain ⟨hpacked, hfits⟩ := h
  simp only [List.map_cons, List.sum_cons] at hfits
  refine ⟨ho, by rw [Laws.leBytes_length]; omega, ?_⟩
  rw [← codeAt_eq_windowCode _ _ hd.width_le]
  refine (codeAt_leBytes_at (by omega) v).trans ?_
  rw [hpacked, packed, Nat.add_mul_mod_self_left, Nat.mod_eq_of_lt hc]

/-- Past a code the later ones stand packed. -/
theorem Doc.Packs.tail {e : Doc} (he : e.pos = d.pos + d.width) : e.Packs n v cs := by
  obtain ⟨hpacked, hfits⟩ := h
  simp only [List.map_cons, List.sum_cons] at hfits
  refine ⟨?_, by omega⟩
  rw [he, pow_add, ← Nat.div_div_eq_div_mul, hpacked, packed, Nat.add_mul_div_left _ _ (Nat.two_pow_pos _),
    Nat.div_eq_of_lt hc, Nat.zero_add]

end

/-- The decoder on an encoder's codes, from any state the encoder shares with it: it puts out what is left, and stops at END unless the
count is reached first. -/
theorem Doc.run_encoded {mcs expect n v k : Nat} (hm : mcs ≤ 8) {d : Doc} {x out : List Byte} {cs : List (Nat × Nat)}
    {r : LzwStop} (hd : d.Ok) (henc : Encodes mcs d x cs) (hpack : d.Packs n v cs) (hlen : (d.out ++ x).length ≤ expect)
    (hrun : Doc.run mcs expect (leBytes n v) k d = some (r, out)) :
    out = d.out ++ x ∧ r = if (d.out ++ x).length < expect then .endCode else .countReached := by
  induction k generalizing d x cs with
  | zero => cases hrun
  | succ k ih =>
    obtain hcount | ho := le_or_gt expect d.out.length
    · rw [Doc.run_of_error (Doc.step_countReached hcount)] at hrun
      cases hrun
      obtain rfl : x = [] := List.length_eq_zero_iff.1 (by rw [List.length_append] at hlen; omega)
      rw [List.append_nil]
      exact ⟨rfl, (if_neg (Nat.not_lt.2 hcount)).symm⟩
    match cs, henc with
    | (c, _) :: cs, ⟨rfl, hfit, hcode⟩ =>
      have hreads := hpack.reads hfit hd ho
      obtain ⟨rfl, rfl, rfl⟩ | ⟨rfl, hrest⟩ | ⟨q, y, rfl, hq, hlookup, hrest⟩ := hcode
      · rw [Doc.run_of_error (Doc.step_endCode hreads)] at hrun
        cases hrun
        rw [List.append_nil]
        exact ⟨rfl, (if_pos ho).symm⟩
      · rw [Doc.run_of_ok (Doc.step_clear hreads)] at hrun
        exact ih (d := d.cleared mcs) (Doc.ok_of_seeded hm rfl rfl) (encodes_congr hrest rfl rfl rfl) (hpack.tail hfit rfl) hlen hrun
      · rw [Doc.run_of_ok (Doc.step_encoded hd hreads hlookup)] at hrun
        rw [← List.append_assoc] at hlen ⊢
        exact ih (hd.take mcs hq) (encodes_congr hrest rfl rfl rfl) (hpack.tail hfit rfl) hlen hrun

theorem Doc.packs_start (mcs : Nat) (cs : List (Nat × Nat)) : (Doc.start mcs).Packs (packedLen cs) (packed cs) cs := by
  refine ⟨by rw [Doc.start, pow_zero, Nat.div_one], ?_⟩
  show 0 + (cs.map Prod.snd).sum ≤ 8 * (((cs.map Prod.snd).sum + 7) / 8)
  omega

/-- Settles O47: the block gives what the decoder gives on the encoder's codes. -/
theorem decodingInvertsEncoding : Obligations.DecodingInvertsEncoding := by
  intro s x cs h hready _ henc hbytes hlen
  obtain ⟨u, t, r, out, hstart, hrun, hdoc, hbusy, hstop, hcount, hpix⟩ := lzwRunRefinesDocument s h hready
  obtain ⟨-, -, -, hm, -⟩ := hready
  rw [hbytes] at hdoc
  obtain ⟨hout, rfl⟩ := Doc.run_encoded hm (Doc.ok_of_seeded hm rfl rfl) henc (Doc.packs_start _ cs) hlen hdoc
  obtain rfl : x = out := hout.symm
  have hlast : t.lzw.outCount.toNat = x.length := hcount.trans (Nat.min_eq_left hlen)
  exact ⟨u, t, hstart, hrun, hbusy, hstop, hlast, hlast ▸ hpix⟩

end Sys2Proof.Claims
end

section
/-! PROOFS. Sampling and rescale in exact arithmetic (42_downscale_quantize.md R222 to R225, R231, R233): the clamps never fire, every
sampled pixel lies inside the raster, and equal sizes sample cell by cell. -/

namespace Sys2Proof.Machine
open Claims

/-! ## Sampling -/

theorem sample_index_lt {S T t : Nat} (hS : 1 ≤ S) (ht : t < T) : ((2 * t + 1) * S) / (2 * T) < S :=
  Nat.div_lt_of_lt_mul (Nat.mul_lt_mul_of_pos_right (by omega) hS)

/-- The clamp of R222 and R223 never fires. -/
theorem sample_eq {S T t : Nat} (hS : 1 ≤ S) (ht : t < T) : sample S T t = ((2 * t + 1) * S) / (2 * T) :=
  Nat.min_eq_left (Nat.le_sub_one_of_lt (sample_index_lt hS ht))

theorem sample_lt {S T t : Nat} (hS : 1 ≤ S) (ht : t < T) : sample S T t < S :=
  (sample_eq hS ht).trans_lt (sample_index_lt hS ht)

theorem sample_self {T t : Nat} (ht : t < T) : sample T T t = t := by
  have hT : 0 < T := Nat.zero_lt_of_lt ht
  rw [sample_eq hT ht, Nat.mul_div_mul_right _ _ hT]
  omega

/-! ## Cells and pixels -/

/-- Row-major order keeps the pixels of a raster inside it. -/
theorem pixel_offset_lt {W H x y : Nat} (hx : x < W) (hy : y < H) : y * W + x < W * H :=
  calc y * W + x
    _ < y * W + W := Nat.add_lt_add_left hx _
    _ = W * (y + 1) := by ring
    _ ≤ W * H := Nat.mul_le_mul_left W hy

theorem cell_row_lt {W H k : Nat} (hk : k < W * H) : k / W < H := Nat.div_lt_of_lt_mul hk

theorem cell_column_lt {W H k : Nat} (hk : k < W * H) : k % W < W := Nat.mod_lt k (Nat.pos_of_lt_mul_right hk)

theorem State.cellSource_lt {s : State} {k : Nat} (hw : 1 ≤ s.ds.srcW.toNat) (hh : 1 ≤ s.ds.srcH.toNat)
    (hk : k < s.params.tgtW * s.params.tgtH) : s.cellSource k < s.ds.srcW.toNat * s.ds.srcH.toNat :=
  pixel_offset_lt (sample_lt hw (cell_column_lt hk)) (sample_lt hh (cell_row_lt hk))

/-- With the raster as large as the grid a cell's place in both is the same (R231). -/
theorem State.cellSource_of_equal_sizes {s : State} {k : Nat} (hw : s.ds.srcW.toNat = s.params.tgtW)
    (hh : s.ds.srcH.toNat = s.params.tgtH) (hk : k < s.params.tgtW * s.params.tgtH) : s.cellSource k = k := by
  rw [State.cellSource, hw, hh, sample_self (cell_row_lt hk), sample_self (cell_column_lt hk), Nat.div_add_mod']

/-- Settles O52: the sampled index is below S before the clamp, so the sampled row and column lie inside the raster. -/
theorem samplingStaysInsideTheRaster : Obligations.SamplingStaysInsideTheRaster :=
  ⟨fun _ _ _ hS ht => ⟨sample_eq hS ht, Nat.le_sub_one_of_lt (sample_lt hS ht)⟩,
    fun _ _ hw hh hk => Nat.le_sub_one_of_lt (State.cellSource_lt hw hh hk)⟩

/-- Settles O54: `(2t + 1) T / (2T)` is t, and row and column of a cell make up its number again. -/
theorem equalSizesSampleIdentically : Obligations.EqualSizesSampleIdentically := by
  refine ⟨fun _ _ => sample_self, fun s k hw hh hk => ?_⟩
  have hsource := State.cellSource_of_equal_sizes hw hh hk
  exact ⟨hsource, by rw [State.cellValue, hsource]⟩

/-! ## Rescale -/

theorem quantize_le (maxb g : Nat) : quantize maxb g ≤ maxb := Nat.min_le_left _ _

/-- The clamp of R225 never fires. -/
theorem quantize_eq {g : Nat} (hg : g ≤ 255) (maxb : Nat) : quantize maxb g = (2 * g * maxb + 255) / 510 := by
  have hprod : 2 * g * maxb ≤ 510 * maxb := Nat.mul_le_mul_right maxb (by omega)
  exact Nat.min_eq_right (by omega)

/-- Less than one half away from `g * MAXB / 255`, on either side: `2 g MAXB` is even and 255 is odd, so there is no tie. -/
theorem quantize_rounds {g : Nat} (hg : g ≤ 255) (maxb : Nat) :
    2 * (255 * quantize maxb g) < 2 * (g * maxb) + 255 ∧ 2 * (g * maxb) < 2 * (255 * quantize maxb g) + 255 := by
  rw [quantize_eq hg, Nat.mul_assoc]
  omega

theorem quantize_zero (maxb : Nat) : quantize maxb 0 = 0 := by
  rw [quantize_eq (Nat.zero_le _)]
  omega

theorem quantize_white (maxb : Nat) : quantize maxb 255 = maxb := by
  rw [quantize_eq le_rfl]
  omega

/-- Settles O53: the rescale without its clamp, between its two ends. -/
theorem rescaleRoundsToNearest : Obligations.RescaleRoundsToNearest := by
  intro maxb g hg
  obtain ⟨hbelow, habove⟩ := quantize_rounds hg maxb
  exact ⟨quantize_eq hg maxb, quantize_le maxb g, hbelow, habove, quantize_zero maxb, quantize_white maxb⟩

end Sys2Proof.Machine
end

section
/-! PROOFS. A DS step (42_downscale_quantize.md R226, R228, R233): what a cell must hold, and that the step stores it there and nothing
else. -/

namespace Sys2Proof.Machine
open Claims

/-! ## A cell's value -/

/-- The formula without clamps is the clamped rescale of the pixel that the clamped indices name. -/
theorem State.DsRun.cellFormula_eq {s : State} (h : s.DsRun) {k : Nat} (hk : k < s.params.tgtW * s.params.tgtH) :
    cellFormula s k = quantize s.params.maxb (s.bufByte .pix (s.cellSource k)).toNat := by
  rw [quantize_eq (Nat.le_of_lt_succ (BitVec.isLt _)), State.cellSource, sample_eq h.srcH_pos (cell_row_lt hk),
    sample_eq h.srcW_pos (cell_column_lt hk)]
  rfl

theorem State.DsRun.cellFormula_le {s : State} (h : s.DsRun) {k : Nat} (hk : k < s.params.tgtW * s.params.tgtH) :
    cellFormula s k ≤ s.params.maxb :=
  (h.cellFormula_eq hk).trans_le (quantize_le _ _)

/-- MAXB is at most 255 (R7), so a cell's brightness fits its byte. -/
theorem State.Inv.toNat_cellValue {s : State} (h : s.Inv) (hr : s.DsRun) {k : Nat}
    (hk : k < s.params.tgtW * s.params.tgtH) : (s.cellValue k).toNat = cellFormula s k := by
  obtain ⟨-, -, -, -, ⟨-, hmaxb⟩, -⟩ := h.params_legal
  have hle := hr.cellFormula_le hk
  rw [State.cellValue, ← hr.cellFormula_eq hk, BitVec.toNat_ofNat, Nat.mod_eq_of_lt (by omega)]

/-! ## The step -/

/-- The state after a DS step: OUT[k] stored, DS_CELL moved on, and `stop DS(OK)` after the last cell (R226, R228). -/
def State.cellDone (s : State) : State :=
  { s.cellStored with
    ds := s.ds.nextCell
    status := if s.ds.cell.toNat + 1 = s.params.tgtW * s.params.tgtH
      then { s.status with dsBusy := false, dsDone := true, dsResult := .ok } else s.status }

theorem execDsCellStep_of_idle {s : State} (hb : s.status.dsBusy = false) : execDsCellStep s = .next s :=
  if_neg (by simp [hb])

theorem execDsCellStep_of_busy {s : State} (hb : s.status.dsBusy = true) : execDsCellStep s = .next s.cellDone := by
  obtain ⟨hidle, -⟩ | ⟨-, hk, he⟩ | ⟨-, hk, he⟩ := execDsCellStep_cases s
  · exact absurd (hidle.symm.trans hb) Bool.false_ne_true
  · rw [he, State.cellDone, if_neg hk]
    rfl
  · rw [he, State.cellDone, if_pos hk]
    rfl

theorem State.byteAt_cellDone_cell (s : State) :
    s.cellDone.byteAt (Buf.out.base + s.ds.cell.toNat) = s.cellValue s.ds.cell.toNat :=
  State.byteAt_setByte_same _ _ s

theorem State.byteAt_cellDone_other {s : State} {x : Nat} (hx : x ≠ Buf.out.base + s.ds.cell.toNat) :
    s.cellDone.byteAt x = s.byteAt x :=
  State.byteAt_setByte_other hx _ s

/-- Settles O51: the store of the one cell, and the stop after the last. -/
theorem dsStepWritesOneCell : Obligations.DsStepWritesOneCell := by
  refine fun s => ⟨execDsCellStep_of_idle, fun h hb => ?_⟩
  have hr := h.ds_run hb
  exact ⟨s.cellDone, execDsCellStep_of_busy hb, rfl, h.toNat_nextCell hb,
    (congrArg BitVec.toNat s.byteAt_cellDone_cell).trans (h.toNat_cellValue hr hr.cell_lt), hr.cellFormula_le hr.cell_lt,
    fun _ => State.byteAt_cellDone_other, rfl⟩

end Sys2Proof.Machine
end

section
/-! PROOFS. A DS run left to itself (42_downscale_quantize.md R227, R228, R230, R232): cell by cell it fills OUT with what the raster
and the grid alone determine. -/

namespace Sys2Proof.Machine
open Claims

/-! ## What a cell's value depends on -/

/-- The two states agree on all that a DS run reads (R230). -/
structure State.SameRaster (s t : State) : Prop where
  tgtW_eq : s.params.tgtW = t.params.tgtW
  tgtH_eq : s.params.tgtH = t.params.tgtH
  maxb_eq : s.params.maxb = t.params.maxb
  srcW_eq : s.ds.srcW = t.ds.srcW
  srcH_eq : s.ds.srcH = t.ds.srcH
  pixel_eq : ∀ k < s.ds.srcW.toNat * s.ds.srcH.toNat, s.bufByte .pix k = t.bufByte .pix k

/-- A cell samples inside the raster, so the raster, its size and the grid determine its value. -/
theorem State.SameRaster.cellFormula_eq {s t : State} (h : s.SameRaster t) (hs : s.DsRun) (ht : t.DsRun) {k : Nat}
    (hk : k < s.params.tgtW * s.params.tgtH) : cellFormula s k = cellFormula t k := by
  obtain ⟨htgtW, htgtH, hmaxb, hsrcW, hsrcH, hpixel⟩ := h
  have hsource : s.cellSource k = t.cellSource k := by
    simp only [State.cellSource, htgtW, htgtH, hsrcW, hsrcH]
  rw [hs.cellFormula_eq hk, ht.cellFormula_eq (htgtW ▸ htgtH ▸ hk), hmaxb,
    hpixel _ (State.cellSource_lt hs.srcW_pos hs.srcH_pos hk), hsource]

/-! ## Cell by cell -/

/-- `t` is a DS run from `s` with the first `j` cells of OUT filled: nothing but these bytes, DS_CELL and STATUS has changed. -/
structure State.FilledTo (s t : State) (j : Nat) : Prop where
  frame : t = { s with ds := { s.ds with cell := t.ds.cell }, mem := t.mem, status := t.status }
  cell_eq : t.ds.cell.toNat = j
  filled : ∀ k < j, (t.byteAt (Buf.out.base + k)).toNat = cellFormula s k
  kept : ∀ x, x < Buf.out.base ∨ Buf.out.base + j ≤ x → t.byteAt x = s.byteAt x

theorem State.filledTo_start {s : State} (hc : s.ds.cell = 0#32) : s.FilledTo s 0 :=
  ⟨rfl, congrArg BitVec.toNat hc, nofun, fun _ _ => rfl⟩

theorem State.FilledTo.params_eq {s t : State} {j : Nat} (hf : s.FilledTo t j) : t.params = s.params := by
  rw [hf.frame]

/-- OUT lies below PIX (R71), so a run leaves its own raster as it was. -/
theorem State.FilledTo.sameRaster {s t : State} {j : Nat} (hf : s.FilledTo t j) (h : s.Inv)
    (hj : j ≤ s.params.tgtW * s.params.tgtH) : s.SameRaster t := by
  obtain ⟨-, -, -, -, -, hcells⟩ := h.params_legal
  have hparams : s.params = t.params := hf.params_eq.symm
  have hds : t.ds = { s.ds with cell := t.ds.cell } := congrArg State.ds hf.frame
  have hpix (k : Nat) : Buf.out.base + j ≤ Buf.pix.base + k := by
    show 0x1000 + j ≤ 0x1000000 + k
    omega
  exact ⟨congrArg _ hparams, congrArg _ hparams, congrArg _ hparams, (congrArg DsRegs.srcW hds).symm,
    (congrArg DsRegs.srcH hds).symm, fun k _ => (hf.kept _ (.inr (hpix k))).symm⟩

/-- A step of a run that has filled `j` cells fills the next one. -/
theorem State.FilledTo.cellStep {s t u : State} {j : Nat} (hf : s.FilledTo t j) (h : s.Inv) (hb : s.status.dsBusy = true)
    (ht : t.Inv) (hbt : t.status.dsBusy = true) (hu : exec .dsCellStep t = .next u) :
    s.FilledTo u (j + 1) ∧ u.status = if j + 1 = s.params.tgtW * s.params.tgtH
      then { t.status with dsBusy := false, dsDone := true, dsResult := .ok } else t.status := by
  have hrt := ht.ds_run hbt
  have hparams : t.params = s.params := hf.params_eq
  have hj : j < s.params.tgtW * s.params.tgtH := hf.cell_eq ▸ hparams ▸ hrt.cell_lt
  have hvalue : cellFormula t j = cellFormula s j :=
    ((hf.sameRaster h hj.le).cellFormula_eq (h.ds_run hb) hrt hj).symm
  obtain ⟨v, hv, hframe, hcell, hbyte, -, hother, hstatus⟩ := (dsStepWritesOneCell t).2 ht hbt
  obtain rfl : v = u := Host.Outcome.next.inj (hv.symm.trans hu)
  rw [hf.cell_eq] at hcell hbyte hother hstatus
  refine ⟨⟨hframe.trans (by rw [hf.frame]), hcell, fun k hk => ?_, fun x hx => ?_⟩, hparams ▸ hstatus⟩
  · obtain hlt | rfl := Nat.lt_succ_iff_lt_or_eq.1 hk
    · rw [hother _ (by omega), hf.filled k hlt]
    · exact hbyte.trans hvalue
  · rw [hother x (by omega), hf.kept x (by omega)]

/-! ## A run -/

/-- With no turn left the block's next step is the step of the busy DS engine. -/
theorem State.Inv.step_of_dsBusy {s : State} (h : s.Inv) (hb : s.status.dsBusy = true) (hts : s.turns = []) :
    step s = exec .dsCellStep s :=
  step_of_no_turn_dsBusy hts (by simpa [hb] using h.not_both) hb

section
variable {s : State} (h : s.Inv) (hb : s.status.dsBusy = true) (hc : s.ds.cell = 0#32) (hts : s.turns = [])
include h hb hc hts

/-- A run fills a cell at each step, and stops with OK at the step that fills the last. -/
theorem State.Inv.dsRun_fills {j : Nat} (hj : j ≤ s.params.tgtW * s.params.tgtH) :
    ∃ t, Host.Core.run Sys2Proof.core j s = .next t ∧ t.Inv ∧ s.FilledTo t j ∧
      t.status = if j = s.params.tgtW * s.params.tgtH
        then { s.status with dsBusy := false, dsDone := true, dsResult := .ok } else s.status := by
  induction j with
  | zero =>
    have hpos : 0 ≠ s.params.tgtW * s.params.tgtH := (Nat.zero_lt_of_lt (h.ds_run hb).cell_lt).ne
    exact ⟨s, rfl, h, State.filledTo_start hc, (if_neg hpos).symm⟩
  | succ j ih =>
    obtain ⟨t, hrun, ht, hf, hst⟩ := ih (Nat.le_of_succ_le hj)
    rw [if_neg (Nat.ne_of_lt hj)] at hst
    have hbt : t.status.dsBusy = true := (congrArg Status.dsBusy hst).trans hb
    have hu : exec .dsCellStep t = .next t.cellDone := execDsCellStep_of_busy hbt
    have hstep : step t = .next t.cellDone :=
      (ht.step_of_dsBusy hbt ((congrArg State.turns hf.frame).trans hts)).trans hu
    obtain ⟨hfu, hsu⟩ := hf.cellStep h hb ht hbt hu
    exact ⟨t.cellDone, run_snoc Sys2Proof.core hrun hstep, stepKeepsInvariant t _ ht hstep, hfu, hst ▸ hsu⟩

end

/-- Settles O55: after `j` steps the first `j` cells are filled, and the run has stopped exactly when that is all of them. -/
theorem dsRunFillsOut : Obligations.DsRunFillsOut := by
  intro s h hb hc hts
  refine ⟨fun j hj => ?_, ?_⟩
  · obtain ⟨u, hrun, -, hf, hst⟩ := h.dsRun_fills hb hc hts hj.le
    rw [if_neg hj.ne] at hst
    exact ⟨u, hrun, (congrArg Status.dsBusy hst).trans hb, hf.cell_eq⟩
  · obtain ⟨t, hrun, -, hf, hst⟩ := h.dsRun_fills hb hc hts le_rfl
    exact ⟨t, hrun, hst.trans (if_pos rfl), hf.cell_eq,
      fun k hk => ⟨hf.filled k hk, (h.ds_run hb).cellFormula_le hk⟩, hf.kept⟩

/-- Settles O56: OUT holds the cells' values (R228), and these depend on the raster, its size and the grid alone. -/
theorem dsResultDependsOnRasterOnly : Obligations.DsResultDependsOnRasterOnly := by
  intro s s' h h' hb hb' hc hc' hts hts' hw hh hm hsw hsh hpix
  have hsame : s.SameRaster s' := ⟨hw, hh, hm, hsw, hsh, hpix⟩
  obtain ⟨-, t, hrun, -, -, hout, -⟩ := dsRunFillsOut s h hb hc hts
  obtain ⟨-, t', hrun', -, -, hout', -⟩ := dsRunFillsOut s' h' hb' hc' hts'
  rw [← hw, ← hh] at hrun' hout'
  refine ⟨t, t', hrun, hrun', fun k hk => BitVec.eq_of_toNat_eq ?_⟩
  calc (t.bufByte .out k).toNat
    _ = cellFormula s k := (hout k hk).1
    _ = cellFormula s' k := hsame.cellFormula_eq (h.ds_run hb) (h'.ds_run hb') hk
    _ = (t'.bufByte .out k).toNat := (hout' k hk).1.symm

/-- Settles O57: every cell samples inside the raster, so it samples the one value. -/
theorem uniformRasterGivesUniformOut : Obligations.UniformRasterGivesUniformOut := by
  intro s g h hb hc hts hpix
  have hr := h.ds_run hb
  obtain ⟨-, t, hrun, -, -, hout, -⟩ := dsRunFillsOut s h hb hc hts
  refine ⟨t, hrun, fun k hk => ?_⟩
  calc (t.bufByte .out k).toNat
    _ = cellFormula s k := (hout k hk).1
    _ = quantize s.params.maxb (s.bufByte .pix (s.cellSource k)).toNat := hr.cellFormula_eq hk
    _ = quantize s.params.maxb g.toNat := by rw [hpix _ (State.cellSource_lt hr.srcW_pos hr.srcH_pos hk)]

end Sys2Proof.Machine
end

section
/-! PROOFS. The block has no trap: from every state with the invariant a step has a next state (60_exceptions.md R250). The host's
transactions complete in every state; an LZW step needs the dictionary to be well founded (10_state.md R52). -/

namespace Sys2Proof.Machine

/-! ## The host's transactions complete -/

theorem execLzwStart_completes (s : State) : ∃ t, execLzwStart s = .next t := by
  obtain ⟨-, he⟩ | ⟨-, he⟩ | ⟨-, he⟩ | ⟨-, -, -, -, he⟩ := execLzwStart_cases s <;> exact ⟨_, he⟩

theorem execDsStart_completes (s : State) : ∃ t, execDsStart s = .next t := by
  obtain ⟨-, he⟩ | ⟨-, he⟩ | ⟨-, -, -, -, he⟩ := execDsStart_cases s <;> exact ⟨_, he⟩

/-- Every command word completes, the illegal ones with CMDERR (R140 to R146). -/
theorem command_completes (v : Word) (s : State) : ∃ t, command v s = .next t := by
  obtain he | he | he | he | ⟨-, he⟩ | ⟨-, he⟩ | he := command_cases v s <;> rw [he]
  · exact ⟨_, rfl⟩
  · exact execLzwStart_completes s
  · exact execDsStart_completes s
  · exact ⟨_, rfl⟩
  · exact ⟨_, rfl⟩
  · exact ⟨_, rfl⟩
  · exact ⟨_, rfl⟩

theorem regWrite_completes (off v : Word) (s : State) : ∃ t, regWrite off v s = .next t := by
  obtain ⟨-, he⟩ | ⟨-, -, -, he⟩ | ⟨-, -, -, he⟩ | ⟨-, -, he⟩ := regWrite_cases off v s
  · exact he ▸ command_completes v s
  · exact ⟨_, he⟩
  · exact ⟨_, he⟩
  · exact ⟨_, he⟩

/-- A WR completes whatever its shape and its target: what it may not do sets an error flag instead (R130, R135, R137, R138). -/
theorem hostWrite_completes (off v : Word) (n : Nat) (s : State) : ∃ t, hostWrite off n v s = .next t := by
  obtain ⟨-, he⟩ | ⟨-, he⟩ | ⟨b, -, -, he⟩ | ⟨b, -, -, he⟩ := hostWrite_cases off v n s
  · exact ⟨_, he⟩
  · exact he ▸ regWrite_completes off v s
  · exact ⟨_, he⟩
  · exact ⟨_, he⟩

/-- A POLL's turn completes, whether its read ends the loop or not (R114). -/
theorem pollOn_hostRead_completes (p : Poll) (s : State) : ∃ t, pollOn p (hostRead p.off 4 s) = .next t := by
  obtain ⟨v, t, -, -, hp⟩ := pollOn_hostRead p s
  rw [hp, ← apply_ite]
  exact ⟨_, rfl⟩

/-! ## Steps -/

/-- Settles O4: the one step that can fault is the LZW engine's, and the invariant gives every code that it takes a sequence. -/
theorem stepNeverStops : Obligations.StepNeverStops := by
  intro s h
  have hu : State.Inv { s with turns := s.turns.tail } := h.congr rfl rfl rfl rfl rfl rfl
  obtain ⟨-, -, he⟩ | ⟨-, he⟩ | ⟨-, he⟩ | ⟨off, n, -, he⟩ | ⟨off, n, v, -, he⟩ | ⟨-, he⟩ | ⟨-, he⟩ | ⟨p, -, he⟩ :=
    step_cases (s := s) rfl <;> rw [he]
  · exact ⟨_, rfl⟩
  · exact hu.execLzwStep_completes.imp fun _ => And.left
  · exact (execDsCellStep_completes _).imp fun _ => And.left
  · obtain ⟨v, t, ht, -⟩ := hostRead_next off n { s with turns := s.turns.tail }
    exact ⟨t, ht⟩
  · exact hostWrite_completes off v n _
  · exact ⟨_, rfl⟩
  · exact ⟨_, rfl⟩
  · exact pollOn_hostRead_completes p _

end Sys2Proof.Machine
end

section
/-! PROOFS. Resets (70_reset_and_hazards.md R280 to R284): the table of R281 as the registers' words, the invariant in a reset state,
and the turns of the reset input and of power-on. -/

namespace Sys2Proof.Machine

/-! ## What a reset state reads -/

theorem State.busy_of_status_reset {s : State} (h : s.status = .reset) : s.busy = false := by
  rw [State.busy, h]
  rfl

/-- With nothing stored, every byte is the draw of the last power-on (R282). -/
theorem State.byteAt_of_mem_nil {s : State} (h : s.mem = []) (a : Nat) : s.byteAt a = Config.powerOnByte s.powerOns a := by
  rw [State.byteAt, h]
  rfl

/-- The registers past the constants ID and CAP0 to CAP2 have reset value 0 (R281). -/
theorem State.regRead_resetWith (p : Params) {off : Nat} (h : 0x10 ≤ off) : (State.resetWith p).regRead off = 0#32 := by
  unfold State.regRead
  split
  -- the first four alternatives are the constants, whose offsets are below 0x10
  case h_1 | h_2 | h_3 | h_4 => omega
  all_goals rfl

/-- Settles O1: the constants are words of the parameters, which fit them in a legal block; all else is 0 or a free draw. -/
theorem resetHoldsResetValues : Obligations.ResetHoldsResetValues := by
  rintro p ⟨hin, hpix, hw, hh, hm, -⟩
  have hword {n : Nat} (h : n < 2 ^ 32) : (BitVec.ofNat 32 n).toNat = n :=
    (BitVec.toNat_ofNat _ _).trans (Nat.mod_eq_of_lt h)
  have hcap : p.tgtW + 2 ^ 8 * p.tgtH + 2 ^ 16 * p.maxb + 2 ^ 24 * 12 < 2 ^ 32 := by omega
  exact ⟨rfl, hword hcap, hword (hin.2.trans_lt (by decide)), hword (hpix.2.trans_lt (by decide)),
    fun _ => State.regRead_resetWith p, State.busy_of_status_reset rfl, State.byteAt_of_mem_nil rfl⟩

/-! ## The invariant -/

/-- A block with no engine busy, nothing stored and no result meets the invariant where its parameters are legal. -/
theorem State.inv_resetWith {p : Params} (h : p.Legal) : (State.resetWith p).Inv :=
  .of_idle h List.Pairwise.nil nofun List.Pairwise.nil nofun rfl rfl rfl rfl rfl

/-- Settles O2: the default parameters are legal ones (R7). -/
theorem invariantHoldsAtReset : Obligations.InvariantHoldsAtReset :=
  ⟨fun _ => State.inv_resetWith, State.inv_resetWith (by decide)⟩

/-! ## Turns -/

theorem step_of_resetInput_turn {s : State} {ts : List Turn} (h : s.turns = .resetInput :: ts) :
    step s = .next (State.resetInput { s with turns := ts }) := by
  rw [step, nextEvent_of_turns_cons h, eventOf]

theorem step_of_powerOn_turn {s : State} {ts : List Turn} (h : s.turns = .powerOn :: ts) :
    step s = .next (State.powerOn { s with turns := ts }) := by
  rw [step, nextEvent_of_turns_cons h, eventOf]

/-- Settles O34: both reset the registers; the reset input leaves memory and the draw as they are, power-on empties memory and draws
anew. -/
theorem resetTurnsFollowTheirRule : Obligations.ResetTurnsFollowTheirRule := fun _ _ =>
  ⟨fun h => ⟨_, step_of_resetInput_turn h, State.busy_of_status_reset rfl, State.regRead_congr rfl rfl rfl rfl,
      State.byteAt_congr rfl rfl⟩,
    fun h => ⟨_, step_of_powerOn_turn h, State.busy_of_status_reset rfl, rfl, State.regRead_congr rfl rfl rfl rfl,
      State.byteAt_of_mem_nil rfl⟩⟩

end Sys2Proof.Machine
end
